-- ==== Sys2Proof/Word.lean ====
section
/-! DEFINITION. The word types of the CHIP-8 core: what the spec gives a width in bits (00_scope.md R6, R9). -/

namespace Sys2Proof

/-- An 8-bit value: a general register, a timer, a byte of memory (00_scope.md R6). -/
abbrev Byte := BitVec 8

/-- A 16-bit value: the opcode, `I`, `PC`, a stack entry, `ERR_INFO` (00_scope.md R6). -/
abbrev Word := BitVec 16

/-- A 12-bit immediate address, the `NNN` field (30_encoding.md R91). -/
abbrev Addr := BitVec 12

/-- A register number 0-15, the `X` or `Y` field (30_encoding.md R91). -/
abbrev Reg := Fin 16

end Sys2Proof
end

