-- ==== Sys2Proof/Syntax.lean ====
section
/-! DEFINITION. The 35 instruction forms of 30_encoding.md R94, one constructor for each row of
spec/opcode_table.json, with the operand fields of R91: register numbers `x`, `y`, the 4-bit count `n`, the 8-bit
immediate `nn` and the 12-bit address `nnn`. -/

namespace Sys2Proof

/-- An instruction. The fields that a form ignores (`y` of `SHR` and `SHL`, 30_encoding.md R97) are kept, so that no
bit of a word is lost. -/
inductive Instr where
  /-- `0NNN  SYS NNN` (R150) -/
  | sys (nnn : Addr)
  /-- `00E0  CLS` (R220) -/
  | cls
  /-- `00EE  RET` (R151) -/
  | ret
  /-- `1NNN  JP NNN` (R152) -/
  | jp (nnn : Addr)
  /-- `2NNN  CALL NNN` (R153) -/
  | call (nnn : Addr)
  /-- `3XNN  SE Vx, NN` (R155) -/
  | seImm (x : Reg) (nn : Byte)
  /-- `4XNN  SNE Vx, NN` (R156) -/
  | sneImm (x : Reg) (nn : Byte)
  /-- `5XY0  SE Vx, Vy` (R157) -/
  | seReg (x y : Reg)
  /-- `6XNN  LD Vx, NN` (R120) -/
  | ldImm (x : Reg) (nn : Byte)
  /-- `7XNN  ADD Vx, NN` (R121) -/
  | addImm (x : Reg) (nn : Byte)
  /-- `8XY0  LD Vx, Vy` (R122) -/
  | ldReg (x y : Reg)
  /-- `8XY1  OR Vx, Vy` (R123) -/
  | orReg (x y : Reg)
  /-- `8XY2  AND Vx, Vy` (R124) -/
  | andReg (x y : Reg)
  /-- `8XY3  XOR Vx, Vy` (R125) -/
  | xorReg (x y : Reg)
  /-- `8XY4  ADD Vx, Vy` (R126) -/
  | addReg (x y : Reg)
  /-- `8XY5  SUB Vx, Vy` (R127) -/
  | sub (x y : Reg)
  /-- `8XY6  SHR Vx` (R128) -/
  | shr (x y : Reg)
  /-- `8XY7  SUBN Vx, Vy` (R129) -/
  | subn (x y : Reg)
  /-- `8XYE  SHL Vx` (R130) -/
  | shl (x y : Reg)
  /-- `9XY0  SNE Vx, Vy` (R158) -/
  | sneReg (x y : Reg)
  /-- `ANNN  LD I, NNN` (R180) -/
  | ldI (nnn : Addr)
  /-- `BNNN  JP V0, NNN` (R154) -/
  | jpV0 (nnn : Addr)
  /-- `CXNN  RND Vx, NN` (R280) -/
  | rnd (x : Reg) (nn : Byte)
  /-- `DXYN  DRW Vx, Vy, N` (R221) -/
  | drw (x y : Reg) (n : Fin 16)
  /-- `EX9E  SKP Vx` (R203) -/
  | skp (x : Reg)
  /-- `EXA1  SKNP Vx` (R204) -/
  | sknp (x : Reg)
  /-- `FX07  LD Vx, DT` (R240) -/
  | ldVxDt (x : Reg)
  /-- `FX0A  LD Vx, K` (R201) -/
  | ldVxK (x : Reg)
  /-- `FX15  LD DT, Vx` (R241) -/
  | ldDtVx (x : Reg)
  /-- `FX18  LD ST, Vx` (R242) -/
  | ldStVx (x : Reg)
  /-- `FX1E  ADD I, Vx` (R181) -/
  | addIVx (x : Reg)
  /-- `FX29  LD F, Vx` (R260) -/
  | ldFVx (x : Reg)
  /-- `FX33  LD B, Vx` (R261) -/
  | ldBVx (x : Reg)
  /-- `FX55  LD [I], Vx` (R182) -/
  | storeRegs (x : Reg)
  /-- `FX65  LD Vx, [I]` (R183) -/
  | loadRegs (x : Reg)
  deriving DecidableEq, Repr

end Sys2Proof
end

