-- ==== Sys2Proof/Decode.lean ====
section
/-! DEFINITION. The decoder of 30_encoding.md R98, total on every word and on every list of bytes, which rejects by name;
and after it the encoder, written from the layouts of R92 and R94, and the assembler syntax of R101. -/

namespace Sys2Proof

/-- The five kinds of illegal word that 30_encoding.md R95 lists. -/
inductive IllegalForm where
  /-- `5XYn` with `n` not 0 -/
  | form5XYn
  /-- `8XYn` with `n` in 8-D, F -/
  | form8XYn
  /-- `9XYn` with `n` not 0 -/
  | form9XYn
  /-- `EXnn` with `nn` neither `9E` nor `A1` -/
  | formEXnn
  /-- `FXnn` with `nn` none of the nine minor opcodes -/
  | formFXnn
  deriving DecidableEq, Repr

/-- Why a list of bytes is no instruction. -/
inductive DecodeReject where
  /-- Fewer than the 2 bytes that every instruction has (R90). -/
  | truncated
  /-- An illegal word (R95), with the raw word that `UnknownOpcode` reports. -/
  | illegal (form : IllegalForm) (op : Word)
  deriving DecidableEq, Repr

/-! ### The fields of a word (30_encoding.md R91) -/

/-- The major opcode, `op[15:12]`. -/
def majorField (op : Word) : BitVec 4 := op.extractLsb' 12 4

/-- `X = op[11:8]`. -/
def xField (op : Word) : Reg := (op.extractLsb' 8 4).toFin

/-- `Y = op[7:4]`. -/
def yField (op : Word) : Reg := (op.extractLsb' 4 4).toFin

/-- `N = op[3:0]` as a minor opcode. -/
def minorField (op : Word) : BitVec 4 := op.extractLsb' 0 4

/-- `N = op[3:0]` as a count. -/
def nField (op : Word) : Fin 16 := (op.extractLsb' 0 4).toFin

/-- `NN = op[7:0]`. -/
def nnField (op : Word) : Byte := op.extractLsb' 0 8

/-- `NNN = op[11:0]`. -/
def nnnField (op : Word) : Addr := op.extractLsb' 0 12

/-- The opcode of two bytes: the byte at the lower address is the high byte (20_memory.md R61). -/
def opcodeOf (high low : Byte) : Word := high ++ low

/-! ### The decode function (30_encoding.md R98) -/

/-- Major opcode `0`: `CLS`, `RET`, and `SYS` for every other word (R96). -/
def decodeMajor0 (op : Word) : Instr :=
  if op = 0x00E0#16 then .cls else if op = 0x00EE#16 then .ret else .sys (nnnField op)

/-- Major opcode `8`, by the minor field `N`. -/
def decodeMajor8 (op : Word) : Except DecodeReject Instr :=
  match minorField op with
  | 0x0#4 => .ok (.ldReg (xField op) (yField op))
  | 0x1#4 => .ok (.orReg (xField op) (yField op))
  | 0x2#4 => .ok (.andReg (xField op) (yField op))
  | 0x3#4 => .ok (.xorReg (xField op) (yField op))
  | 0x4#4 => .ok (.addReg (xField op) (yField op))
  | 0x5#4 => .ok (.sub (xField op) (yField op))
  | 0x6#4 => .ok (.shr (xField op) (yField op))
  | 0x7#4 => .ok (.subn (xField op) (yField op))
  | 0xE#4 => .ok (.shl (xField op) (yField op))
  | _ => .error (.illegal .form8XYn op)

/-- Major opcode `E`, by the minor field `NN`. -/
def decodeMajorE (op : Word) : Except DecodeReject Instr :=
  match nnField op with
  | 0x9E#8 => .ok (.skp (xField op))
  | 0xA1#8 => .ok (.sknp (xField op))
  | _ => .error (.illegal .formEXnn op)

/-- Major opcode `F`, by the minor field `NN`. -/
def decodeMajorF (op : Word) : Except DecodeReject Instr :=
  match nnField op with
  | 0x07#8 => .ok (.ldVxDt (xField op))
  | 0x0A#8 => .ok (.ldVxK (xField op))
  | 0x15#8 => .ok (.ldDtVx (xField op))
  | 0x18#8 => .ok (.ldStVx (xField op))
  | 0x1E#8 => .ok (.addIVx (xField op))
  | 0x29#8 => .ok (.ldFVx (xField op))
  | 0x33#8 => .ok (.ldBVx (xField op))
  | 0x55#8 => .ok (.storeRegs (xField op))
  | 0x65#8 => .ok (.loadRegs (xField op))
  | _ => .error (.illegal .formFXnn op)

/-- The instruction of a word, or why it is none (R98). The last arm is the major opcode `F`. -/
def decodeWord (op : Word) : Except DecodeReject Instr :=
  match majorField op with
  | 0x0#4 => .ok (decodeMajor0 op)
  | 0x1#4 => .ok (.jp (nnnField op))
  | 0x2#4 => .ok (.call (nnnField op))
  | 0x3#4 => .ok (.seImm (xField op) (nnField op))
  | 0x4#4 => .ok (.sneImm (xField op) (nnField op))
  | 0x5#4 => if minorField op = 0x0#4 then .ok (.seReg (xField op) (yField op)) else .error (.illegal .form5XYn op)
  | 0x6#4 => .ok (.ldImm (xField op) (nnField op))
  | 0x7#4 => .ok (.addImm (xField op) (nnField op))
  | 0x8#4 => decodeMajor8 op
  | 0x9#4 => if minorField op = 0x0#4 then .ok (.sneReg (xField op) (yField op)) else .error (.illegal .form9XYn op)
  | 0xA#4 => .ok (.ldI (nnnField op))
  | 0xB#4 => .ok (.jpV0 (nnnField op))
  | 0xC#4 => .ok (.rnd (xField op) (nnField op))
  | 0xD#4 => .ok (.drw (xField op) (yField op) (nField op))
  | 0xE#4 => decodeMajorE op
  | _ => decodeMajorF op

/-- The first instruction of a list of bytes and the bytes after it: always 2 bytes, the high byte first (R90). -/
def decode : List Byte → Except DecodeReject (Instr × List Byte)
  | high :: low :: rest =>
    match decodeWord (opcodeOf high low) with
    | .ok i => .ok (i, rest)
    | .error r => .error r
  | _ => .error .truncated

/-! ### The encoder (30_encoding.md R92, R94) -/

/-- A register number or a count as its 4-bit field. -/
def nibble (x : Fin 16) : BitVec 4 := .ofFin x

/-- Format `addr`: the major opcode and `NNN`. -/
def formatAddr (major : BitVec 4) (nnn : Addr) : Word := major ++ nnn

/-- Format `reg_imm`: the major opcode, `X` and `NN`. -/
def formatRegImm (major : BitVec 4) (x : Reg) (nn : Byte) : Word := (major ++ nibble x) ++ nn

/-- Formats `reg_reg` and `draw`: the major opcode, `X`, `Y` and the last nibble. -/
def formatRegReg (major : BitVec 4) (x y : Reg) (last : BitVec 4) : Word := ((major ++ nibble x) ++ nibble y) ++ last

/-- The word of an instruction. -/
def encode : Instr → Word
  | .sys nnn => formatAddr 0x0#4 nnn
  | .cls => 0x00E0#16
  | .ret => 0x00EE#16
  | .jp nnn => formatAddr 0x1#4 nnn
  | .call nnn => formatAddr 0x2#4 nnn
  | .seImm x nn => formatRegImm 0x3#4 x nn
  | .sneImm x nn => formatRegImm 0x4#4 x nn
  | .seReg x y => formatRegReg 0x5#4 x y 0x0#4
  | .ldImm x nn => formatRegImm 0x6#4 x nn
  | .addImm x nn => formatRegImm 0x7#4 x nn
  | .ldReg x y => formatRegReg 0x8#4 x y 0x0#4
  | .orReg x y => formatRegReg 0x8#4 x y 0x1#4
  | .andReg x y => formatRegReg 0x8#4 x y 0x2#4
  | .xorReg x y => formatRegReg 0x8#4 x y 0x3#4
  | .addReg x y => formatRegReg 0x8#4 x y 0x4#4
  | .sub x y => formatRegReg 0x8#4 x y 0x5#4
  | .shr x y => formatRegReg 0x8#4 x y 0x6#4
  | .subn x y => formatRegReg 0x8#4 x y 0x7#4
  | .shl x y => formatRegReg 0x8#4 x y 0xE#4
  | .sneReg x y => formatRegReg 0x9#4 x y 0x0#4
  | .ldI nnn => formatAddr 0xA#4 nnn
  | .jpV0 nnn => formatAddr 0xB#4 nnn
  | .rnd x nn => formatRegImm 0xC#4 x nn
  | .drw x y n => formatRegReg 0xD#4 x y (nibble n)
  | .skp x => formatRegImm 0xE#4 x 0x9E#8
  | .sknp x => formatRegImm 0xE#4 x 0xA1#8
  | .ldVxDt x => formatRegImm 0xF#4 x 0x07#8
  | .ldVxK x => formatRegImm 0xF#4 x 0x0A#8
  | .ldDtVx x => formatRegImm 0xF#4 x 0x15#8
  | .ldStVx x => formatRegImm 0xF#4 x 0x18#8
  | .addIVx x => formatRegImm 0xF#4 x 0x1E#8
  | .ldFVx x => formatRegImm 0xF#4 x 0x29#8
  | .ldBVx x => formatRegImm 0xF#4 x 0x33#8
  | .storeRegs x => formatRegImm 0xF#4 x 0x55#8
  | .loadRegs x => formatRegImm 0xF#4 x 0x65#8

/-- The two bytes of an instruction as memory holds them, the high byte at the lower address (20_memory.md R61). -/
def encodeBytes (i : Instr) : List Byte := [(encode i).extractLsb' 8 8, (encode i).extractLsb' 0 8]

/-! ### Assembler syntax (30_encoding.md R101) -/

/-- A hexadecimal digit, upper case. -/
def hexDigit (d : Fin 16) : String :=
  ["0", "1", "2", "3", "4", "5", "6", "7", "8", "9", "A", "B", "C", "D", "E", "F"].getD d.val "0"

/-- `V0`-`VF`. -/
def regText (r : Reg) : String := "V" ++ hexDigit r

/-- An 8-bit immediate with the `0x` prefix. -/
def immText (nn : Byte) : String := "0x" ++ hexDigit (.ofNat 16 (nn.toNat / 0x10)) ++ hexDigit (.ofNat 16 nn.toNat)

/-- A 12-bit address with the `0x` prefix. -/
def addrText (nnn : Addr) : String :=
  "0x" ++ hexDigit (.ofNat 16 (nnn.toNat / 0x100)) ++ hexDigit (.ofNat 16 (nnn.toNat / 0x10)) ++
    hexDigit (.ofNat 16 nnn.toNat)

/-- The one or two operands of a shift: `Y` is written where it is not the 0 that an omitted operand is encoded as. -/
def shiftText (x y : Reg) : String := if y = 0 then regText x else regText x ++ ", " ++ regText y

/-- The instruction in the assembler syntax of R101, one machine word for each text (R102). -/
def Instr.text (i : Instr) : String :=
  match i with
  | .sys nnn => "SYS " ++ addrText nnn
  | .cls => "CLS"
  | .ret => "RET"
  | .jp nnn => "JP " ++ addrText nnn
  | .call nnn => "CALL " ++ addrText nnn
  | .seImm x nn => "SE " ++ regText x ++ ", " ++ immText nn
  | .sneImm x nn => "SNE " ++ regText x ++ ", " ++ immText nn
  | .seReg x y => "SE " ++ regText x ++ ", " ++ regText y
  | .ldImm x nn => "LD " ++ regText x ++ ", " ++ immText nn
  | .addImm x nn => "ADD " ++ regText x ++ ", " ++ immText nn
  | .ldReg x y => "LD " ++ regText x ++ ", " ++ regText y
  | .orReg x y => "OR " ++ regText x ++ ", " ++ regText y
  | .andReg x y => "AND " ++ regText x ++ ", " ++ regText y
  | .xorReg x y => "XOR " ++ regText x ++ ", " ++ regText y
  | .addReg x y => "ADD " ++ regText x ++ ", " ++ regText y
  | .sub x y => "SUB " ++ regText x ++ ", " ++ regText y
  | .shr x y => "SHR " ++ shiftText x y
  | .subn x y => "SUBN " ++ regText x ++ ", " ++ regText y
  | .shl x y => "SHL " ++ shiftText x y
  | .sneReg x y => "SNE " ++ regText x ++ ", " ++ regText y
  | .ldI nnn => "LD I, " ++ addrText nnn
  | .jpV0 nnn => "JP V0, " ++ addrText nnn
  | .rnd x nn => "RND " ++ regText x ++ ", " ++ immText nn
  | .drw x y n => "DRW " ++ regText x ++ ", " ++ regText y ++ ", 0x" ++ hexDigit n
  | .skp x => "SKP " ++ regText x
  | .sknp x => "SKNP " ++ regText x
  | .ldVxDt x => "LD " ++ regText x ++ ", DT"
  | .ldVxK x => "LD " ++ regText x ++ ", K"
  | .ldDtVx x => "LD DT, " ++ regText x
  | .ldStVx x => "LD ST, " ++ regText x
  | .addIVx x => "ADD I, " ++ regText x
  | .ldFVx x => "LD F, " ++ regText x
  | .ldBVx x => "LD B, " ++ regText x
  | .storeRegs x => "LD [I], " ++ regText x
  | .loadRegs x => "LD " ++ regText x ++ ", [I]"

/-! ### The host's table words -/

/-- The word of a table row's bits: bit 0 is the least significant bit of the one 16-bit word an instruction has, and
the bits above `nbits` are 0. -/
def tableWord (nbits w : Nat) : Word := .ofNat 16 (w % 2 ^ nbits)

/-- The bytes of a table word as the hardware stores them: big-endian (20_memory.md R65). -/
def tableBytes (nbits w : Nat) : List Byte :=
  [(tableWord nbits w).extractLsb' 8 8, (tableWord nbits w).extractLsb' 0 8]

/-- The instruction the decoder reads from a table word, none where it rejects it. -/
def decodeTableWord (nbits w : Nat) : Option Instr :=
  match decode (tableBytes nbits w) with
  | .ok (i, _) => some i
  | .error _ => none

end Sys2Proof
end

