-- ==== Sys2Proof/Config.lean ====
section
/-! DEFINITION. What is fixed for one block and not changed by running it: the parameters of 00_scope.md R7
(`CPU_HZ`, `FONT`), the fixed rate of the timers, and the free byte stream of `RNG`. -/

namespace Sys2Proof

/-- The random byte stream of 00_scope.md R7 and 48_random.md R280, by the session's seed and the position in the
stream. A FREE VALUE (assumption 1): it has no body, so no proof can see what a drawn byte is; that the same seed and
position give the same byte is the spec's "seedable for reproducible testing". -/
opaque Config.rngByte (seed position : Nat) : Byte

/-- `TIMER_HZ`: fixed at 60 and no parameter (00_scope.md R7). -/
def Config.timerHz : Rat := 60

/-- The default of `CPU_HZ`: 600 steps a second (00_scope.md R7). -/
def Config.defaultCpuHz : Rat := 600

/-- The parameters a block is built with (00_scope.md R7). `CPU_HZ` is any positive rate: the spec leaves its range open
(92_eei_decisions.md D24) and divides by it (assumption 2). `FONT` is the 80 font bytes, glyph `k` at `5 * k`. -/
structure Params where
  cpuHz : Rat
  cpuHz_pos : 0 < cpuHz
  font : Vector Byte 80
  deriving DecidableEq, Repr

/-- The argument of `Advance`: "a non-negative rational number of seconds" (60_exceptions.md R320). -/
structure Duration where
  seconds : Rat
  nonneg : 0 ≤ seconds
  deriving DecidableEq, Repr

end Sys2Proof
end

