-- ==== Sys2Proof/Machine/State.lean ====
section
/-! DEFINITION. The state of the block (10_state.md R20, R41) as plain data, the outputs of the transaction in progress
(60_exceptions.md R340, 10_state.md R39), the reasons a step can stop, and the state after reset. -/

namespace Sys2Proof.Machine

/-- The memory `MEM` (20_memory.md R60): the bytes that differ from what they hold after a `Start` with the default
font and an empty program, as pairs of an address and a byte, addresses strictly rising. -/
abbrev Memory := List Host.Cell

/-- The framebuffer `FB` (10_state.md R32): 32 rows, top to bottom, of 64 pixels, left to right. -/
abbrev Framebuffer := Vector (Vector Bool 64) 32

/-- The run state `RUN` (10_state.md R33). -/
inductive RunState where
  | stopped
  | running
  | waiting
  | halted
  deriving DecidableEq, Repr

/-- The names of 60_exceptions.md R301, in the order of their codes. -/
inductive ErrCode where
  | noError
  | programCounterOutOfRange
  | unknownOpcode
  | stackOverflow
  | stackUnderflow
  | memoryOutOfRange
  | romTooLarge
  | invalidKeyCode
  deriving DecidableEq, Repr

/-- A notification to the host (60_exceptions.md R340). -/
inductive Event where
  /-- A copy of the whole framebuffer (R331). -/
  | render (fb : Framebuffer)
  /-- The sound timer was not zero at a tick (R322). -/
  | beep
  /-- A fatal error (R303) or a program too long to load (70_reset_and_hazards.md R382). -/
  | error (code : ErrCode) (info : Word)
  /-- A key code above `0xF` (R302). -/
  | invalidKeyCode (key : Byte)
  deriving DecidableEq, Repr

/-- What one step returns (10_state.md R39). -/
structure StepResult where
  fbMutated : Bool
  awaitingInput : Bool
  error : Option (ErrCode × Word)
  deriving DecidableEq, Repr

/-- The state record of 10_state.md R20, and after it the model's own fields: the session's seed (assumption 1) and the
outputs of the last transaction (assumption 3). -/
structure State where
  /-- `MEM` (20_memory.md R60) -/
  mem : Memory
  /-- `V[0..15]` (R21); `V[0xF]` is also the flag `VF` (R22) -/
  v : Vector Byte 16
  /-- `I`, the index register (R23) -/
  idx : Word
  /-- `PC` (R24) -/
  pc : Word
  /-- `SP`, the number of entries on the call stack (R26) -/
  sp : Byte
  /-- `STACK[0..15]` (R26) -/
  stack : Vector Word 16
  /-- `DT`, the delay timer (R28) -/
  dt : Byte
  /-- `ST`, the sound timer (R29) -/
  st : Byte
  /-- `FB` (R32) -/
  fb : Framebuffer
  /-- `DIRTY` (R34) -/
  dirty : Bool
  /-- `KEY_DOWN[0..15]` (R30) -/
  keyDown : Vector Bool 16
  /-- `KEY_EDGE[0..15]` (R31) -/
  keyEdge : Vector Bool 16
  /-- `RUN` (R33) -/
  run : RunState
  /-- `WAIT_X` (R35) -/
  waitX : Reg
  /-- `ERR_CODE` (R36) -/
  errCode : ErrCode
  /-- `ERR_INFO` (R36) -/
  errInfo : Word
  /-- `T_NOW`, in seconds since `Start` (R37) -/
  tNow : Rat
  /-- `T_STEP`, the due time of the next step (R37) -/
  tStep : Rat
  /-- `T_TICK`, the due time of the next timer tick (R37) -/
  tTick : Rat
  /-- The position in the `RNG` stream (R38) -/
  rngPos : Nat
  /-- The seed of the session's `RNG` stream (70_reset_and_hazards.md R380) -/
  rngSeed : Nat
  /-- The events of the transaction in progress, in order (60_exceptions.md R340) -/
  events : List Event
  /-- The result of the step that the transaction made, if it is a `Cycle` that made one (60_exceptions.md R340) -/
  stepResult : Option StepResult
  deriving DecidableEq, Repr

/-- Why a step can stop. No state that the block can reach stops a step: its errors are next states (R303). -/
inductive Fault where
  /-- Raised by `CALL` and `RET` when `SP` is above 16, which 10_state.md R26 rules out ("takes only the values 0-16"),
  so that the entry they would use does not exist. SAFE: the model stops in a state that no run reaches (assumption 4). -/
  | stackPointerOutOfRange
  deriving DecidableEq, Repr

/-- Why a step has no meaning. -/
inductive Refusal where
  /-- Raised by an arm of `exec` whose instruction has no meaning yet; there is none. SAFE: the model stops. -/
  | notModelled (mnemonic : String)
  deriving DecidableEq, Repr

/-- The state after reset: that after a successful `Start` of the empty program with the default parameters (10_state.md
R41, 70_reset_and_hazards.md R380; assumptions 5 and 6). Memory lists nothing: an unlisted byte is what this `Start`
leaves there. -/
def State.reset : State where
  mem := []
  v := .replicate 16 0
  idx := 0
  pc := 0x200
  sp := 0
  stack := .replicate 16 0
  dt := 0
  st := 0
  fb := .replicate 32 (.replicate 64 false)
  dirty := false
  keyDown := .replicate 16 false
  keyEdge := .replicate 16 false
  run := .running
  waitX := 0
  errCode := .noError
  errInfo := 0
  tNow := 0
  tStep := 1 / Config.defaultCpuHz
  tTick := 1 / Config.timerHz
  rngPos := 0
  rngSeed := 0
  events := []
  stepResult := none

end Sys2Proof.Machine
end

