-- ==== Sys2Proof/Machine/Flags.lean ====
section
/-! DEFINITION. The 8-bit ALU as the function of 41_arithmetic.md R132: the result of each operation and the value it
gives the flag `VF`, if it gives one. Carry and borrow are comparisons of the exact numbers (R126, R127). -/

namespace Sys2Proof.Machine

/-- The number of the flag register `VF` (10_state.md R22). -/
def flagReg : Reg := 0xF

/-- A flag as the byte `VF` then holds: 1 for true, 0 for false (R132). -/
def flagByte (f : Bool) : Byte := if f then 1 else 0

/-- The carry out of an 8-bit sum (R126). -/
def carryOut (a b : Byte) : Bool := 0xFF < a.toNat + b.toNat

/-- The subtraction `a - b` does not borrow (R127). -/
def notBorrow (a b : Byte) : Bool := b.toNat ≤ a.toNat

/-- The operations of R132. -/
inductive AluOp where
  | or
  | and
  | xor
  | add
  | sub
  | shr
  | subn
  | shl
  deriving DecidableEq, Repr

/-- A result, and the flag where the operation writes one (`none` is R132's `keep`). -/
structure AluResult where
  value : Byte
  flag : Option Bool
  deriving DecidableEq, Repr

/-- `alu(op, a, b)` with `a = V[X]` and `b = V[Y]` (R132). -/
def alu (op : AluOp) (a b : Byte) : AluResult :=
  match op with
  | .or => ⟨a ||| b, none⟩
  | .and => ⟨a &&& b, none⟩
  | .xor => ⟨a ^^^ b, none⟩
  | .add => ⟨a + b, some (carryOut a b)⟩
  | .sub => ⟨a - b, some (notBorrow a b)⟩
  | .shr => ⟨a >>> 1, some (a.getLsbD 0)⟩
  | .subn => ⟨b - a, some (notBorrow b a)⟩
  | .shl => ⟨a <<< 1, some (a.getLsbD 7)⟩

end Sys2Proof.Machine
end

