-- ==== Sys2Proof/Machine/Font.lean ====
section
/-! DEFINITION. The default font (70_reset_and_hazards.md R384) and what a byte of memory that is not listed reads as. -/

namespace Sys2Proof.Machine

/-- The glyphs of the digits 0 to 7, five rows each (R384). -/
def glyphsLow : List Byte :=
  [0xF0, 0x90, 0x90, 0x90, 0xF0] ++ [0x20, 0x60, 0x20, 0x20, 0x70] ++ [0xF0, 0x10, 0xF0, 0x80, 0xF0] ++
  [0xF0, 0x10, 0xF0, 0x10, 0xF0] ++ [0x90, 0x90, 0xF0, 0x10, 0x10] ++ [0xF0, 0x80, 0xF0, 0x10, 0xF0] ++
  [0xF0, 0x80, 0xF0, 0x90, 0xF0] ++ [0xF0, 0x10, 0x20, 0x40, 0x40]

/-- The glyphs of the digits 8 to F, five rows each (R384). -/
def glyphsHigh : List Byte :=
  [0xF0, 0x90, 0xF0, 0x90, 0xF0] ++ [0xF0, 0x90, 0xF0, 0x10, 0xF0] ++ [0xF0, 0x90, 0xF0, 0x90, 0x90] ++
  [0xE0, 0x90, 0xE0, 0x90, 0xE0] ++ [0xF0, 0x80, 0x80, 0x80, 0xF0] ++ [0xE0, 0x90, 0x90, 0x90, 0xE0] ++
  [0xF0, 0x80, 0xF0, 0x80, 0xF0] ++ [0xF0, 0x80, 0xF0, 0x80, 0x80]

/-- The 80 bytes of the default font (R384). -/
def defaultFont : List Byte := glyphsLow ++ glyphsHigh

/-- The parameters at their defaults (00_scope.md R7). -/
def defaultParams : Params where
  cpuHz := Config.defaultCpuHz
  cpuHz_pos := by decide +kernel
  font := ⟨defaultFont.toArray, by decide⟩

/-- What an unlisted byte of memory reads as: what `Start` leaves there when no program byte covers it, the default font
at 0x000-0x04F and 0 elsewhere (70_reset_and_hazards.md R381, R384; assumption 7). -/
def blank (a : Nat) : Byte := defaultFont.getD a 0

end Sys2Proof.Machine
end

