-- ==== Sys2Proof/Machine/Operands.lean ====
section
/-! DEFINITION. The operand forms and address computations of the instructions (30_encoding.md R93, 20_memory.md R64):
pure functions of the values read. -/

namespace Sys2Proof.Machine

/-- "All 16-bit address arithmetic (I, PC) wraps modulo 4096" (10_state.md R23, R24). -/
def wrap12 (a : Word) : Word := a % 0x1000#16

/-- An `NNN` operand: `zext_16(NNN)` (30_encoding.md R93). -/
def addrOperand (nnn : Addr) : Word := nnn.setWidth 16

/-- A byte added to an address: `zext_16` of the byte. -/
def zext16 (b : Byte) : Word := b.setWidth 16

/-- The address of the word after the one at `a` (10_state.md R24 item 4; a taken skip adds 2 once more, R159). -/
def nextWord (a : Word) : Word := wrap12 (a + 2)

/-- The target of `JP V0, NNN` (42_control_flow.md R154). -/
def offsetTarget (nnn : Addr) (offset : Byte) : Word := wrap12 (addrOperand nnn + zext16 offset)

/-- The address `I + k` of a data access, "computed without wrap-around" (20_memory.md R64). -/
def dataAddress (idx : Word) (k : Nat) : Nat := idx.toNat + k

/-- The accesses `I + 0 .. I + last` are all inside memory (20_memory.md R64). -/
def rangeOk (idx : Word) (last : Nat) : Bool := dataAddress idx last ≤ 0xFFF

/-- The address of the glyph of the digit in the low nibble (47_bcd_font.md R260). -/
def glyphAddress (digit : Byte) : Word := 5 * zext16 (digit &&& 0x0F)

/-- The hundreds, tens and ones digits (47_bcd_font.md R261). -/
def bcdDigits (b : Byte) : List Byte := [b / 100, b / 10 % 10, b % 10]

/-- The key that a register names, if it names one: only `0x00`-`0x0F` do (44_input.md R203). -/
def keyOf (b : Byte) : Option (Fin 16) := if h : b.toNat < 16 then some ⟨b.toNat, h⟩ else none

end Sys2Proof.Machine
end

