-- ==== Sys2Proof/Machine/Ops.lean ====
section
/-! DEFINITION. The named operations over memory, registers, stack, timers, latch and framebuffer that the meanings are
written with, and the one operation that takes an exception (00_scope.md R12, 60_exceptions.md R303). -/

namespace Sys2Proof.Machine

/-! ### Memory (20_memory.md R60, R63) -/

/-- The byte listed at an address, if there is one. -/
def Memory.find (m : Memory) (a : Nat) : Option Byte :=
  match m with
  | [] => none
  | (k, b) :: rest => if k = a then some b else Memory.find rest a

/-- `MemRead(a, 1)`. -/
def Memory.read (m : Memory) (a : Nat) : Byte := (m.find a).getD (blank a)

/-- The list without an entry at `a`. -/
def Memory.erase (m : Memory) (a : Nat) : Memory :=
  match m with
  | [] => []
  | (k, b) :: rest => if k = a then rest else (k, b) :: Memory.erase rest a

/-- The list with the entry `(a, b)` at its place. -/
def Memory.insert (m : Memory) (a : Nat) (b : Byte) : Memory :=
  match m with
  | [] => [(a, b)]
  | (k, c) :: rest =>
    if a < k then (a, b) :: (k, c) :: rest
    else if a = k then (a, b) :: rest
    else (k, c) :: Memory.insert rest a b

/-- `MemWrite(a, 1, b)`: a byte equal to what an unlisted address reads as is not listed. -/
def Memory.write (m : Memory) (a : Nat) (b : Byte) : Memory :=
  if b = blank a then m.erase a else m.insert a b

/-- Single-byte writes at consecutive increasing addresses (20_memory.md R63). -/
def Memory.writeBytes (m : Memory) (a : Nat) (bytes : List Byte) : Memory :=
  match bytes with
  | [] => m
  | b :: rest => Memory.writeBytes (m.write a b) (a + 1) rest

/-- Single-byte reads at `count` consecutive increasing addresses (20_memory.md R63). -/
def Memory.readBytes (m : Memory) (a : Nat) (count : Nat) : List Byte :=
  match count with
  | 0 => []
  | n + 1 => m.read a :: Memory.readBytes m (a + 1) n

/-- Every address is at least `low` and inside memory, addresses rise strictly, and no entry is what an unlisted address
reads as. -/
def Memory.wfFrom (low : Nat) (m : Memory) : Bool :=
  match m with
  | [] => true
  | (k, b) :: rest => decide (low ≤ k) && decide (k < 0x1000) && b != blank k && Memory.wfFrom (k + 1) rest

/-- The canonical form: equal memories are equal lists. -/
def Memory.wf (m : Memory) : Bool := m.wfFrom 0

/-- What the loader leaves in memory (70_reset_and_hazards.md R381): zeros, the font at 0x000, the program at 0x200.
It starts from the memory that lists nothing, whose bytes outside the font are the loader's zeros. -/
def Memory.load (font : Vector Byte 80) (program : List Byte) : Memory :=
  (Memory.writeBytes [] 0x000 font.toList).writeBytes 0x200 program

/-! ### Codes of the status state (10_state.md R33, 60_exceptions.md R301) -/

/-- `RUN` as its 2-bit code (R33). -/
def RunState.code : RunState → BitVec 2
  | .stopped => 0
  | .running => 1
  | .waiting => 2
  | .halted => 3

/-- `ERR_CODE` as its 4-bit code (R301). -/
def ErrCode.code : ErrCode → BitVec 4
  | .noError => 0
  | .programCounterOutOfRange => 1
  | .unknownOpcode => 2
  | .stackOverflow => 3
  | .stackUnderflow => 4
  | .memoryOutOfRange => 5
  | .romTooLarge => 6
  | .invalidKeyCode => 7

/-! ### Registers, timers and the program counter -/

/-- `V[r]`. -/
def State.reg (s : State) (r : Reg) : Byte := s.v[r.val]

/-- `V[r] <- b`. -/
def State.setReg (s : State) (r : Reg) (b : Byte) : State := { s with v := s.v.set r.val b }

/-- `I <- a`. -/
def State.setIdx (s : State) (a : Word) : State := { s with idx := a }

/-- `PC <- a`. -/
def State.setPc (s : State) (a : Word) : State := { s with pc := a }

/-- `PC <- (PC + 2) mod 0x1000`: the advance of 10_state.md R24 item 4. -/
def State.advancePc (s : State) : State := s.setPc (nextWord s.pc)

/-- A conditional skip, after the advance (42_control_flow.md R159). -/
def State.skipIf (s : State) (c : Bool) : State := if c then s.advancePc else s

/-- `DT <- b`. -/
def State.setDt (s : State) (b : Byte) : State := { s with dt := b }

/-- `ST <- b`. -/
def State.setSt (s : State) (b : Byte) : State := { s with st := b }

/-- `V[X] <- r` and then, where there is a flag, `V[0xF] <- f`: the flag is written last (41_arithmetic.md R132). -/
def State.setAluResult (s : State) (x : Reg) (r : AluResult) : State :=
  match r.flag with
  | none => s.setReg x r.value
  | some f => (s.setReg x r.value).setReg flagReg (flagByte f)

/-- `V[i] <- b` for consecutive registers from `first`; a byte past `V[0xF]` has no register. -/
def State.setRegs (s : State) (first : Nat) (bytes : List Byte) : State :=
  match bytes with
  | [] => s
  | b :: rest => State.setRegs (if h : first < 16 then s.setReg ⟨first, h⟩ b else s) (first + 1) rest

/-- The values of `V[0..x]`. -/
def State.regsUpTo (s : State) (x : Reg) : List Byte := s.v.toList.take (x.val + 1)

/-! ### Memory as the state's -/

/-- `MEM <- m`. -/
def State.setMem (s : State) (m : Memory) : State := { s with mem := m }

/-- The byte of memory at `a`. -/
def State.byteAt (s : State) (a : Nat) : Byte := s.mem.read a

/-- The opcode at `PC` (20_memory.md R61): two byte reads, the high byte at the lower address. -/
def State.opcode (s : State) : Word := opcodeOf (s.byteAt s.pc.toNat) (s.byteAt (s.pc.toNat + 1))

/-! ### Host events (00_scope.md R12) -/

/-- `emit ev`. -/
def State.emit (s : State) (ev : Event) : State := { s with events := s.events ++ [ev] }

/-- The outputs of the earlier transaction are gone when the next one begins (assumption 3). -/
def State.beginTransaction (s : State) : State := { s with events := [], stepResult := none }

/-! ### Taking an exception (00_scope.md R12, 60_exceptions.md R303) -/

/-- `raise E(info)` as seen from the state before the faulting step, to which every write of the step is undone: the
block halts, the error is latched and the host is told. No vector, no saved-state area and no return (R303, R305): the
ways out of `HALTED` are the transactions `Start` and `Stop`. -/
def State.raise (s : State) (code : ErrCode) (info : Word) : State :=
  { s with run := .halted, errCode := code, errInfo := info }.emit (.error code info)

/-- What the execute phase of one instruction comes to. -/
inductive Executed where
  /-- It completes in this state. -/
  | done (s : State)
  /-- It raises this error. -/
  | raised (code : ErrCode) (info : Word)
  /-- It stops with this fault. -/
  | stuck (f : Fault)

/-- The outcome of an instruction that began in `s0`: an error is raised on `s0`, so that all its writes are discarded
(00_scope.md R12). -/
def Executed.outcome (e : Executed) (s0 : State) : Host.Outcome State Fault Refusal :=
  match e with
  | .done s => .next s
  | .raised code info => .next (s0.raise code info)
  | .stuck f => .fault f

/-- Goes on with a completed part of the execute phase. -/
def Executed.andThen (e : Executed) (f : State → Executed) : Executed :=
  match e with
  | .done s => f s
  | .raised code info => .raised code info
  | .stuck r => .stuck r

/-- The range check before the first access of an instruction (20_memory.md R64): go on with `f` where `I + last` is
inside memory. -/
def State.checkRange (s : State) (last : Nat) (f : State → Executed) : Executed :=
  if rangeOk s.idx last then f s else .raised .memoryOutOfRange 0x1000

/-! ### Call stack (10_state.md R26, R27) -/

/-- `STACK[SP] <- v; SP <- SP + 1`. -/
def State.pushEntry (s : State) (h : s.sp.toNat < 16) (v : Word) : State :=
  { s with stack := s.stack.set s.sp.toNat v, sp := s.sp + 1 }

/-- `SP <- SP - 1; PC <- STACK[SP]`. -/
def State.popEntry (s : State) (h : s.sp.toNat - 1 < 16) : State :=
  { s with sp := s.sp - 1, pc := s.stack[s.sp.toNat - 1] }

/-- `Push(v)` in an instruction at `pc0`. -/
def State.push (s : State) (pc0 v : Word) : Executed :=
  if s.sp = 16 then .raised .stackOverflow pc0
  else if h : s.sp.toNat < 16 then .done (s.pushEntry h v)
  else .stuck .stackPointerOutOfRange

/-- `PC <- Pop()` in an instruction at `pc0`. -/
def State.popToPc (s : State) (pc0 : Word) : Executed :=
  if s.sp = 0 then .raised .stackUnderflow pc0
  else if h : s.sp.toNat - 1 < 16 then .done (s.popEntry h)
  else .stuck .stackPointerOutOfRange

/-! ### Input latch (10_state.md R30, R31) -/

/-- `isDown` of the key a register names: false where it names no key (44_input.md R203, R204). -/
def State.keyIsDown (s : State) (b : Byte) : Bool :=
  match keyOf b with
  | some k => s.keyDown[k.val]
  | none => false

/-- `KEY_EDGE <- 0`: the poll marker moves to now (44_input.md R201). -/
def State.clearEdges (s : State) : State := { s with keyEdge := .replicate 16 false }

/-- `WAIT_X <- x; RUN <- WAITING` (44_input.md R201). -/
def State.beginWait (s : State) (x : Reg) : State := { s with waitX := x, run := .waiting }

/-- `RUN <- RUNNING` (44_input.md R202). -/
def State.endWait (s : State) : State := { s with run := .running }

/-- The lowest key with an edge, if there is one (44_input.md R202). -/
def State.lowestEdge (s : State) : Option (Fin 16) := (List.finRange 16).find? (fun k => s.keyEdge[k.val])

/-! ### Framebuffer (10_state.md R32) -/

/-- `FB[y][x]`. -/
def Framebuffer.pixel (fb : Framebuffer) (x : Fin 64) (y : Fin 32) : Bool := fb[y.val][x.val]

/-- `FB[y][x] <- FB[y][x] ^ 1`. -/
def Framebuffer.flip (fb : Framebuffer) (x : Fin 64) (y : Fin 32) : Framebuffer :=
  fb.set y.val (fb[y.val].set x.val (!fb.pixel x y))

/-- All pixels 0. -/
def Framebuffer.clear : Framebuffer := .replicate 32 (.replicate 64 false)

/-- All pixels 0 and `DIRTY` set (45_display.md R220). -/
def State.clearScreen (s : State) : State := { s with fb := Framebuffer.clear, dirty := true }

end Sys2Proof.Machine
end

