-- ==== Sys2Proof/Machine/Arith.lean ====
section
/-! DEFINITION. Arithmetic and logic instructions (41_arithmetic.md). Every meaning is given the state before the
instruction, `PC` at its own address, and makes the PC advance of 10_state.md R24 itself. -/

namespace Sys2Proof.Machine

/-- An ALU instruction: `alu(op, V[X], V[Y])`, then the result and the flag are written (R132). -/
def aluInstr (op : AluOp) (x y : Reg) (s : State) : Host.Outcome State Fault Refusal :=
  .next (s.advancePc.setAluResult x (alu op (s.reg x) (s.reg y)))

/-- `LD Vx, NN` (R120). -/
def execLdImm (x : Reg) (nn : Byte) (s : State) : Host.Outcome State Fault Refusal :=
  .next (s.advancePc.setReg x nn)

/-- `ADD Vx, NN` (R121): no flag. -/
def execAddImm (x : Reg) (nn : Byte) (s : State) : Host.Outcome State Fault Refusal :=
  .next (s.advancePc.setReg x (s.reg x + nn))

/-- `LD Vx, Vy` (R122). -/
def execLdReg (x y : Reg) (s : State) : Host.Outcome State Fault Refusal :=
  .next (s.advancePc.setReg x (s.reg y))

/-- `OR Vx, Vy` (R123). -/
def execOrReg (x y : Reg) (s : State) : Host.Outcome State Fault Refusal := aluInstr .or x y s

/-- `AND Vx, Vy` (R124). -/
def execAndReg (x y : Reg) (s : State) : Host.Outcome State Fault Refusal := aluInstr .and x y s

/-- `XOR Vx, Vy` (R125). -/
def execXorReg (x y : Reg) (s : State) : Host.Outcome State Fault Refusal := aluInstr .xor x y s

/-- `ADD Vx, Vy` (R126). -/
def execAddReg (x y : Reg) (s : State) : Host.Outcome State Fault Refusal := aluInstr .add x y s

/-- `SUB Vx, Vy` (R127). -/
def execSub (x y : Reg) (s : State) : Host.Outcome State Fault Refusal := aluInstr .sub x y s

/-- `SHR Vx` (R128): the operand is `V[X]`, whatever `Y` is. -/
def execShr (x y : Reg) (s : State) : Host.Outcome State Fault Refusal := aluInstr .shr x y s

/-- `SUBN Vx, Vy` (R129). -/
def execSubn (x y : Reg) (s : State) : Host.Outcome State Fault Refusal := aluInstr .subn x y s

/-- `SHL Vx` (R130): the operand is `V[X]`, whatever `Y` is. -/
def execShl (x y : Reg) (s : State) : Host.Outcome State Fault Refusal := aluInstr .shl x y s

end Sys2Proof.Machine
end

