-- ==== Sys2Proof/Machine/BcdFont.lean ====
section
/-! DEFINITION. BCD and font instructions (47_bcd_font.md). -/

namespace Sys2Proof.Machine

/-- `LD F, Vx` (R260). -/
def execLdFVx (x : Reg) (s : State) : Host.Outcome State Fault Refusal :=
  .next (s.advancePc.setIdx (glyphAddress (s.reg x)))

/-- `LD B, Vx` (R261): three digits at `I`, `I + 1`, `I + 2`; `I` is not changed. -/
def execLdBVx (x : Reg) (s : State) : Host.Outcome State Fault Refusal :=
  (s.advancePc.checkRange 2 fun t =>
    .done (t.setMem (t.mem.writeBytes (dataAddress t.idx 0) (bcdDigits (t.reg x))))).outcome s

end Sys2Proof.Machine
end

