-- ==== Sys2Proof/Machine/Control.lean ====
section
/-! DEFINITION. Control-flow instructions (42_control_flow.md). -/

namespace Sys2Proof.Machine

/-- A skip instruction: the advance, and one more word where the condition holds (R159). -/
def skipInstr (c : Bool) (s : State) : Host.Outcome State Fault Refusal := .next (s.advancePc.skipIf c)

/-- `SYS NNN` (R150): "unimplemented", so it always raises `UnknownOpcode` with its own word. -/
def execSys (nnn : Addr) (s : State) : Host.Outcome State Fault Refusal :=
  (Executed.raised .unknownOpcode (addrOperand nnn)).outcome s

/-- `RET` (R151). -/
def execRet (s : State) : Host.Outcome State Fault Refusal := (s.advancePc.popToPc s.pc).outcome s

/-- `JP NNN` (R152). -/
def execJp (nnn : Addr) (s : State) : Host.Outcome State Fault Refusal := .next (s.advancePc.setPc (addrOperand nnn))

/-- `CALL NNN` (R153): what is pushed is the advanced `PC`. -/
def execCall (nnn : Addr) (s : State) : Host.Outcome State Fault Refusal :=
  ((s.advancePc.push s.pc s.advancePc.pc).andThen fun t => .done (t.setPc (addrOperand nnn))).outcome s

/-- `JP V0, NNN` (R154): always register 0. -/
def execJpV0 (nnn : Addr) (s : State) : Host.Outcome State Fault Refusal :=
  .next (s.advancePc.setPc (offsetTarget nnn (s.reg 0)))

/-- `SE Vx, NN` (R155). -/
def execSeImm (x : Reg) (nn : Byte) (s : State) : Host.Outcome State Fault Refusal := skipInstr (s.reg x == nn) s

/-- `SNE Vx, NN` (R156). -/
def execSneImm (x : Reg) (nn : Byte) (s : State) : Host.Outcome State Fault Refusal := skipInstr (s.reg x != nn) s

/-- `SE Vx, Vy` (R157). -/
def execSeReg (x y : Reg) (s : State) : Host.Outcome State Fault Refusal := skipInstr (s.reg x == s.reg y) s

/-- `SNE Vx, Vy` (R158). -/
def execSneReg (x y : Reg) (s : State) : Host.Outcome State Fault Refusal := skipInstr (s.reg x != s.reg y) s

end Sys2Proof.Machine
end

