-- ==== Sys2Proof/Machine/Display.lean ====
section
/-! DEFINITION. Display instructions (45_display.md). -/

namespace Sys2Proof.Machine

/-- The framebuffer while a sprite is drawn, and whether a set pixel was unset and any pixel changed so far (R221). -/
structure Canvas where
  fb : Framebuffer
  collision : Bool
  changed : Bool
  deriving DecidableEq, Repr

/-- One set sprite bit: the pixel at column `x` and row `y`, both wrapped, is inverted. -/
def Canvas.flip (c : Canvas) (x y : Nat) : Canvas where
  fb := c.fb.flip (.ofNat 64 x) (.ofNat 32 y)
  collision := c.collision || c.fb.pixel (.ofNat 64 x) (.ofNat 32 y)
  changed := true

/-- Bit `7 - c` of a sprite row is its column `c`. -/
def spriteBit (row : Byte) (c : Nat) : Bool := row.getLsbD (7 - c)

/-- The columns `c .. c + count - 1` of a sprite row whose column 0 is at `x`, drawn in row `y`. -/
def Canvas.drawBits (canvas : Canvas) (row : Byte) (x y c : Nat) (count : Nat) : Canvas :=
  match count with
  | 0 => canvas
  | n + 1 => Canvas.drawBits (if spriteBit row c then canvas.flip (x + c) y else canvas) row x y (c + 1) n

/-- The rows of a sprite, from row `y` down. -/
def Canvas.drawRows (canvas : Canvas) (x y : Nat) (rows : List Byte) : Canvas :=
  match rows with
  | [] => canvas
  | row :: rest => Canvas.drawRows (canvas.drawBits row x y 0 8) x (y + 1) rest

/-- The framebuffer, the flag and `DIRTY` after a draw (R221): `VF` is always written, last; `DIRTY` is set when a pixel
changed. -/
def State.setCanvas (s : State) (c : Canvas) : State :=
  { s with fb := c.fb, dirty := s.dirty || c.changed }.setReg flagReg (flagByte c.collision)

/-- The draw of R221 after its range check: `n` bytes from `I`, at the coordinates `V[X]`, `V[Y]`. -/
def State.draw (s : State) (x y : Reg) (n : Nat) : State :=
  s.setCanvas
    (Canvas.drawRows ⟨s.fb, false, false⟩ (s.reg x).toNat (s.reg y).toNat (s.mem.readBytes (dataAddress s.idx 0) n))

/-- `CLS` (R220): `DIRTY` is set whatever the framebuffer held. -/
def execCls (s : State) : Host.Outcome State Fault Refusal :=
  .next s.advancePc.clearScreen

/-- `DRW Vx, Vy, N` (R221): with `N = 0` nothing is read, so there is no range to check. -/
def execDrw (x y : Reg) (n : Fin 16) (s : State) : Host.Outcome State Fault Refusal :=
  (if n = 0 then Executed.done (s.advancePc.draw x y 0)
   else s.advancePc.checkRange (n.val - 1) fun t => .done (t.draw x y n.val)).outcome s

end Sys2Proof.Machine
end

