-- ==== Sys2Proof/Machine/IndexMem.lean ====
section
/-! DEFINITION. Index register and memory instructions (43_memory_ops.md). -/

namespace Sys2Proof.Machine

/-- `LD I, NNN` (R180). -/
def execLdI (nnn : Addr) (s : State) : Host.Outcome State Fault Refusal := .next (s.advancePc.setIdx (addrOperand nnn))

/-- `ADD I, Vx` (R181): no flag. -/
def execAddIVx (x : Reg) (s : State) : Host.Outcome State Fault Refusal :=
  .next (s.advancePc.setIdx (wrap12 (s.idx + zext16 (s.reg x))))

/-- `LD [I], Vx` (R182): `V[0..X]` at `I` and up; `I` is not changed. -/
def execStoreRegs (x : Reg) (s : State) : Host.Outcome State Fault Refusal :=
  (s.advancePc.checkRange x.val fun t =>
    .done (t.setMem (t.mem.writeBytes (dataAddress t.idx 0) (t.regsUpTo x)))).outcome s

/-- `LD Vx, [I]` (R183): `V[0..X]` from `I` and up; `I` is not changed. -/
def execLoadRegs (x : Reg) (s : State) : Host.Outcome State Fault Refusal :=
  (s.advancePc.checkRange x.val fun t =>
    .done (t.setRegs 0 (t.mem.readBytes (dataAddress t.idx 0) (x.val + 1)))).outcome s

end Sys2Proof.Machine
end

