-- ==== Sys2Proof/Machine/Input.lean ====
section
/-! DEFINITION. Input latch and key instructions (44_input.md). -/

namespace Sys2Proof.Machine

/-- `LD Vx, K` (R201) begins a wait: the poll marker moves to now, the destination is recorded, and `PC` goes back to
the instruction's own address. -/
def execLdVxK (x : Reg) (s : State) : Host.Outcome State Fault Refusal :=
  .next ((s.advancePc.clearEdges.beginWait x).setPc s.pc)

/-- The waiting poll (R202): with no edge nothing changes, else the lowest edged key ends the wait. -/
def State.pollKeys (s : State) : State :=
  match s.lowestEdge with
  | none => s
  | some k => (s.setReg s.waitX (.ofNat 8 k.val)).clearEdges.advancePc.endWait

/-- `SKP Vx` (R203). -/
def execSkp (x : Reg) (s : State) : Host.Outcome State Fault Refusal := skipInstr (s.keyIsDown (s.reg x)) s

/-- `SKNP Vx` (R204). -/
def execSknp (x : Reg) (s : State) : Host.Outcome State Fault Refusal := skipInstr (!s.keyIsDown (s.reg x)) s

end Sys2Proof.Machine
end

