-- ==== Sys2Proof/Machine/Random.lean ====
section
/-! DEFINITION. The random instruction (48_random.md). -/

namespace Sys2Proof.Machine

/-- The next byte of the session's stream (R280): a free value. -/
def State.randomByte (s : State) : Byte := Config.rngByte s.rngSeed s.rngPos

/-- The stream advances by one byte (R280). -/
def State.advanceRng (s : State) : State := { s with rngPos := s.rngPos + 1 }

/-- `RND Vx, NN` (R280): one byte is drawn whatever the mask. -/
def execRnd (x : Reg) (nn : Byte) (s : State) : Host.Outcome State Fault Refusal :=
  .next (s.advancePc.advanceRng.setReg x (s.randomByte &&& nn))

end Sys2Proof.Machine
end

