-- ==== Sys2Proof/Machine/Timer.lean ====
section
/-! DEFINITION. Timer instructions (46_timer.md) and the 60 Hz timer tick (60_exceptions.md R321). -/

namespace Sys2Proof.Machine

/-- `LD Vx, DT` (R240). -/
def execLdVxDt (x : Reg) (s : State) : Host.Outcome State Fault Refusal := .next (s.advancePc.setReg x s.dt)

/-- `LD DT, Vx` (R241). -/
def execLdDtVx (x : Reg) (s : State) : Host.Outcome State Fault Refusal := .next (s.advancePc.setDt (s.reg x))

/-- `LD ST, Vx` (R242). -/
def execLdStVx (x : Reg) (s : State) : Host.Outcome State Fault Refusal := .next (s.advancePc.setSt (s.reg x))

/-- A timer decremented toward zero, never below it (10_state.md R28). -/
def countDown (b : Byte) : Byte := if b = 0 then 0 else b - 1

/-- The `Beep` of a tick: `ST` is tested before the decrement (60_exceptions.md R322). -/
def State.beepIfSounding (s : State) : State := if s.st = 0 then s else s.emit .beep

/-- The tick of 60_exceptions.md R321, in run states `RUNNING` and `WAITING`. -/
def State.timerTick (s : State) : State := (s.beepIfSounding.setDt (countDown s.dt)).setSt (countDown s.st)

/-- The output `SOUND_ON` (60_exceptions.md R323). -/
def State.soundOn (s : State) : Bool := s.st != 0

end Sys2Proof.Machine
end

