-- ==== Sys2Proof/Machine/Cycle.lean ====
section
/-! DEFINITION. One step of the block (10_state.md R24, 44_input.md R202) and the transaction `Cycle` (60_exceptions.md
R324): fetch, decode, execute, and the end-of-step render check. -/

namespace Sys2Proof.Machine

/-- Applies a function to the next state of an outcome; a stop stays as it is. -/
def mapNext (o : Host.Outcome State Fault Refusal) (f : State → State) : Host.Outcome State Fault Refusal :=
  match o with
  | .next s => .next (f s)
  | .fault r => .fault r
  | .refused r => .refused r

/-- Goes on from the next state of an outcome; a stop stays as it is. -/
def bindNext (o : Host.Outcome State Fault Refusal) (f : State → Host.Outcome State Fault Refusal) :
    Host.Outcome State Fault Refusal :=
  match o with
  | .next s => f s
  | .fault r => .fault r
  | .refused r => .refused r

/-- Decode and execute an opcode fetched at `PC` (30_encoding.md R99, R100). -/
def executeWord (op : Word) (s : State) : Host.Outcome State Fault Refusal :=
  match decodeWord op with
  | .ok i => exec i s
  | .error _ => (Executed.raised .unknownOpcode op).outcome s

/-- The step of run state `RUNNING`, items 1 to 5 of 10_state.md R24. -/
def instructionStep (s : State) : Host.Outcome State Fault Refusal :=
  if 0xFFE < s.pc.toNat then (Executed.raised .programCounterOutOfRange s.pc).outcome s
  else executeWord s.opcode s

/-- The render notification (60_exceptions.md R331): sent once, with the framebuffer as it stands, where `DIRTY` is set;
a step that raised sends none. -/
def State.renderIfDirty (s : State) : State :=
  if s.dirty && s.run != .halted then { s.emit (.render s.fb) with dirty := false } else s

/-- The result of a step that ends in this state, before the render check (10_state.md R39). -/
def State.resultOfStep (s : State) : StepResult :=
  if s.run = .halted then ⟨false, false, some (s.errCode, s.errInfo)⟩ else ⟨s.dirty, s.run == .waiting, none⟩

/-- The end of a step (10_state.md R24 item 6, R39). -/
def State.endStep (s : State) : State := { s.renderIfDirty with stepResult := some s.resultOfStep }

/-- No step and no tick runs in `STOPPED` and `HALTED` (60_exceptions.md R304, R344). -/
def State.idle (s : State) : Bool := s.run == .stopped || s.run == .halted

/-- `Step()`: fetches and executes in `RUNNING`, polls the latch in `WAITING`. -/
def stepOnce (s : State) : Host.Outcome State Fault Refusal :=
  match s.run with
  | .running => mapNext (instructionStep s) State.endStep
  | .waiting => .next s.pollKeys.endStep
  | .stopped => .next s
  | .halted => .next s

/-- The transaction `Cycle()` (60_exceptions.md R324). -/
def cycle (s : State) : Host.Outcome State Fault Refusal := stepOnce s.beginTransaction

end Sys2Proof.Machine
end

