-- ==== Sys2Proof/Machine/Step.lean ====
section
/-! DEFINITION. The step of the machine: one `Cycle` transaction of the host. -/

namespace Sys2Proof.Machine

/-- One step: the transaction `Cycle()` (60_exceptions.md R324). -/
def step (s : State) : Host.Outcome State Fault Refusal := cycle s

/-- The state in which the next step fetches the table word: its two bytes stand at `PC`, the block is in run state
`RUNNING` (else no step fetches), and where `PC` is an address no fetch may start at (10_state.md R24) it is the entry
point. It stands for the load that the transaction `Start` makes (assumption 5). -/
def State.withFetchWord (s : State) (nbits w : Nat) : State :=
  let pc : Word := if 0xFFE < s.pc.toNat then 0x200 else s.pc
  { s with run := .running, pc := pc, mem := s.mem.writeBytes pc.toNat (tableBytes nbits w) }

end Sys2Proof.Machine
end

