-- ==== Sys2Proof/Machine/Transactions.lean ====
section
/-! DEFINITION. The state at power-on, and the host's transactions (60_exceptions.md R340): `Start`, `Stop`, `Advance`, `Cycle`, `Tick`, `KeyDown`
and `KeyUp`, each a function of the state, and the runs they make one after another. -/

namespace Sys2Proof.Machine

/-! ### Power-on -/

/-- The state at power-on, before the first `Start`: `RUN = STOPPED`, nothing yet sent to the host, and every other piece
of state unspecified (10_state.md R33, 70_reset_and_hazards.md R383), so that a claim about power-on is one for every value
of `unspecified` (assumption 13). -/
def State.powerOn (unspecified : State) : State :=
  { unspecified with run := .stopped, events := [], stepResult := none }

/-! ### `Start`, `Stop`, ticks and keys -/

/-- The longest program that loads (00_scope.md R8). -/
def maxRom : Nat := 4096 - 0x200

/-- The state after a successful `Start` (10_state.md R41, 70_reset_and_hazards.md R380, R381). -/
def freshSession (p : Params) (program : List Byte) (seed : Nat) : State :=
  { State.reset with
    mem := Memory.load p.font program
    tStep := 1 / p.cpuHz
    rngSeed := seed }

/-- `Start(program)`, with the seed of the session's `RNG` stream (70_reset_and_hazards.md R380-R382). -/
def start (p : Params) (program : List Byte) (seed : Nat) (s : State) : State :=
  if maxRom < program.length then s.beginTransaction.raise .romTooLarge 0 else freshSession p program seed

/-- `Stop()` (60_exceptions.md R344). -/
def stop (s : State) : State := { s.beginTransaction with run := .stopped }

/-- `Tick()` (60_exceptions.md R324). -/
def tick (s : State) : State := if s.idle then s.beginTransaction else s.beginTransaction.timerTick

/-- `KeyDown(k)` (44_input.md R200); a code that names no key is reported and changes nothing. -/
def keyDown (key : Byte) (s : State) : State :=
  match keyOf key with
  | some k =>
    { s.beginTransaction with
      keyEdge := s.keyEdge.set k.val (s.keyEdge[k.val] || !s.keyDown[k.val])
      keyDown := s.keyDown.set k.val true }
  | none => s.beginTransaction.emit (.invalidKeyCode key)

/-- `KeyUp(k)` (44_input.md R200). -/
def keyUp (key : Byte) (s : State) : State :=
  match keyOf key with
  | some k => { s.beginTransaction with keyDown := s.keyDown.set k.val false }
  | none => s.beginTransaction.emit (.invalidKeyCode key)

/-! ### The scheduler (60_exceptions.md R320) -/

/-- The due step of `Advance`: `T_NOW <- T_STEP; Step(); T_STEP <- T_STEP + 1/CPU_HZ`. -/
def dueStep (p : Params) (s : State) : Host.Outcome State Fault Refusal :=
  mapNext (stepOnce { s with tNow := s.tStep }) fun t => { t with tStep := t.tStep + 1 / p.cpuHz }

/-- The due tick of `Advance`: `T_NOW <- T_TICK; Tick(); T_TICK <- T_TICK + 1/60`. -/
def dueTick (s : State) : State :=
  { { s with tNow := s.tTick }.timerTick with tTick := s.tTick + 1 / Config.timerHz }

/-- How many events at `due`, `due + 1/rate`, ... are due by `target`. -/
def eventsDue (target due rate : Rat) : Nat := (((target - due) * rate).floor + 1).toNat

/-- The loop of R320, at most `fuel` times around: the due steps and ticks in the order of their due times, a step before
a tick that is due with it. -/
def advanceLoop (p : Params) (target : Rat) (fuel : Nat) (s : State) : Host.Outcome State Fault Refusal :=
  match fuel with
  | 0 => .next s
  | n + 1 =>
    if s.idle then .next s
    else if target < s.tStep && target < s.tTick then .next s
    else if s.tStep ≤ s.tTick then bindNext (dueStep p s) (advanceLoop p target n)
    else advanceLoop p target n (dueTick s)

/-- The end of `Advance`: `if RUN not in {STOPPED, HALTED} then T_NOW <- target`. It returns events and no step result. -/
def endAdvance (target : Rat) (s : State) : State :=
  if s.idle then { s with stepResult := none } else { s with tNow := target, stepResult := none }

/-- `Advance(dt)` (R320). The fuel is the number of steps and ticks due by the target, which is as often as the loop
can go around. -/
def advance (p : Params) (dt : Duration) (s : State) : Host.Outcome State Fault Refusal :=
  if s.idle then .next s.beginTransaction
  else
    mapNext
      (advanceLoop p (s.tNow + dt.seconds)
        (eventsDue (s.tNow + dt.seconds) s.tStep p.cpuHz + eventsDue (s.tNow + dt.seconds) s.tTick Config.timerHz)
        s.beginTransaction)
      (endAdvance (s.tNow + dt.seconds))

/-! ### Transactions and runs -/

/-- A host transaction (60_exceptions.md R340). Transactions are atomic and serialised (R341). -/
inductive Transaction where
  | start (program : List Byte) (seed : Nat)
  | stop
  | advance (dt : Duration)
  | cycle
  | tick
  | keyDown (key : Byte)
  | keyUp (key : Byte)
  deriving DecidableEq, Repr

/-- What a transaction does to the block. -/
def transact (p : Params) (t : Transaction) (s : State) : Host.Outcome State Fault Refusal :=
  match t with
  | .start program seed => .next (start p program seed s)
  | .stop => .next (stop s)
  | .advance dt => advance p dt s
  | .cycle => cycle s
  | .tick => .next (tick s)
  | .keyDown key => .next (keyDown key s)
  | .keyUp key => .next (keyUp key s)

/-- Transactions one after another. -/
def transactAll (p : Params) (ts : List Transaction) (s : State) : Host.Outcome State Fault Refusal :=
  match ts with
  | [] => .next s
  | t :: rest => bindNext (transact p t s) (transactAll p rest)

end Sys2Proof.Machine
end

