-- ==== Sys2Proof/Safety.lean ====
section
/-! DEFINITION. What the claims are said in: the invariant of a block in a session, and what a step leaves unchanged. -/

namespace Sys2Proof

open Machine

/-- What holds of the block from a successful `Start` on, whatever the host and the program do (10_state.md R23, R25, R26,
R34, R36, R37; 20_memory.md R60). -/
structure SessionInv (s : State) : Prop where
  /-- Memory is in its canonical form, all of it inside 0x000-0xFFF (R60). -/
  memory : s.mem.wf = true
  /-- `I[15:12] = 0` (R23). -/
  index : s.idx.toNat < 0x1000
  /-- `PC` holds a value in 0x000-0xFFF (R25). -/
  counter : s.pc.toNat < 0x1000
  /-- `SP` takes only the values 0-16 (R26). -/
  depth : s.sp.toNat ≤ 16
  /-- The stack holds only values in 0x000-0xFFF (R25). -/
  entries : ∀ j : Fin 16, s.stack[j.val].toNat < 0x1000
  /-- `DIRTY = 0` between transactions (R34). -/
  clean : s.dirty = false
  /-- No error is latched while a program runs (R36). -/
  noError : s.run = .running ∨ s.run = .waiting → s.errCode = .noError ∧ s.errInfo = 0
  /-- A halted block has latched a fatal error (R33, R36). -/
  latched : s.run = .halted → s.errCode ≠ .noError
  /-- A key code misused by the host is never latched (60_exceptions.md R302). -/
  fatalOnly : s.errCode ≠ .invalidKeyCode
  /-- Times are not negative (R37). -/
  timeNonneg : 0 ≤ s.tNow
  /-- No step is overdue between transactions (60_exceptions.md R320). -/
  stepDue : s.tNow ≤ s.tStep
  /-- No tick is overdue between transactions (60_exceptions.md R320). -/
  tickDue : s.tNow ≤ s.tTick

/-- The kinds of state the spec gives the block (10_state.md R20), and the outputs of the last transaction. -/
inductive Part where
  | memory
  | registers
  | index
  | counter
  | callStack
  | delayTimer
  | soundTimer
  | framebuffer
  | dirty
  | keyDown
  | keyEdge
  | run
  | waitRegister
  | errorLatch
  | times
  | randomStream
  | events
  | stepResult
  deriving DecidableEq, Repr

/-- A part of the state is the same in two states: memory by the read of every byte, registers by the read of each. -/
def Part.same (p : Part) (s t : State) : Prop :=
  match p with
  | .memory => ∀ a : Nat, t.byteAt a = s.byteAt a
  | .registers => ∀ r : Reg, t.reg r = s.reg r
  | .index => t.idx = s.idx
  | .counter => t.pc = s.pc
  | .callStack => t.sp = s.sp ∧ t.stack = s.stack
  | .delayTimer => t.dt = s.dt
  | .soundTimer => t.st = s.st
  | .framebuffer => t.fb = s.fb
  | .dirty => t.dirty = s.dirty
  | .keyDown => t.keyDown = s.keyDown
  | .keyEdge => t.keyEdge = s.keyEdge
  | .run => t.run = s.run
  | .waitRegister => t.waitX = s.waitX
  | .errorLatch => t.errCode = s.errCode ∧ t.errInfo = s.errInfo
  | .times => t.tNow = s.tNow ∧ t.tStep = s.tStep ∧ t.tTick = s.tTick
  | .randomStream => t.rngPos = s.rngPos ∧ t.rngSeed = s.rngSeed
  | .events => t.events = s.events
  | .stepResult => t.stepResult = s.stepResult

/-- Every part of the state but those listed is the same in both. -/
def KeepsAllBut (changed : List Part) (s t : State) : Prop := ∀ p : Part, p ∉ changed → p.same s t

/-- `t` is what raising an error on `s` leaves (60_exceptions.md R303): the block is halted, the error is latched and the
host is told, and all else, `PC` with it, is as it was. -/
def RaisesFrom (s : State) (code : ErrCode) (info : Word) (t : State) : Prop :=
  t.run = .halted ∧ t.errCode = code ∧ t.errInfo = info ∧ t.events = s.events ++ [.error code info] ∧
    KeepsAllBut [.run, .errorLatch, .events] s t

/-- Every register but those listed is the same in both. -/
def KeepsRegsBut (written : List Reg) (s t : State) : Prop := ∀ r : Reg, r ∉ written → t.reg r = s.reg r

/-- Pixel `(px, py)` is under a set bit of the sprite of `n` rows at `I`, drawn at `(V[x], V[y])` with wrap on both axes;
bit `7 - c` of row `r` is column `c` (45_display.md R221). -/
def SpriteCovers (s : State) (x y : Reg) (n : Nat) (px : Fin 64) (py : Fin 32) : Prop :=
  ∃ r c : Nat, r < n ∧ c < 8 ∧ ((s.reg x).toNat + c) % 64 = px.val ∧ ((s.reg y).toNat + r) % 32 = py.val ∧
    (s.byteAt (dataAddress s.idx r)).getLsbD (7 - c) = true

/-- A sprite of `n` rows at `I` is read from inside memory, or has no rows (45_display.md R221). -/
def SpriteInRange (s : State) (n : Fin 16) : Prop := n.val = 0 ∨ dataAddress s.idx (n.val - 1) ≤ 0xFFF

/-- Instructions executed one after another. -/
def execAll (is : List Instr) (s : State) : Host.Outcome State Fault Refusal :=
  match is with
  | [] => .next s
  | i :: rest => bindNext (exec i s) (execAll rest)

/-- What falls due in `Advance` (60_exceptions.md R320). -/
inductive DueEvent where
  | step
  | tick
  deriving DecidableEq, Repr

/-- Due steps and ticks taken one after another, each at its due time. -/
def runDue (p : Params) (es : List DueEvent) (s : State) : Host.Outcome State Fault Refusal :=
  match es with
  | [] => .next s
  | .step :: rest => bindNext (dueStep p s) (runDue p rest)
  | .tick :: rest => runDue p rest (dueTick s)

/-- The address of the next word, `(a + 2) mod 0x1000` (10_state.md R24 item 4). -/
def after (a : Word) : Nat := (a.toNat + 2) % 0x1000

end Sys2Proof
end

