-- ==== Sys2Proof/Certificates/Slice0/Obligations.lean ====
section
/-! DEFINITION. The statements for the provers. `exec i s` is given the state before the instruction, `PC` at its own
address. Every statement holds whatever the bytes of the `RNG` stream are. Where the rule that a statement follows is one
the spec marks as its own decision or derivation, the docstring names it. -/

open Sys2Proof Sys2Proof.Machine

/-! ### Encoding (30_encoding.md) -/

/-- Decoding the two bytes of any well-formed instruction gives it back, with every operand, and leaves the bytes after
it (30_encoding.md sections 1 to 4). -/
def Obligations.DecodeUndoesEncode : Prop :=
  ∀ (i : Instr) (rest : List Byte), i.wf = true → decode (encodeBytes i ++ rest) = .ok (i, rest)

/-- A word that decodes to an instruction is that instruction's word: no bit of it is dropped, the ignored `Y` of `SHR`
and `SHL` among them (30_encoding.md sections 3 and 4). -/
def Obligations.EncodeUndoesDecode : Prop :=
  ∀ (op : Word) (i : Instr), decodeWord op = .ok i → i.wf = true ∧ encode i = op

/-- R90: every instruction is 2 bytes, a decoder consumes 2 bytes, the first of them the high byte, and every word either
decodes or is rejected as an illegal word under its own value. -/
def Obligations.EveryInstructionIsTwoBytes : Prop :=
  (∀ i : Instr, (encodeBytes i).length = 2) ∧
  (∀ (high low : Byte) (rest : List Byte),
    (∃ i : Instr, decodeWord (.ofNat 16 (high.toNat * 0x100 + low.toNat)) = .ok i ∧
      decode (high :: low :: rest) = .ok (i, rest)) ∨
    (∃ f : IllegalForm, decode (high :: low :: rest) =
      .error (.illegal f (.ofNat 16 (high.toNat * 0x100 + low.toNat)))))

/-- The words that decode to no instruction are exactly those that 30_encoding.md section 3 lists as illegal. The strict
check of the minor fields is the spec's own decision D8. -/
def Obligations.IllegalWordsAreTheListedOnes : Prop :=
  ∀ op : Word, (∃ r, decodeWord op = .error r) ↔
    (op.toNat / 0x1000 = 0x5 ∧ op.toNat % 0x10 ≠ 0) ∨
    (op.toNat / 0x1000 = 0x8 ∧ op.toNat % 0x10 ∈ [0x8, 0x9, 0xA, 0xB, 0xC, 0xD, 0xF]) ∨
    (op.toNat / 0x1000 = 0x9 ∧ op.toNat % 0x10 ≠ 0) ∨
    (op.toNat / 0x1000 = 0xE ∧ op.toNat % 0x100 ∉ [0x9E, 0xA1]) ∨
    (op.toNat / 0x1000 = 0xF ∧ op.toNat % 0x100 ∉ [0x07, 0x0A, 0x15, 0x18, 0x1E, 0x29, 0x33, 0x55, 0x65])

/-- Words written out in the spec decode to the forms it names for them: `6005`, `8014`, `00E0` (30_encoding.md section 1,
41 section 1), and at least one of each other major opcode and of each family from the examples of the family files. -/
def Obligations.SpecWordsDecode : Prop :=
  decodeWord 0x6005 = .ok (.ldImm 0 0x05) ∧ decodeWord 0x8014 = .ok (.addReg 0 1) ∧ decodeWord 0x00E0 = .ok .cls ∧
  decodeWord 0x00EE = .ok .ret ∧ decodeWord 0x0123 = .ok (.sys 0x123) ∧ decodeWord 0x1208 = .ok (.jp 0x208) ∧
  decodeWord 0x2210 = .ok (.call 0x210) ∧ decodeWord 0x3000 = .ok (.seImm 0 0x00) ∧ decodeWord 0x4105 = .ok (.sneImm 1 0x05) ∧
  decodeWord 0x5230 = .ok (.seReg 2 3) ∧ decodeWord 0x7201 = .ok (.addImm 2 0x01) ∧
  decodeWord 0x9230 = .ok (.sneReg 2 3) ∧ decodeWord 0xA300 = .ok (.ldI 0x300) ∧
  decodeWord 0xB300 = .ok (.jpV0 0x300) ∧ decodeWord 0xC30F = .ok (.rnd 3 0x0F) ∧
  decodeWord 0xD015 = .ok (.drw 0 1 5) ∧ decodeWord 0xE59E = .ok (.skp 5) ∧ decodeWord 0xF30A = .ok (.ldVxK 3) ∧
  decodeWord 0xF307 = .ok (.ldVxDt 3) ∧ decodeWord 0xF118 = .ok (.ldStVx 1) ∧ decodeWord 0xF21E = .ok (.addIVx 2) ∧
  decodeWord 0xFA29 = .ok (.ldFVx 0xA) ∧ decodeWord 0xF033 = .ok (.ldBVx 0) ∧ decodeWord 0xF055 = .ok (.storeRegs 0) ∧
  decodeWord 0xF265 = .ok (.loadRegs 2)

/-! ### The step (10_state.md R24, 20_memory.md R61, 30_encoding.md R100) -/

/-- R61, R100: in run state `RUNNING` a step checks `PC`, fetches the two bytes there with the lower address as the high
byte, decodes the word and runs the instruction it decodes to, ending the step as R24 item 6 says; a word that decodes to
none raises `UnknownOpcode`. -/
def Obligations.StepRunsDecodedInstruction : Prop :=
  ∀ s : State, s.run = .running →
    (0xFFE < s.pc.toNat →
      step s = .next (s.beginTransaction.raise .programCounterOutOfRange s.pc).endStep) ∧
    (s.pc.toNat ≤ 0xFFE → ∀ op : Word,
      op.toNat = (s.byteAt s.pc.toNat).toNat * 0x100 + (s.byteAt (s.pc.toNat + 1)).toNat →
      (∀ i : Instr, decodeWord op = .ok i → step s = mapNext (exec i s.beginTransaction) State.endStep) ∧
      (∀ r, decodeWord op = .error r → step s = .next (s.beginTransaction.raise .unknownOpcode op).endStep))

/-! ### Arithmetic and logic (41_arithmetic.md) -/

/-- R120, R121, R122: `6XNN` writes `NN`, `7XNN` the sum with `NN` modulo 256 with no flag, and `8XY0` a copy of `V[Y]` to
`V[X]`; nothing else changes but `PC`. -/
def Obligations.LoadsAndAddImmediateWriteVx : Prop :=
  ∀ (x y : Reg) (nn : Byte) (s : State),
    (decodeWord (.ofNat 16 (0x6000 + x.val * 0x100 + nn.toNat)) = .ok (.ldImm x nn) ∧
      ∃ t, exec (.ldImm x nn) s = .next t ∧ t.reg x = nn ∧ KeepsRegsBut [x] s t ∧ t.pc.toNat = after s.pc ∧
        KeepsAllBut [.registers, .counter] s t) ∧
    (decodeWord (.ofNat 16 (0x7000 + x.val * 0x100 + nn.toNat)) = .ok (.addImm x nn) ∧
      ∃ t, exec (.addImm x nn) s = .next t ∧ (t.reg x).toNat = ((s.reg x).toNat + nn.toNat) % 256 ∧
        KeepsRegsBut [x] s t ∧ t.pc.toNat = after s.pc ∧ KeepsAllBut [.registers, .counter] s t) ∧
    (decodeWord (.ofNat 16 (0x8000 + x.val * 0x100 + y.val * 0x10)) = .ok (.ldReg x y) ∧
      ∃ t, exec (.ldReg x y) s = .next t ∧ t.reg x = s.reg y ∧ KeepsRegsBut [x] s t ∧ t.pc.toNat = after s.pc ∧
        KeepsAllBut [.registers, .counter] s t)

/-- `8XY1`, `8XY2`, `8XY3` write the bitwise or, and, exclusive-or to `V[X]` (41_arithmetic.md section 2). That `VF` is not
written is the spec's own decision D9. -/
def Obligations.LogicWritesBitwiseResult : Prop :=
  ∀ (x y : Reg) (s : State),
    (decodeWord (.ofNat 16 (0x8001 + x.val * 0x100 + y.val * 0x10)) = .ok (.orReg x y) ∧
      ∃ t, exec (.orReg x y) s = .next t ∧
        (∀ k : Fin 8, (t.reg x).getLsbD k = ((s.reg x).getLsbD k || (s.reg y).getLsbD k)) ∧
        KeepsRegsBut [x] s t ∧ t.pc.toNat = after s.pc ∧ KeepsAllBut [.registers, .counter] s t) ∧
    (decodeWord (.ofNat 16 (0x8002 + x.val * 0x100 + y.val * 0x10)) = .ok (.andReg x y) ∧
      ∃ t, exec (.andReg x y) s = .next t ∧
        (∀ k : Fin 8, (t.reg x).getLsbD k = ((s.reg x).getLsbD k && (s.reg y).getLsbD k)) ∧
        KeepsRegsBut [x] s t ∧ t.pc.toNat = after s.pc ∧ KeepsAllBut [.registers, .counter] s t) ∧
    (decodeWord (.ofNat 16 (0x8003 + x.val * 0x100 + y.val * 0x10)) = .ok (.xorReg x y) ∧
      ∃ t, exec (.xorReg x y) s = .next t ∧
        (∀ k : Fin 8, (t.reg x).getLsbD k = ((s.reg x).getLsbD k ^^ (s.reg y).getLsbD k)) ∧
        KeepsRegsBut [x] s t ∧ t.pc.toNat = after s.pc ∧ KeepsAllBut [.registers, .counter] s t)

/-- `8XY4` writes the sum modulo 256 to `V[X]` and then the carry to `VF` (41_arithmetic.md section 3). That the flag is
written last, so that with `X = 0xF` the sum is lost, is the spec's own decision D10. -/
def Obligations.AddWritesSumThenCarry : Prop :=
  ∀ (x y : Reg) (s : State),
    decodeWord (.ofNat 16 (0x8004 + x.val * 0x100 + y.val * 0x10)) = .ok (.addReg x y) ∧
    ∃ t, exec (.addReg x y) s = .next t ∧
      t.reg 0xF = (if 0xFF < (s.reg x).toNat + (s.reg y).toNat then 1 else 0) ∧
      (x ≠ 0xF → (t.reg x).toNat = ((s.reg x).toNat + (s.reg y).toNat) % 256) ∧
      KeepsRegsBut [x, 0xF] s t ∧ t.pc.toNat = after s.pc ∧ KeepsAllBut [.registers, .counter] s t

/-- `8XY5` writes `V[X] - V[Y]` and `8XY7` writes `V[Y] - V[X]` to `V[X]`, modulo 256, and then 1 to `VF` exactly where the
subtraction does not borrow (41_arithmetic.md section 3; the flag last: the spec's own decision D10). -/
def Obligations.SubtractWritesDifferenceThenNotBorrow : Prop :=
  ∀ (x y : Reg) (s : State),
    (decodeWord (.ofNat 16 (0x8005 + x.val * 0x100 + y.val * 0x10)) = .ok (.sub x y) ∧
      ∃ t, exec (.sub x y) s = .next t ∧
        t.reg 0xF = (if (s.reg y).toNat ≤ (s.reg x).toNat then 1 else 0) ∧
        (x ≠ 0xF → ((t.reg x).toNat : Int) = ((s.reg x).toNat - (s.reg y).toNat) % 256) ∧
        KeepsRegsBut [x, 0xF] s t ∧ t.pc.toNat = after s.pc ∧ KeepsAllBut [.registers, .counter] s t) ∧
    (decodeWord (.ofNat 16 (0x8007 + x.val * 0x100 + y.val * 0x10)) = .ok (.subn x y) ∧
      ∃ t, exec (.subn x y) s = .next t ∧
        t.reg 0xF = (if (s.reg x).toNat ≤ (s.reg y).toNat then 1 else 0) ∧
        (x ≠ 0xF → ((t.reg x).toNat : Int) = ((s.reg y).toNat - (s.reg x).toNat) % 256) ∧
        KeepsRegsBut [x, 0xF] s t ∧ t.pc.toNat = after s.pc ∧ KeepsAllBut [.registers, .counter] s t)

/-- `8XY6` and `8XYE` shift `V[X]` by one bit, whatever `Y` is, and then write the bit shifted out to `VF`
(41_arithmetic.md section 3; the flag last: the spec's own decision D10). -/
def Obligations.ShiftWritesResultThenBitOut : Prop :=
  ∀ (x y : Reg) (s : State),
    (decodeWord (.ofNat 16 (0x8006 + x.val * 0x100 + y.val * 0x10)) = .ok (.shr x y) ∧
      ∃ t, exec (.shr x y) s = .next t ∧ (t.reg 0xF).toNat = (s.reg x).toNat % 2 ∧
        (x ≠ 0xF → (t.reg x).toNat = (s.reg x).toNat / 2) ∧
        KeepsRegsBut [x, 0xF] s t ∧ t.pc.toNat = after s.pc ∧ KeepsAllBut [.registers, .counter] s t) ∧
    (decodeWord (.ofNat 16 (0x800E + x.val * 0x100 + y.val * 0x10)) = .ok (.shl x y) ∧
      ∃ t, exec (.shl x y) s = .next t ∧ (t.reg 0xF).toNat = (s.reg x).toNat / 128 ∧
        (x ≠ 0xF → (t.reg x).toNat = (s.reg x).toNat * 2 % 256) ∧
        KeepsRegsBut [x, 0xF] s t ∧ t.pc.toNat = after s.pc ∧ KeepsAllBut [.registers, .counter] s t)

/-! ### Control flow (42_control_flow.md) -/

/-- `0NNN` raises `UnknownOpcode` with its own word (42_control_flow.md section 1; that the form is unimplemented is the
spec's own decision D7). -/
def Obligations.SysRaisesUnknownOpcode : Prop :=
  ∀ (nnn : Addr) (s : State),
    (nnn ≠ 0x0E0 → nnn ≠ 0x0EE → decodeWord (.ofNat 16 nnn.toNat) = .ok (.sys nnn)) ∧
    ∃ t, exec (.sys nnn) s = .next t ∧ RaisesFrom s .unknownOpcode (.ofNat 16 nnn.toNat) t

/-- `1NNN` jumps to `NNN` and `BNNN` to `NNN + V[0]` modulo 4096; nothing else changes (42_control_flow.md section 2; that
the offset register is `V[0]` is the spec's own decision D12). -/
def Obligations.JumpsSetCounter : Prop :=
  ∀ (nnn : Addr) (s : State),
    (decodeWord (.ofNat 16 (0x1000 + nnn.toNat)) = .ok (.jp nnn) ∧
      ∃ t, exec (.jp nnn) s = .next t ∧ t.pc.toNat = nnn.toNat ∧ KeepsAllBut [.counter] s t) ∧
    (decodeWord (.ofNat 16 (0xB000 + nnn.toNat)) = .ok (.jpV0 nnn) ∧
      ∃ t, exec (.jpV0 nnn) s = .next t ∧ t.pc.toNat = (nnn.toNat + (s.reg 0).toNat) % 0x1000 ∧
        KeepsAllBut [.counter] s t)

/-- R153: `2NNN` pushes the address of the next word and jumps; on a full stack it raises `StackOverflow` with its own
address and changes nothing else. -/
def Obligations.CallPushesNextAddress : Prop :=
  ∀ (nnn : Addr) (s : State),
    decodeWord (.ofNat 16 (0x2000 + nnn.toNat)) = .ok (.call nnn) ∧
    (∀ j : Fin 16, s.sp.toNat = j.val →
      ∃ t, exec (.call nnn) s = .next t ∧ t.pc.toNat = nnn.toNat ∧ t.sp.toNat = j.val + 1 ∧
        t.stack[j.val].toNat = after s.pc ∧ (∀ k : Fin 16, k ≠ j → t.stack[k.val] = s.stack[k.val]) ∧
        KeepsAllBut [.counter, .callStack] s t) ∧
    (s.sp.toNat = 16 → ∃ t, exec (.call nnn) s = .next t ∧ RaisesFrom s .stackOverflow s.pc t)

/-- `00EE` takes the top entry as the new `PC`; on an empty stack it raises `StackUnderflow` with its own address and
changes nothing else (42_control_flow.md section 2). -/
def Obligations.ReturnPopsTopEntry : Prop :=
  ∀ s : State,
    decodeWord 0x00EE = .ok .ret ∧
    (∀ j : Fin 16, s.sp.toNat = j.val + 1 →
      ∃ t, exec .ret s = .next t ∧ t.pc = s.stack[j.val] ∧ t.sp.toNat = j.val ∧ t.stack = s.stack ∧
        KeepsAllBut [.counter, .callStack] s t) ∧
    (s.sp.toNat = 0 → ∃ t, exec .ret s = .next t ∧ RaisesFrom s .stackUnderflow s.pc t)

/-- R155, R156, R157, R158: a skip whose condition holds leaves `PC` at `pc0 + 4`, one whose condition does not at
`pc0 + 2`, modulo 4096, and nothing else changes. -/
def Obligations.SkipsAdvanceByCondition : Prop :=
  ∀ (x y : Reg) (nn : Byte) (s : State),
    (decodeWord (.ofNat 16 (0x3000 + x.val * 0x100 + nn.toNat)) = .ok (.seImm x nn) ∧
      ∃ t, exec (.seImm x nn) s = .next t ∧
        t.pc.toNat = (s.pc.toNat + (if s.reg x = nn then 4 else 2)) % 0x1000 ∧ KeepsAllBut [.counter] s t) ∧
    (decodeWord (.ofNat 16 (0x4000 + x.val * 0x100 + nn.toNat)) = .ok (.sneImm x nn) ∧
      ∃ t, exec (.sneImm x nn) s = .next t ∧
        t.pc.toNat = (s.pc.toNat + (if s.reg x = nn then 2 else 4)) % 0x1000 ∧ KeepsAllBut [.counter] s t) ∧
    (decodeWord (.ofNat 16 (0x5000 + x.val * 0x100 + y.val * 0x10)) = .ok (.seReg x y) ∧
      ∃ t, exec (.seReg x y) s = .next t ∧
        t.pc.toNat = (s.pc.toNat + (if s.reg x = s.reg y then 4 else 2)) % 0x1000 ∧ KeepsAllBut [.counter] s t) ∧
    (decodeWord (.ofNat 16 (0x9000 + x.val * 0x100 + y.val * 0x10)) = .ok (.sneReg x y) ∧
      ∃ t, exec (.sneReg x y) s = .next t ∧
        t.pc.toNat = (s.pc.toNat + (if s.reg x = s.reg y then 2 else 4)) % 0x1000 ∧ KeepsAllBut [.counter] s t) ∧
    (∀ n : Fin 16, n ≠ 0 → ∀ i : Instr,
      decodeWord (.ofNat 16 (0x5000 + x.val * 0x100 + y.val * 0x10 + n.val)) ≠ .ok i ∧
      decodeWord (.ofNat 16 (0x9000 + x.val * 0x100 + y.val * 0x10 + n.val)) ≠ .ok i)

/-- "16 nested calls succeed; the 17th call fails with `StackOverflow`" (42_control_flow.md section 2, quoted there from
the source): from an empty stack, whatever the targets. -/
def Obligations.SixteenNestedCallsThenOverflow : Prop :=
  ∀ (targets : List Addr) (nnn : Addr) (s : State), s.sp.toNat = 0 → targets.length ≤ 16 →
    ∃ t, execAll (targets.map .call) s = .next t ∧ t.sp.toNat = targets.length ∧
      KeepsAllBut [.counter, .callStack] s t ∧
      (targets.length = 16 → ∃ u, exec (.call nnn) t = .next u ∧ RaisesFrom t .stackOverflow t.pc u)

/-! ### Index register and memory (43_memory_ops.md, 47_bcd_font.md, 20_memory.md) -/

/-- R180: `ANNN` sets `I` to `NNN`. -/
def Obligations.LoadIndexWritesNNN : Prop :=
  ∀ (nnn : Addr) (s : State),
    decodeWord (.ofNat 16 (0xA000 + nnn.toNat)) = .ok (.ldI nnn) ∧
    ∃ t, exec (.ldI nnn) s = .next t ∧ t.idx.toNat = nnn.toNat ∧ t.pc.toNat = after s.pc ∧
      KeepsAllBut [.index, .counter] s t

/-- `FX1E` adds `V[X]` to `I` modulo 4096, and `FX29` sets `I` to the address of the glyph of the low nibble of `V[X]`
(43_memory_ops.md, 47_bcd_font.md). That `VF` is not written and that only the low nibble counts are the spec's own
decisions D13 and D14. -/
def Obligations.IndexArithmeticWraps : Prop :=
  ∀ (x : Reg) (s : State),
    (decodeWord (.ofNat 16 (0xF01E + x.val * 0x100)) = .ok (.addIVx x) ∧
      ∃ t, exec (.addIVx x) s = .next t ∧ t.idx.toNat = (s.idx.toNat + (s.reg x).toNat) % 0x1000 ∧
        t.pc.toNat = after s.pc ∧ KeepsAllBut [.index, .counter] s t) ∧
    (decodeWord (.ofNat 16 (0xF029 + x.val * 0x100)) = .ok (.ldFVx x) ∧
      ∃ t, exec (.ldFVx x) s = .next t ∧ t.idx.toNat = 5 * ((s.reg x).toNat % 16) ∧
        t.pc.toNat = after s.pc ∧ KeepsAllBut [.index, .counter] s t)

/-- `FX55` stores `V[0..X]` at `I` and up and leaves `I` and every other byte alone; where `I + X` is above 0xFFF it raises
`MemoryOutOfRange` and stores nothing (43_memory_ops.md; the spec's own decisions D3 and D11). -/
def Obligations.StoreRegistersWritesRange : Prop :=
  ∀ (x : Reg) (s : State),
    decodeWord (.ofNat 16 (0xF055 + x.val * 0x100)) = .ok (.storeRegs x) ∧
    (s.mem.wf = true → dataAddress s.idx x.val ≤ 0xFFF →
      ∃ t, exec (.storeRegs x) s = .next t ∧
        (∀ k : Reg, k ≤ x → t.byteAt (dataAddress s.idx k.val) = s.reg k) ∧
        (∀ a : Nat, (a < dataAddress s.idx 0 ∨ dataAddress s.idx x.val < a) → t.byteAt a = s.byteAt a) ∧
        t.pc.toNat = after s.pc ∧ KeepsAllBut [.memory, .counter] s t) ∧
    (0xFFF < dataAddress s.idx x.val →
      ∃ t, exec (.storeRegs x) s = .next t ∧ RaisesFrom s .memoryOutOfRange 0x1000 t)

/-- `FX65` loads `V[0..X]` from `I` and up and leaves `I` and every other register alone; where `I + X` is above 0xFFF it
raises `MemoryOutOfRange` and loads nothing (43_memory_ops.md; the spec's own decisions D3 and D11). -/
def Obligations.LoadRegistersReadsRange : Prop :=
  ∀ (x : Reg) (s : State),
    decodeWord (.ofNat 16 (0xF065 + x.val * 0x100)) = .ok (.loadRegs x) ∧
    (dataAddress s.idx x.val ≤ 0xFFF →
      ∃ t, exec (.loadRegs x) s = .next t ∧
        (∀ k : Reg, k ≤ x → t.reg k = s.byteAt (dataAddress s.idx k.val)) ∧
        (∀ k : Reg, x < k → t.reg k = s.reg k) ∧
        t.pc.toNat = after s.pc ∧ KeepsAllBut [.registers, .counter] s t) ∧
    (0xFFF < dataAddress s.idx x.val →
      ∃ t, exec (.loadRegs x) s = .next t ∧ RaisesFrom s .memoryOutOfRange 0x1000 t)

/-- `FX33` stores the hundreds, tens and ones digits of `V[X]` at `I`, `I + 1`, `I + 2` and leaves `I` and every other
byte alone; where `I + 2` is above 0xFFF it raises `MemoryOutOfRange` and stores nothing (47_bcd_font.md; the spec's own
decision D3). -/
def Obligations.BcdStoresThreeDigits : Prop :=
  ∀ (x : Reg) (s : State),
    decodeWord (.ofNat 16 (0xF033 + x.val * 0x100)) = .ok (.ldBVx x) ∧
    (s.mem.wf = true → dataAddress s.idx 2 ≤ 0xFFF →
      ∃ t, exec (.ldBVx x) s = .next t ∧
        (t.byteAt (dataAddress s.idx 0)).toNat = (s.reg x).toNat / 100 ∧
        (t.byteAt (dataAddress s.idx 1)).toNat = (s.reg x).toNat / 10 % 10 ∧
        (t.byteAt (dataAddress s.idx 2)).toNat = (s.reg x).toNat % 10 ∧
        (∀ a : Nat, (a < dataAddress s.idx 0 ∨ dataAddress s.idx 2 < a) → t.byteAt a = s.byteAt a) ∧
        t.pc.toNat = after s.pc ∧ KeepsAllBut [.memory, .counter] s t) ∧
    (0xFFF < dataAddress s.idx 2 →
      ∃ t, exec (.ldBVx x) s = .next t ∧ RaisesFrom s .memoryOutOfRange 0x1000 t)

/-- Memories in canonical form that read alike at every address are equal as data (20_memory.md section 1). -/
def Obligations.CanonicalMemoriesReadAlikeAreEqual : Prop :=
  ∀ m m' : Memory, m.wf = true → m'.wf = true → (∀ a : Nat, a < 0x1000 → m.read a = m'.read a) → m = m'

/-! ### Input latch (44_input.md) -/

/-- `FX0A` begins a wait: the edges are cleared, `X` is recorded, the run state is `WAITING` and `PC` stays at the
instruction (44_input.md section 2; the spec's own decision D20). -/
def Obligations.WaitForKeyHoldsCounter : Prop :=
  ∀ (x : Reg) (s : State),
    decodeWord (.ofNat 16 (0xF00A + x.val * 0x100)) = .ok (.ldVxK x) ∧
    ∃ t, exec (.ldVxK x) s = .next t ∧ (∀ k : Fin 16, t.keyEdge[k.val] = false) ∧ t.waitX = x ∧ t.run = .waiting ∧
      t.pc = s.pc ∧ KeepsAllBut [.keyEdge, .waitRegister, .run] s t

/-- A step in `WAITING` fetches nothing: with no edge it has no effect on any state; else the lowest key with an edge goes
to `V[WAIT_X]`, the edges are cleared, `PC` advances by 2 and the block runs on (44_input.md section 2; the spec's own
decisions D20 and D22). `DIRTY` is clear between transactions (10_state.md R34, part of `SessionInv`). -/
def Obligations.WaitingPollTakesLowestEdge : Prop :=
  ∀ s : State, s.run = .waiting → s.dirty = false →
    ((∀ k : Fin 16, s.keyEdge[k.val] = false) →
      ∃ t, step s = .next t ∧ t.events = [] ∧ t.stepResult = some ⟨false, true, none⟩ ∧
        KeepsAllBut [.events, .stepResult] s t) ∧
    (∀ k : Fin 16, s.keyEdge[k.val] = true → (∀ j : Fin 16, j < k → s.keyEdge[j.val] = false) →
      ∃ t, step s = .next t ∧ (t.reg s.waitX).toNat = k.val ∧ KeepsRegsBut [s.waitX] s t ∧
        (∀ j : Fin 16, t.keyEdge[j.val] = false) ∧ t.pc.toNat = after s.pc ∧ t.run = .running ∧ t.events = [] ∧
        t.stepResult = some ⟨false, false, none⟩ ∧
        KeepsAllBut [.registers, .keyEdge, .counter, .run, .events, .stepResult] s t)

/-- `EX9E` skips exactly where `V[X]` is the code of a key that is down, and `EXA1` exactly where it is not; neither
consumes an edge (44_input.md section 3; codes above 0xF name no key: the spec's own decision D15). -/
def Obligations.KeySkipsReadKeyDown : Prop :=
  ∀ (x : Reg) (s : State),
    decodeWord (.ofNat 16 (0xE09E + x.val * 0x100)) = .ok (.skp x) ∧
    decodeWord (.ofNat 16 (0xE0A1 + x.val * 0x100)) = .ok (.sknp x) ∧
    ∃ t u, exec (.skp x) s = .next t ∧ exec (.sknp x) s = .next u ∧
      ((∃ k : Fin 16, (s.reg x).toNat = k.val ∧ s.keyDown[k.val] = true) →
        t.pc.toNat = (s.pc.toNat + 4) % 0x1000 ∧ u.pc.toNat = (s.pc.toNat + 2) % 0x1000) ∧
      ((¬∃ k : Fin 16, (s.reg x).toNat = k.val ∧ s.keyDown[k.val] = true) →
        t.pc.toNat = (s.pc.toNat + 2) % 0x1000 ∧ u.pc.toNat = (s.pc.toNat + 4) % 0x1000) ∧
      KeepsAllBut [.counter] s t ∧ KeepsAllBut [.counter] s u

/-- `KeyDown` and `KeyUp` in every run state: an edge only from up to down, `KeyUp` keeps it, each idempotent, and a code
above 0xF changes no state and is reported (44_input.md section 1; the spec's own decisions D21 and D29). -/
def Obligations.KeyTransactionsUpdateLatch : Prop :=
  ∀ (key : Byte) (s : State),
    (∀ k : Fin 16, key.toNat = k.val →
      (keyDown key s).keyDown[k.val] = true ∧
      (keyDown key s).keyEdge[k.val] = (s.keyEdge[k.val] || !s.keyDown[k.val]) ∧
      (∀ j : Fin 16, j ≠ k → (keyDown key s).keyDown[j.val] = s.keyDown[j.val] ∧
        (keyDown key s).keyEdge[j.val] = s.keyEdge[j.val]) ∧
      (keyDown key s).events = [] ∧
      KeepsAllBut [.keyDown, .keyEdge, .events, .stepResult] s (keyDown key s) ∧
      keyDown key (keyDown key s) = keyDown key s ∧
      (keyUp key s).keyDown[k.val] = false ∧
      (∀ j : Fin 16, j ≠ k → (keyUp key s).keyDown[j.val] = s.keyDown[j.val]) ∧
      (keyUp key s).events = [] ∧
      KeepsAllBut [.keyDown, .events, .stepResult] s (keyUp key s) ∧
      keyUp key (keyUp key s) = keyUp key s) ∧
    (16 ≤ key.toNat →
      (keyDown key s).events = [.invalidKeyCode key] ∧ KeepsAllBut [.events, .stepResult] s (keyDown key s) ∧
      (keyUp key s).events = [.invalidKeyCode key] ∧ KeepsAllBut [.events, .stepResult] s (keyUp key s))

/-- A wait with no edge leaves `PC` unchanged across any number of steps; a `KeyDown` of a key that is up ends it, and
exactly one step consumes it and advances `PC`, and nothing changes but what the press and the poll change (44_input.md section 2, the source's scenario quoted there; the spec's own
decisions D20 and D21). -/
def Obligations.WaitEndsOneStepAfterPress : Prop :=
  ∀ (p : Params) (n : Nat) (key : Byte) (k : Fin 16) (s : State), s.run = .waiting → s.dirty = false →
    (∀ j : Fin 16, s.keyEdge[j.val] = false) → key.toNat = k.val → s.keyDown[k.val] = false →
    ∃ t, transactAll p (List.replicate n .cycle) s = .next t ∧ t.pc = s.pc ∧ t.run = .waiting ∧
      ∃ u, transactAll p [.keyDown key, .cycle] t = .next u ∧ u.run = .running ∧
        (u.reg s.waitX).toNat = k.val ∧ KeepsRegsBut [s.waitX] s u ∧ u.pc.toNat = after s.pc ∧
        u.keyDown[k.val] = true ∧ (∀ j : Fin 16, j ≠ k → u.keyDown[j.val] = s.keyDown[j.val]) ∧
        (∀ j : Fin 16, u.keyEdge[j.val] = false) ∧ u.events = [] ∧ u.stepResult = some ⟨false, false, none⟩ ∧
        KeepsAllBut [.registers, .counter, .keyDown, .keyEdge, .run, .events, .stepResult] s u

/-- R392: the only instruction that blocks is `FX0A`, and a wait whose key never comes goes on for any number of steps,
with no error. -/
def Obligations.OnlyWaitForKeyBlocks : Prop :=
  (∀ (i : Instr) (s t : State), exec i s = .next t → s.run ≠ .waiting → t.run = .waiting → ∃ x, i = .ldVxK x) ∧
  (∀ (p : Params) (n : Nat) (s : State), s.run = .waiting → s.dirty = false →
    (∀ j : Fin 16, s.keyEdge[j.val] = false) →
    ∃ t, transactAll p (List.replicate n .cycle) s = .next t ∧ KeepsAllBut [.events, .stepResult] s t)

/-! ### Display (45_display.md) -/

/-- `00E0` clears every pixel and sets `DIRTY` whatever the framebuffer held (45_display.md section 1; the spec's own
decision D17). -/
def Obligations.ClearScreenClearsEveryPixel : Prop :=
  ∀ s : State,
    decodeWord 0x00E0 = .ok .cls ∧
    ∃ t, exec .cls s = .next t ∧ (∀ x y, t.fb.pixel x y = false) ∧ t.dirty = true ∧ t.pc.toNat = after s.pc ∧
      KeepsAllBut [.framebuffer, .dirty, .counter] s t

/-- `DXYN` inverts exactly the pixels under the sprite's set bits, wrapped on both axes, sets `VF` to whether one of them
was set, and sets `DIRTY` where there is one; where the sprite reaches above 0xFFF it raises `MemoryOutOfRange` and changes
nothing else (45_display.md section 1; the spec's own decisions D3, D16 and D17). -/
def Obligations.DrawInvertsSpritePixels : Prop :=
  ∀ (x y : Reg) (n : Fin 16) (s : State),
    decodeWord (.ofNat 16 (0xD000 + x.val * 0x100 + y.val * 0x10 + n.val)) = .ok (.drw x y n) ∧
    (SpriteInRange s n →
      ∃ t, exec (.drw x y n) s = .next t ∧
        (∀ px py, (SpriteCovers s x y n.val px py → t.fb.pixel px py = !s.fb.pixel px py) ∧
          (¬SpriteCovers s x y n.val px py → t.fb.pixel px py = s.fb.pixel px py)) ∧
        ((∃ px py, SpriteCovers s x y n.val px py ∧ s.fb.pixel px py = true) → t.reg 0xF = 1) ∧
        ((¬∃ px py, SpriteCovers s x y n.val px py ∧ s.fb.pixel px py = true) → t.reg 0xF = 0) ∧
        ((∃ px py, SpriteCovers s x y n.val px py) → t.dirty = true) ∧
        ((¬∃ px py, SpriteCovers s x y n.val px py) → t.dirty = s.dirty) ∧
        KeepsRegsBut [0xF] s t ∧ t.pc.toNat = after s.pc ∧
        KeepsAllBut [.registers, .counter, .framebuffer, .dirty] s t) ∧
    (¬SpriteInRange s n → ∃ t, exec (.drw x y n) s = .next t ∧ RaisesFrom s .memoryOutOfRange 0x1000 t)

/-- Drawing the same sprite at the same place twice restores the framebuffer, and the second draw sets `VF` to 1 exactly
where the sprite has a set bit over a pixel that was clear before the first: with the place clear before, exactly where the
sprite has a set bit, and in every case only where it has one (45_display.md section 2, a law the spec derives from the draw;
that it holds of the flag in this form is assumption 8). The same place: the second draw finds the coordinates of the first in `V[X]` and `V[Y]`, which with `X` or
`Y` the flag register need not be so. -/
def Obligations.DrawingTwiceRestoresFramebuffer : Prop :=
  ∀ (x y : Reg) (n : Fin 16) (s t : State), SpriteInRange s n → exec (.drw x y n) s = .next t →
    t.reg x = s.reg x → t.reg y = s.reg y →
    ∃ u, exec (.drw x y n) t = .next u ∧ u.fb = s.fb ∧
      ((∃ px py, SpriteCovers s x y n.val px py ∧ s.fb.pixel px py = false) → u.reg 0xF = 1) ∧
      ((¬∃ px py, SpriteCovers s x y n.val px py ∧ s.fb.pixel px py = false) → u.reg 0xF = 0) ∧
      ((∀ px py, SpriteCovers s x y n.val px py → s.fb.pixel px py = false) →
        ((∃ r : Nat, r < n.val ∧ s.byteAt (dataAddress s.idx r) ≠ 0) ↔ u.reg 0xF = 1)) ∧
      (u.reg 0xF = 1 → ∃ r : Nat, r < n.val ∧ s.byteAt (dataAddress s.idx r) ≠ 0)

/-- No instruction but `CLS` and `DRW` changes the framebuffer or `DIRTY`, and no transaction but `Start`, `Cycle` and
`Advance` does (45_display.md section 2, a law the spec derives). -/
def Obligations.OnlyDisplayInstructionsChangeFramebuffer : Prop :=
  (∀ (i : Instr) (s t : State), exec i s = .next t → (t.fb ≠ s.fb ∨ t.dirty ≠ s.dirty) →
    i = .cls ∨ ∃ x y n, i = .drw x y n) ∧
  (∀ (p : Params) (tr : Transaction) (s t : State), transact p tr s = .next t → (t.fb ≠ s.fb ∨ t.dirty ≠ s.dirty) →
    (∃ program seed, tr = .start program seed) ∨ tr = .cycle ∨ ∃ dt, tr = .advance dt)

/-- A step of run state `RUNNING` from `DIRTY` clear either raises, reporting its error once and rendering nothing, or
executes the instruction at `PC`: it then reports the framebuffer mutated exactly where that instruction left `DIRTY` set,
emits one `Render` of the framebuffer as it stands exactly there and nothing else, and clears `DIRTY`; `CLS` renders whatever
the framebuffer held (60_exceptions.md section 5, 10_state.md section 9; the spec's own decisions D17 and D18; `DIRTY` is
clear between transactions, part of `SessionInv`). -/
def Obligations.StepRendersOnceWhenDirty : Prop :=
  ∀ s t : State, s.run = .running → s.dirty = false → step s = .next t →
    t.dirty = false ∧
    ((t.run = .halted ∧ t.fb = s.fb ∧ t.events = [.error t.errCode t.errInfo] ∧
        t.stepResult = some ⟨false, false, some (t.errCode, t.errInfo)⟩) ∨
      (∃ (i : Instr) (u : State), s.pc.toNat ≤ 0xFFE ∧ decodeWord s.opcode = .ok i ∧
        exec i s.beginTransaction = .next u ∧ u.run ≠ .halted ∧
        t.stepResult = some ⟨u.dirty, decide (u.run = .waiting), none⟩ ∧
        t.events = (if u.dirty then [.render u.fb] else []) ∧
        (u.fb ≠ s.fb → u.dirty = true) ∧ (i = .cls → t.events = [.render Framebuffer.clear]) ∧
        KeepsAllBut [.dirty, .events, .stepResult] u t))

/-! ### Timers (46_timer.md, 60_exceptions.md) -/

/-- R240: `FX07` reads `DT` into `V[X]`. -/
def Obligations.ReadDelayTimer : Prop :=
  ∀ (x : Reg) (s : State),
    decodeWord (.ofNat 16 (0xF007 + x.val * 0x100)) = .ok (.ldVxDt x) ∧
    ∃ t, exec (.ldVxDt x) s = .next t ∧ t.reg x = s.dt ∧ KeepsRegsBut [x] s t ∧ t.pc.toNat = after s.pc ∧
      KeepsAllBut [.registers, .counter] s t

/-- R241, R242: `FX15` and `FX18` load the timers, and each reaches 0 after as many ticks as it was loaded with, never
negative; `ST` sounds at once while it is not 0 and beeps once a tick until it is. -/
def Obligations.TimersCountDownFromLoad : Prop :=
  ∀ (x : Reg) (s : State),
    (decodeWord (.ofNat 16 (0xF015 + x.val * 0x100)) = .ok (.ldDtVx x) ∧
      ∃ t, exec (.ldDtVx x) s = .next t ∧ t.dt = s.reg x ∧ t.pc.toNat = after s.pc ∧
        KeepsAllBut [.delayTimer, .counter] s t ∧
        ∀ n : Nat, (State.timerTick^[n] t).dt.toNat = (s.reg x).toNat - n) ∧
    (decodeWord (.ofNat 16 (0xF018 + x.val * 0x100)) = .ok (.ldStVx x) ∧
      ∃ t, exec (.ldStVx x) s = .next t ∧ t.st = s.reg x ∧ t.pc.toNat = after s.pc ∧
        KeepsAllBut [.soundTimer, .counter] s t ∧
        ∀ n : Nat, (State.timerTick^[n] t).st.toNat = (s.reg x).toNat - n ∧
          ((State.timerTick^[n] t).soundOn = true ↔ n < (s.reg x).toNat) ∧
          (State.timerTick^[n] t).events = s.events ++ List.replicate (min n (s.reg x).toNat) .beep)

/-- `Tick` in `RUNNING` and `WAITING` decrements both timers toward zero, beeps where `ST` was not 0 before, and changes
nothing else; in `STOPPED` and `HALTED` it changes nothing and emits nothing (60_exceptions.md sections 1 and 4; the spec's
own decisions D6, D19, D22, D23 and D32). -/
def Obligations.TickDecrementsTimers : Prop :=
  ∀ s : State,
    ((s.run = .running ∨ s.run = .waiting) →
      (tick s).dt.toNat = s.dt.toNat - 1 ∧ (tick s).st.toNat = s.st.toNat - 1 ∧
      (tick s).events = (if s.st = 0 then [] else [.beep]) ∧
      KeepsAllBut [.delayTimer, .soundTimer, .events, .stepResult] s (tick s)) ∧
    ((s.run = .stopped ∨ s.run = .halted) →
      (tick s).events = [] ∧ KeepsAllBut [.events, .stepResult] s (tick s))

/-! ### Random (48_random.md) -/

/-- `CXNN` writes the next byte of the session's stream, masked, and consumes exactly one byte whatever the mask
(48_random.md; the stream is the model's free value, assumption 1, and the spec's own decision D25). -/
def Obligations.RandomDrawsOneMaskedByte : Prop :=
  ∀ (x : Reg) (nn : Byte) (s : State),
    decodeWord (.ofNat 16 (0xC000 + x.val * 0x100 + nn.toNat)) = .ok (.rnd x nn) ∧
    ∃ t, exec (.rnd x nn) s = .next t ∧
      (∀ k : Fin 8, (t.reg x).getLsbD k = ((Config.rngByte s.rngSeed s.rngPos).getLsbD k && nn.getLsbD k)) ∧
      t.rngPos = s.rngPos + 1 ∧ t.rngSeed = s.rngSeed ∧ KeepsRegsBut [x] s t ∧ t.pc.toNat = after s.pc ∧
      KeepsAllBut [.registers, .randomStream, .counter] s t

/-! ### Who writes what (10_state.md) -/

/-- Only `ANNN`, `FX1E` and `FX29` change `I`, and what they write is below 0x1000 (10_state.md section 3, derived there). -/
def Obligations.OnlyIndexInstructionsWriteI : Prop :=
  ∀ (i : Instr) (s t : State), exec i s = .next t → t.idx ≠ s.idx →
    t.idx.toNat < 0x1000 ∧ ((∃ nnn, i = .ldI nnn) ∨ (∃ x, i = .addIVx x) ∨ (∃ x, i = .ldFVx x))

/-- Only `CALL` and `RET` change the call stack, each by at most one entry (10_state.md section 4). -/
def Obligations.OnlyCallAndReturnChangeStack : Prop :=
  ∀ (i : Instr) (s t : State), exec i s = .next t → (t.sp ≠ s.sp ∨ t.stack ≠ s.stack) →
    (∃ nnn, i = .call nnn ∧ t.sp.toNat = s.sp.toNat + 1) ∨ (i = .ret ∧ t.sp.toNat + 1 = s.sp.toNat)

/-- Only `FX33` and `FX55` change a byte of memory (20_memory.md sections 1 and 3). -/
def Obligations.OnlyStoresChangeMemory : Prop :=
  ∀ (i : Instr) (s t : State), exec i s = .next t → (∃ a : Nat, t.byteAt a ≠ s.byteAt a) →
    (∃ x, i = .ldBVx x) ∨ (∃ x, i = .storeRegs x)

/-- `VF` changes only by the six forms that write it as a flag, and by a form whose destination it is (10_state.md
section 2; the logic forms are none of the six: the spec's own decision D9). -/
def Obligations.FlagRegisterWriters : Prop :=
  ∀ (i : Instr) (s t : State), exec i s = .next t → t.reg 0xF ≠ s.reg 0xF →
    (∃ x y, i = .addReg x y ∨ i = .sub x y ∨ i = .shr x y ∨ i = .subn x y ∨ i = .shl x y) ∨
    (∃ x y n, i = .drw x y n) ∨
    (∃ nn, i = .ldImm 0xF nn ∨ i = .addImm 0xF nn ∨ i = .rnd 0xF nn) ∨
    (∃ y, i = .ldReg 0xF y ∨ i = .orReg 0xF y ∨ i = .andReg 0xF y ∨ i = .xorReg 0xF y) ∨
    i = .ldVxDt 0xF ∨ i = .loadRegs 0xF

/-- The timers, the latch, the scheduler and the random stream change only by their own instructions: `DT` by `FX15`, `ST`
by `FX18`, `KEY_EDGE` and `WAIT_X` by `FX0A`, the stream by `CXNN`, and `KEY_DOWN` and the times by none (10_state.md
sections 5 to 8). -/
def Obligations.DeviceStateWriters : Prop :=
  ∀ (i : Instr) (s t : State), exec i s = .next t →
    (t.dt ≠ s.dt → ∃ x, i = .ldDtVx x) ∧ (t.st ≠ s.st → ∃ x, i = .ldStVx x) ∧
    (t.keyEdge ≠ s.keyEdge → ∃ x, i = .ldVxK x) ∧ (t.waitX ≠ s.waitX → ∃ x, i = .ldVxK x) ∧
    (t.rngPos ≠ s.rngPos → ∃ x nn, i = .rnd x nn) ∧
    t.rngSeed = s.rngSeed ∧ t.keyDown = s.keyDown ∧ t.tNow = s.tNow ∧ t.tStep = s.tStep ∧ t.tTick = s.tTick

/-! ### Errors (60_exceptions.md) -/

/-- Errors are precise: a step of `RUNNING` that halts latched a fatal error, reported it once, and left all else exactly
as it was before the instruction, `PC` with it (60_exceptions.md section 1; the spec's own decision D5). -/
def Obligations.ErrorsArePrecise : Prop :=
  ∀ s t : State, s.run = .running → step s = .next t → t.run = .halted →
    t.errCode ≠ .noError ∧ t.events = [.error t.errCode t.errInfo] ∧
      t.stepResult = some ⟨false, false, some (t.errCode, t.errInfo)⟩ ∧
      KeepsAllBut [.run, .errorLatch, .events, .stepResult] s t

/-- The only instructions that halt the block, each with its own error: `SYS`, `CALL` on a full stack, `RET` on an empty
one, and `DRW`, `FX33`, `FX55`, `FX65` past the end of memory (60_exceptions.md section 1; the spec's own decisions D3 to
D7). -/
def Obligations.InstructionsRaiseOnlyTheirOwnError : Prop :=
  ∀ (i : Instr) (s t : State), exec i s = .next t → s.run ≠ .halted → t.run = .halted →
    (∃ nnn, i = .sys nnn ∧ t.errCode = .unknownOpcode ∧ t.errInfo = encode i) ∨
    (∃ nnn, i = .call nnn ∧ s.sp = 16 ∧ t.errCode = .stackOverflow ∧ t.errInfo = s.pc) ∨
    (i = .ret ∧ s.sp = 0 ∧ t.errCode = .stackUnderflow ∧ t.errInfo = s.pc) ∨
    (t.errCode = .memoryOutOfRange ∧ t.errInfo = 0x1000 ∧
      ((∃ x y n, i = .drw x y n ∧ n ≠ 0 ∧ 0xFFF < dataAddress s.idx (n.val - 1)) ∨
        (∃ x, i = .ldBVx x ∧ 0xFFF < dataAddress s.idx 2) ∨
        (∃ x, (i = .storeRegs x ∨ i = .loadRegs x) ∧ 0xFFF < dataAddress s.idx x.val)))

/-- In `STOPPED` and `HALTED` no step, tick or advance changes or emits anything; `Stop` keeps every piece of state but
`RUN`; and no transaction but `Start` leaves `STOPPED` (60_exceptions.md sections 1 and 7; the spec's own decisions D6 and
D32). -/
def Obligations.IdleBlockStandsStill : Prop :=
  (∀ (p : Params) (dt : Duration) (s : State), (s.run = .stopped ∨ s.run = .halted) →
    ∀ tr ∈ [Transaction.cycle, .tick, .advance dt],
      ∃ t, transact p tr s = .next t ∧ t.events = [] ∧ t.stepResult = none ∧ KeepsAllBut [.events, .stepResult] s t) ∧
  (∀ s : State, (stop s).run = .stopped ∧ (stop s).events = [] ∧ KeepsAllBut [.run, .events, .stepResult] s (stop s)) ∧
  (∀ (p : Params) (tr : Transaction) (s t : State), s.run = .stopped → transact p tr s = .next t →
    (∀ program seed, tr ≠ .start program seed) → t.run = .stopped)

/-- A halted block is left by `Start` or `Stop` only; nothing executes in it, so that every piece of state but the key
latch is kept, the error it latched among it, until `Start`, which begins a fresh session (60_exceptions.md section 1; that
the timers are kept too is the spec's own decision D6; the empty step result is the model's choice, assumption 3). -/
def Obligations.HaltedUntilStartOrStop : Prop :=
  ∀ (p : Params) (s : State), s.run = .halted →
    (∀ (tr : Transaction) (t : State), transact p tr s = .next t → (∀ program seed, tr ≠ .start program seed) →
      t.errCode = s.errCode ∧ t.errInfo = s.errInfo ∧ t.stepResult = none ∧
        KeepsAllBut [.run, .keyDown, .keyEdge, .events, .stepResult] s t ∧
        (tr = .stop → t.run = .stopped) ∧ (tr ≠ .stop → t.run = .halted)) ∧
    (∀ (program : List Byte) (seed : Nat), program.length ≤ 3584 →
      ∃ t, transact p (.start program seed) s = .next t ∧ t.run = .running ∧ t.errCode = .noError ∧ t.errInfo = 0)

/-! ### Start and load (70_reset_and_hazards.md) -/

/-- A program longer than 3584 bytes halts the block with `RomTooLarge`, resets nothing and writes no byte; one of exactly
3584 bytes starts (70_reset_and_hazards.md section 1; the spec's own decision D28). -/
def Obligations.TooLongProgramIsNotLoaded : Prop :=
  ∀ (p : Params) (program : List Byte) (seed : Nat) (s : State),
    (3584 < program.length →
      (start p program seed s).run = .halted ∧ (start p program seed s).errCode = .romTooLarge ∧
      (start p program seed s).errInfo = 0 ∧ (start p program seed s).events = [.error .romTooLarge 0] ∧
      KeepsAllBut [.run, .errorLatch, .events, .stepResult] s (start p program seed s)) ∧
    (program.length ≤ 3584 → (start p program seed s).run = .running ∧ (start p program seed s).events = [])

/-- After `Start` the font is at 0x000, the program at 0x200, every other byte is 0, and the registers, the stack, the
timers, the framebuffer, the latch, the error and the times hold the values of 10_state.md section 9
(70_reset_and_hazards.md section 1; the zeros are the spec's own decision D26, the times D23). The random stream restarts
from the seed of the session (the spec's own decision D25); that its position is then 0 is the model's inference, assumption
6, and the seed as a field is the model's choice, assumption 1. -/
def Obligations.StartLoadsFontAndProgram : Prop :=
  ∀ (p : Params) (program : List Byte) (seed : Nat) (s t : State), program.length ≤ 3584 →
    t = start p program seed s →
    (∀ k : Fin 80, t.byteAt k.val = p.font[k.val]) ∧
    (∀ a : Nat, 0x50 ≤ a → a < 0x200 → t.byteAt a = 0) ∧
    (∀ k : Nat, k < program.length → t.byteAt (0x200 + k) = program.getD k 0) ∧
    (∀ a : Nat, 0x200 + program.length ≤ a → a < 0x1000 → t.byteAt a = 0) ∧
    (∀ r, t.reg r = 0) ∧ t.idx = 0 ∧ t.pc = 0x200 ∧ t.sp = 0 ∧ (∀ j : Fin 16, t.stack[j.val] = 0) ∧ t.dt = 0 ∧
    t.st = 0 ∧ (∀ x y, t.fb.pixel x y = false) ∧ t.dirty = false ∧ (∀ k : Fin 16, t.keyDown[k.val] = false) ∧
    (∀ k : Fin 16, t.keyEdge[k.val] = false) ∧ t.run = .running ∧ t.waitX = 0 ∧ t.errCode = .noError ∧
    t.errInfo = 0 ∧ t.tNow = 0 ∧ t.tStep = 1 / p.cpuHz ∧ t.tTick = 1 / 60 ∧ t.rngPos = 0 ∧ t.rngSeed = seed

/-- A successful `Start` discards all that was before it: the state it leaves does not depend on the state it found, so
nothing of an earlier session or of power-on survives; and the model's reset state is the one it leaves of the empty program
with the default parameters and seed 0 (70_reset_and_hazards.md sections 1 and 2; which `Start` reset stands for is the
model's choice, assumption 5). -/
def Obligations.StartForgetsEarlierState : Prop :=
  (∀ (p : Params) (program : List Byte) (seed : Nat) (s s' : State), program.length ≤ 3584 →
    transact p (.start program seed) s = transact p (.start program seed) s') ∧
  (∀ s : State, transact defaultParams (.start [] 0) s = .next State.reset)

/-! ### The scheduler (60_exceptions.md section 4) -/

/-- `Advance` runs all that is due, in the order of the due times, a step before a tick that is due with it: with nothing
due it moves `T_NOW` to its target; with a step due first it makes that step at its due time, sets the next one period
later, and goes on as `Advance` by the time that is left; with a tick due first it makes that tick likewise. It ends with
`T_NOW` at its target and the next step and tick later than that, unless the block stopped on the way (60_exceptions.md
section 4; the spec's own decision D23). -/
def Obligations.AdvanceRunsEverythingDue : Prop :=
  ∀ (p : Params) (dt : Duration) (s : State), s.idle = false →
    (s.tNow + dt.seconds < s.tStep → s.tNow + dt.seconds < s.tTick →
      advance p dt s = .next { s.beginTransaction with tNow := s.tNow + dt.seconds }) ∧
    (∀ (left : Duration) (a t : State), s.tStep ≤ s.tTick → s.tStep + left.seconds = s.tNow + dt.seconds →
      stepOnce { s.beginTransaction with tNow := s.tStep } = .next a →
      advance p left { a with tStep := s.tStep + 1 / p.cpuHz } = .next t →
      advance p dt s = .next { t with events := a.events ++ t.events }) ∧
    (∀ (left : Duration) (a t : State), s.tTick < s.tStep → s.tTick + left.seconds = s.tNow + dt.seconds →
      a = { s.beginTransaction with tNow := s.tTick }.timerTick →
      advance p left { a with tTick := s.tTick + 1 / 60 } = .next t →
      advance p dt s = .next { t with events := a.events ++ t.events }) ∧
    (∀ t : State, advance p dt s = .next t →
      t.idle = true ∨ (t.tNow = s.tNow + dt.seconds ∧ t.tNow < t.tStep ∧ t.tNow < t.tTick))

/-- The result of `Advance` depends on the total time only, not on how the host splits it: one call leaves the state and
emits the events of two (60_exceptions.md section 4; the spec's own decision D23). -/
def Obligations.AdvanceDoesNotDependOnCadence : Prop :=
  ∀ (p : Params) (a b c : Duration) (s t u : State), c.seconds = a.seconds + b.seconds →
    advance p a s = .next t → advance p b t = .next u →
    advance p c s = .next { u with events := t.events ++ u.events }

/-- Over an `Advance` of length `t` from `Start` with no halt, exactly `floor(t * CPU_HZ)` steps and `floor(t * 60)` ticks
run, and what `Advance` leaves is what they leave, taken in some order each at its due time; the next step is due one period
after the last of them, and so is the next tick (60_exceptions.md section 4, derived there). Which order:
`AdvanceRunsEverythingDue`. -/
def Obligations.AdvanceCountsStepsAndTicks : Prop :=
  ∀ (p : Params) (program : List Byte) (seed : Nat) (dt : Duration) (t : State),
    advance p dt (freshSession p program seed) = .next t → t.idle = false →
    (∃ es : List DueEvent, (es.count .step : Int) = (dt.seconds * p.cpuHz).floor ∧
      (es.count .tick : Int) = (dt.seconds * 60).floor ∧
      ∃ u, runDue p es (freshSession p program seed) = .next u ∧
        t = { u with tNow := dt.seconds, stepResult := none }) ∧
    t.tNow = dt.seconds ∧ t.tStep = (((dt.seconds * p.cpuHz).floor + 1 : Int) : Rat) / p.cpuHz ∧
      t.tTick = (((dt.seconds * 60).floor + 1 : Int) : Rat) / 60

/-! ### The invariant of a session -/

/-- The invariant holds after reset (10_state.md section 9). -/
def Obligations.SessionInvAtReset : Prop := SessionInv State.reset

/-- The invariant holds after every successful `Start`, whatever was before it (10_state.md section 9,
70_reset_and_hazards.md section 1). -/
def Obligations.StartEstablishesSessionInv : Prop :=
  ∀ (p : Params) (program : List Byte) (seed : Nat) (s : State), program.length ≤ 3584 →
    SessionInv (start p program seed s)

/-- Every step keeps the invariant: memory stays canonical and inside the address space, `I`, `PC` and the stack stay
below 0x1000, `SP` stays at most 16, `DIRTY` stays clear, and an error is latched exactly while the block is halted by it
(10_state.md sections 3, 4 and 8, derived there). -/
def Obligations.StepKeepsSessionInv : Prop :=
  ∀ s t : State, SessionInv s → step s = .next t → SessionInv t

/-- Every host transaction keeps the invariant, and so does every sequence of them (10_state.md sections 3, 4 and 8,
60_exceptions.md sections 4 and 6). -/
def Obligations.TransactionsKeepSessionInv : Prop :=
  ∀ (p : Params) (trs : List Transaction) (s t : State), SessionInv s → transactAll p trs s = .next t → SessionInv t

/-- Every instruction answers a next state wherever `SP` is a number of entries (10_state.md section 4), and so does every
sequence of host transactions from a state that meets the invariant: nothing a program or the host does stops the model. -/
def Obligations.NothingStopsTheBlock : Prop :=
  (∀ (i : Instr) (s : State), s.sp.toNat ≤ 16 → ∃ t, exec i s = .next t) ∧
  (∀ (p : Params) (trs : List Transaction) (s : State), SessionInv s → ∃ t, transactAll p trs s = .next t)

/-! ### Power-on (70_reset_and_hazards.md) -/

/-- At power-on `RUN` is `STOPPED` and the rest may be anything; no unspecified value shows in an event, a step result or
the run state: `Cycle`, `Tick` and `Advance` do nothing and emit nothing, a `Start` that loads answers the fresh session
whatever the rest was, and over every sequence of transactions two blocks with different values emit the same events, return
the same results and are in the same run state. The level output `SOUND_ON` is not among these: it is computed from `ST`, and
until a `Start` loads it reads the unspecified one (assumption 13). (10_state.md section 8, 70_reset_and_hazards.md section 1;
the spec's own decision D27; the form of the power-on state is assumption 13 too.) -/
def Obligations.PowerOnShowsInNoEventOrResult : Prop :=
  (∀ rest : State, (State.powerOn rest).run = .stopped ∧ KeepsAllBut [.run, .events, .stepResult] rest (State.powerOn rest)) ∧
  (∀ (p : Params) (dt : Duration) (rest : State), ∀ tr ∈ [Transaction.cycle, .tick, .advance dt],
    transact p tr (State.powerOn rest) = .next (State.powerOn rest)) ∧
  (∀ (p : Params) (program : List Byte) (seed : Nat) (rest : State), program.length ≤ 3584 →
    transact p (.start program seed) (State.powerOn rest) = .next (freshSession p program seed)) ∧
  (∀ (p : Params) (trs : List Transaction) (rest rest' t : State),
    transactAll p trs (State.powerOn rest) = .next t →
    ∃ t', transactAll p trs (State.powerOn rest') = .next t' ∧ t'.events = t.events ∧ t'.stepResult = t.stepResult ∧
      t'.run = t.run)
end

