-- ==== Sys2Proof/Laws/State.lean ====
section
/-! SUPPORT. One lemma for each field of the state and each update of it, so that no proof unfolds a record update. -/

namespace Sys2Proof.Machine

variable (s : State)

/-! ### `State.setReg` -/

@[simp] theorem State.setReg_mem (r : Reg) (b : Byte) : (s.setReg r b).mem = s.mem := rfl
@[simp] theorem State.setReg_v (r : Reg) (b : Byte) : (s.setReg r b).v = s.v.set r.val b := rfl
@[simp] theorem State.setReg_idx (r : Reg) (b : Byte) : (s.setReg r b).idx = s.idx := rfl
@[simp] theorem State.setReg_pc (r : Reg) (b : Byte) : (s.setReg r b).pc = s.pc := rfl
@[simp] theorem State.setReg_sp (r : Reg) (b : Byte) : (s.setReg r b).sp = s.sp := rfl
@[simp] theorem State.setReg_stack (r : Reg) (b : Byte) : (s.setReg r b).stack = s.stack := rfl
@[simp] theorem State.setReg_dt (r : Reg) (b : Byte) : (s.setReg r b).dt = s.dt := rfl
@[simp] theorem State.setReg_st (r : Reg) (b : Byte) : (s.setReg r b).st = s.st := rfl
@[simp] theorem State.setReg_fb (r : Reg) (b : Byte) : (s.setReg r b).fb = s.fb := rfl
@[simp] theorem State.setReg_dirty (r : Reg) (b : Byte) : (s.setReg r b).dirty = s.dirty := rfl
@[simp] theorem State.setReg_keyDown (r : Reg) (b : Byte) : (s.setReg r b).keyDown = s.keyDown := rfl
@[simp] theorem State.setReg_keyEdge (r : Reg) (b : Byte) : (s.setReg r b).keyEdge = s.keyEdge := rfl
@[simp] theorem State.setReg_run (r : Reg) (b : Byte) : (s.setReg r b).run = s.run := rfl
@[simp] theorem State.setReg_waitX (r : Reg) (b : Byte) : (s.setReg r b).waitX = s.waitX := rfl
@[simp] theorem State.setReg_errCode (r : Reg) (b : Byte) : (s.setReg r b).errCode = s.errCode := rfl
@[simp] theorem State.setReg_errInfo (r : Reg) (b : Byte) : (s.setReg r b).errInfo = s.errInfo := rfl
@[simp] theorem State.setReg_tNow (r : Reg) (b : Byte) : (s.setReg r b).tNow = s.tNow := rfl
@[simp] theorem State.setReg_tStep (r : Reg) (b : Byte) : (s.setReg r b).tStep = s.tStep := rfl
@[simp] theorem State.setReg_tTick (r : Reg) (b : Byte) : (s.setReg r b).tTick = s.tTick := rfl
@[simp] theorem State.setReg_rngPos (r : Reg) (b : Byte) : (s.setReg r b).rngPos = s.rngPos := rfl
@[simp] theorem State.setReg_rngSeed (r : Reg) (b : Byte) : (s.setReg r b).rngSeed = s.rngSeed := rfl
@[simp] theorem State.setReg_events (r : Reg) (b : Byte) : (s.setReg r b).events = s.events := rfl
@[simp] theorem State.setReg_stepResult (r : Reg) (b : Byte) : (s.setReg r b).stepResult = s.stepResult := rfl
@[simp] theorem State.setReg_byteAt (r : Reg) (b : Byte) (k : Nat) : (s.setReg r b).byteAt k = s.byteAt k := rfl

/-! ### `State.setIdx` -/

@[simp] theorem State.setIdx_mem (a : Word) : (s.setIdx a).mem = s.mem := rfl
@[simp] theorem State.setIdx_v (a : Word) : (s.setIdx a).v = s.v := rfl
@[simp] theorem State.setIdx_idx (a : Word) : (s.setIdx a).idx = a := rfl
@[simp] theorem State.setIdx_pc (a : Word) : (s.setIdx a).pc = s.pc := rfl
@[simp] theorem State.setIdx_sp (a : Word) : (s.setIdx a).sp = s.sp := rfl
@[simp] theorem State.setIdx_stack (a : Word) : (s.setIdx a).stack = s.stack := rfl
@[simp] theorem State.setIdx_dt (a : Word) : (s.setIdx a).dt = s.dt := rfl
@[simp] theorem State.setIdx_st (a : Word) : (s.setIdx a).st = s.st := rfl
@[simp] theorem State.setIdx_fb (a : Word) : (s.setIdx a).fb = s.fb := rfl
@[simp] theorem State.setIdx_dirty (a : Word) : (s.setIdx a).dirty = s.dirty := rfl
@[simp] theorem State.setIdx_keyDown (a : Word) : (s.setIdx a).keyDown = s.keyDown := rfl
@[simp] theorem State.setIdx_keyEdge (a : Word) : (s.setIdx a).keyEdge = s.keyEdge := rfl
@[simp] theorem State.setIdx_run (a : Word) : (s.setIdx a).run = s.run := rfl
@[simp] theorem State.setIdx_waitX (a : Word) : (s.setIdx a).waitX = s.waitX := rfl
@[simp] theorem State.setIdx_errCode (a : Word) : (s.setIdx a).errCode = s.errCode := rfl
@[simp] theorem State.setIdx_errInfo (a : Word) : (s.setIdx a).errInfo = s.errInfo := rfl
@[simp] theorem State.setIdx_tNow (a : Word) : (s.setIdx a).tNow = s.tNow := rfl
@[simp] theorem State.setIdx_tStep (a : Word) : (s.setIdx a).tStep = s.tStep := rfl
@[simp] theorem State.setIdx_tTick (a : Word) : (s.setIdx a).tTick = s.tTick := rfl
@[simp] theorem State.setIdx_rngPos (a : Word) : (s.setIdx a).rngPos = s.rngPos := rfl
@[simp] theorem State.setIdx_rngSeed (a : Word) : (s.setIdx a).rngSeed = s.rngSeed := rfl
@[simp] theorem State.setIdx_events (a : Word) : (s.setIdx a).events = s.events := rfl
@[simp] theorem State.setIdx_stepResult (a : Word) : (s.setIdx a).stepResult = s.stepResult := rfl
@[simp] theorem State.setIdx_reg (a : Word) (q : Reg) : (s.setIdx a).reg q = s.reg q := rfl
@[simp] theorem State.setIdx_byteAt (a : Word) (k : Nat) : (s.setIdx a).byteAt k = s.byteAt k := rfl

/-! ### `State.setPc` -/

@[simp] theorem State.setPc_mem (a : Word) : (s.setPc a).mem = s.mem := rfl
@[simp] theorem State.setPc_v (a : Word) : (s.setPc a).v = s.v := rfl
@[simp] theorem State.setPc_idx (a : Word) : (s.setPc a).idx = s.idx := rfl
@[simp] theorem State.setPc_pc (a : Word) : (s.setPc a).pc = a := rfl
@[simp] theorem State.setPc_sp (a : Word) : (s.setPc a).sp = s.sp := rfl
@[simp] theorem State.setPc_stack (a : Word) : (s.setPc a).stack = s.stack := rfl
@[simp] theorem State.setPc_dt (a : Word) : (s.setPc a).dt = s.dt := rfl
@[simp] theorem State.setPc_st (a : Word) : (s.setPc a).st = s.st := rfl
@[simp] theorem State.setPc_fb (a : Word) : (s.setPc a).fb = s.fb := rfl
@[simp] theorem State.setPc_dirty (a : Word) : (s.setPc a).dirty = s.dirty := rfl
@[simp] theorem State.setPc_keyDown (a : Word) : (s.setPc a).keyDown = s.keyDown := rfl
@[simp] theorem State.setPc_keyEdge (a : Word) : (s.setPc a).keyEdge = s.keyEdge := rfl
@[simp] theorem State.setPc_run (a : Word) : (s.setPc a).run = s.run := rfl
@[simp] theorem State.setPc_waitX (a : Word) : (s.setPc a).waitX = s.waitX := rfl
@[simp] theorem State.setPc_errCode (a : Word) : (s.setPc a).errCode = s.errCode := rfl
@[simp] theorem State.setPc_errInfo (a : Word) : (s.setPc a).errInfo = s.errInfo := rfl
@[simp] theorem State.setPc_tNow (a : Word) : (s.setPc a).tNow = s.tNow := rfl
@[simp] theorem State.setPc_tStep (a : Word) : (s.setPc a).tStep = s.tStep := rfl
@[simp] theorem State.setPc_tTick (a : Word) : (s.setPc a).tTick = s.tTick := rfl
@[simp] theorem State.setPc_rngPos (a : Word) : (s.setPc a).rngPos = s.rngPos := rfl
@[simp] theorem State.setPc_rngSeed (a : Word) : (s.setPc a).rngSeed = s.rngSeed := rfl
@[simp] theorem State.setPc_events (a : Word) : (s.setPc a).events = s.events := rfl
@[simp] theorem State.setPc_stepResult (a : Word) : (s.setPc a).stepResult = s.stepResult := rfl
@[simp] theorem State.setPc_reg (a : Word) (q : Reg) : (s.setPc a).reg q = s.reg q := rfl
@[simp] theorem State.setPc_byteAt (a : Word) (k : Nat) : (s.setPc a).byteAt k = s.byteAt k := rfl

/-! ### `State.advancePc` -/

@[simp] theorem State.advancePc_mem : s.advancePc.mem = s.mem := rfl
@[simp] theorem State.advancePc_v : s.advancePc.v = s.v := rfl
@[simp] theorem State.advancePc_idx : s.advancePc.idx = s.idx := rfl
@[simp] theorem State.advancePc_pc : s.advancePc.pc = nextWord s.pc := rfl
@[simp] theorem State.advancePc_sp : s.advancePc.sp = s.sp := rfl
@[simp] theorem State.advancePc_stack : s.advancePc.stack = s.stack := rfl
@[simp] theorem State.advancePc_dt : s.advancePc.dt = s.dt := rfl
@[simp] theorem State.advancePc_st : s.advancePc.st = s.st := rfl
@[simp] theorem State.advancePc_fb : s.advancePc.fb = s.fb := rfl
@[simp] theorem State.advancePc_dirty : s.advancePc.dirty = s.dirty := rfl
@[simp] theorem State.advancePc_keyDown : s.advancePc.keyDown = s.keyDown := rfl
@[simp] theorem State.advancePc_keyEdge : s.advancePc.keyEdge = s.keyEdge := rfl
@[simp] theorem State.advancePc_run : s.advancePc.run = s.run := rfl
@[simp] theorem State.advancePc_waitX : s.advancePc.waitX = s.waitX := rfl
@[simp] theorem State.advancePc_errCode : s.advancePc.errCode = s.errCode := rfl
@[simp] theorem State.advancePc_errInfo : s.advancePc.errInfo = s.errInfo := rfl
@[simp] theorem State.advancePc_tNow : s.advancePc.tNow = s.tNow := rfl
@[simp] theorem State.advancePc_tStep : s.advancePc.tStep = s.tStep := rfl
@[simp] theorem State.advancePc_tTick : s.advancePc.tTick = s.tTick := rfl
@[simp] theorem State.advancePc_rngPos : s.advancePc.rngPos = s.rngPos := rfl
@[simp] theorem State.advancePc_rngSeed : s.advancePc.rngSeed = s.rngSeed := rfl
@[simp] theorem State.advancePc_events : s.advancePc.events = s.events := rfl
@[simp] theorem State.advancePc_stepResult : s.advancePc.stepResult = s.stepResult := rfl
@[simp] theorem State.advancePc_reg (q : Reg) : s.advancePc.reg q = s.reg q := rfl
@[simp] theorem State.advancePc_byteAt (k : Nat) : s.advancePc.byteAt k = s.byteAt k := rfl

/-! ### `State.setDt` -/

@[simp] theorem State.setDt_mem (b : Byte) : (s.setDt b).mem = s.mem := rfl
@[simp] theorem State.setDt_v (b : Byte) : (s.setDt b).v = s.v := rfl
@[simp] theorem State.setDt_idx (b : Byte) : (s.setDt b).idx = s.idx := rfl
@[simp] theorem State.setDt_pc (b : Byte) : (s.setDt b).pc = s.pc := rfl
@[simp] theorem State.setDt_sp (b : Byte) : (s.setDt b).sp = s.sp := rfl
@[simp] theorem State.setDt_stack (b : Byte) : (s.setDt b).stack = s.stack := rfl
@[simp] theorem State.setDt_dt (b : Byte) : (s.setDt b).dt = b := rfl
@[simp] theorem State.setDt_st (b : Byte) : (s.setDt b).st = s.st := rfl
@[simp] theorem State.setDt_fb (b : Byte) : (s.setDt b).fb = s.fb := rfl
@[simp] theorem State.setDt_dirty (b : Byte) : (s.setDt b).dirty = s.dirty := rfl
@[simp] theorem State.setDt_keyDown (b : Byte) : (s.setDt b).keyDown = s.keyDown := rfl
@[simp] theorem State.setDt_keyEdge (b : Byte) : (s.setDt b).keyEdge = s.keyEdge := rfl
@[simp] theorem State.setDt_run (b : Byte) : (s.setDt b).run = s.run := rfl
@[simp] theorem State.setDt_waitX (b : Byte) : (s.setDt b).waitX = s.waitX := rfl
@[simp] theorem State.setDt_errCode (b : Byte) : (s.setDt b).errCode = s.errCode := rfl
@[simp] theorem State.setDt_errInfo (b : Byte) : (s.setDt b).errInfo = s.errInfo := rfl
@[simp] theorem State.setDt_tNow (b : Byte) : (s.setDt b).tNow = s.tNow := rfl
@[simp] theorem State.setDt_tStep (b : Byte) : (s.setDt b).tStep = s.tStep := rfl
@[simp] theorem State.setDt_tTick (b : Byte) : (s.setDt b).tTick = s.tTick := rfl
@[simp] theorem State.setDt_rngPos (b : Byte) : (s.setDt b).rngPos = s.rngPos := rfl
@[simp] theorem State.setDt_rngSeed (b : Byte) : (s.setDt b).rngSeed = s.rngSeed := rfl
@[simp] theorem State.setDt_events (b : Byte) : (s.setDt b).events = s.events := rfl
@[simp] theorem State.setDt_stepResult (b : Byte) : (s.setDt b).stepResult = s.stepResult := rfl
@[simp] theorem State.setDt_reg (b : Byte) (q : Reg) : (s.setDt b).reg q = s.reg q := rfl
@[simp] theorem State.setDt_byteAt (b : Byte) (k : Nat) : (s.setDt b).byteAt k = s.byteAt k := rfl

/-! ### `State.setSt` -/

@[simp] theorem State.setSt_mem (b : Byte) : (s.setSt b).mem = s.mem := rfl
@[simp] theorem State.setSt_v (b : Byte) : (s.setSt b).v = s.v := rfl
@[simp] theorem State.setSt_idx (b : Byte) : (s.setSt b).idx = s.idx := rfl
@[simp] theorem State.setSt_pc (b : Byte) : (s.setSt b).pc = s.pc := rfl
@[simp] theorem State.setSt_sp (b : Byte) : (s.setSt b).sp = s.sp := rfl
@[simp] theorem State.setSt_stack (b : Byte) : (s.setSt b).stack = s.stack := rfl
@[simp] theorem State.setSt_dt (b : Byte) : (s.setSt b).dt = s.dt := rfl
@[simp] theorem State.setSt_st (b : Byte) : (s.setSt b).st = b := rfl
@[simp] theorem State.setSt_fb (b : Byte) : (s.setSt b).fb = s.fb := rfl
@[simp] theorem State.setSt_dirty (b : Byte) : (s.setSt b).dirty = s.dirty := rfl
@[simp] theorem State.setSt_keyDown (b : Byte) : (s.setSt b).keyDown = s.keyDown := rfl
@[simp] theorem State.setSt_keyEdge (b : Byte) : (s.setSt b).keyEdge = s.keyEdge := rfl
@[simp] theorem State.setSt_run (b : Byte) : (s.setSt b).run = s.run := rfl
@[simp] theorem State.setSt_waitX (b : Byte) : (s.setSt b).waitX = s.waitX := rfl
@[simp] theorem State.setSt_errCode (b : Byte) : (s.setSt b).errCode = s.errCode := rfl
@[simp] theorem State.setSt_errInfo (b : Byte) : (s.setSt b).errInfo = s.errInfo := rfl
@[simp] theorem State.setSt_tNow (b : Byte) : (s.setSt b).tNow = s.tNow := rfl
@[simp] theorem State.setSt_tStep (b : Byte) : (s.setSt b).tStep = s.tStep := rfl
@[simp] theorem State.setSt_tTick (b : Byte) : (s.setSt b).tTick = s.tTick := rfl
@[simp] theorem State.setSt_rngPos (b : Byte) : (s.setSt b).rngPos = s.rngPos := rfl
@[simp] theorem State.setSt_rngSeed (b : Byte) : (s.setSt b).rngSeed = s.rngSeed := rfl
@[simp] theorem State.setSt_events (b : Byte) : (s.setSt b).events = s.events := rfl
@[simp] theorem State.setSt_stepResult (b : Byte) : (s.setSt b).stepResult = s.stepResult := rfl
@[simp] theorem State.setSt_reg (b : Byte) (q : Reg) : (s.setSt b).reg q = s.reg q := rfl
@[simp] theorem State.setSt_byteAt (b : Byte) (k : Nat) : (s.setSt b).byteAt k = s.byteAt k := rfl

/-! ### `State.setMem` -/

@[simp] theorem State.setMem_mem (m : Memory) : (s.setMem m).mem = m := rfl
@[simp] theorem State.setMem_v (m : Memory) : (s.setMem m).v = s.v := rfl
@[simp] theorem State.setMem_idx (m : Memory) : (s.setMem m).idx = s.idx := rfl
@[simp] theorem State.setMem_pc (m : Memory) : (s.setMem m).pc = s.pc := rfl
@[simp] theorem State.setMem_sp (m : Memory) : (s.setMem m).sp = s.sp := rfl
@[simp] theorem State.setMem_stack (m : Memory) : (s.setMem m).stack = s.stack := rfl
@[simp] theorem State.setMem_dt (m : Memory) : (s.setMem m).dt = s.dt := rfl
@[simp] theorem State.setMem_st (m : Memory) : (s.setMem m).st = s.st := rfl
@[simp] theorem State.setMem_fb (m : Memory) : (s.setMem m).fb = s.fb := rfl
@[simp] theorem State.setMem_dirty (m : Memory) : (s.setMem m).dirty = s.dirty := rfl
@[simp] theorem State.setMem_keyDown (m : Memory) : (s.setMem m).keyDown = s.keyDown := rfl
@[simp] theorem State.setMem_keyEdge (m : Memory) : (s.setMem m).keyEdge = s.keyEdge := rfl
@[simp] theorem State.setMem_run (m : Memory) : (s.setMem m).run = s.run := rfl
@[simp] theorem State.setMem_waitX (m : Memory) : (s.setMem m).waitX = s.waitX := rfl
@[simp] theorem State.setMem_errCode (m : Memory) : (s.setMem m).errCode = s.errCode := rfl
@[simp] theorem State.setMem_errInfo (m : Memory) : (s.setMem m).errInfo = s.errInfo := rfl
@[simp] theorem State.setMem_tNow (m : Memory) : (s.setMem m).tNow = s.tNow := rfl
@[simp] theorem State.setMem_tStep (m : Memory) : (s.setMem m).tStep = s.tStep := rfl
@[simp] theorem State.setMem_tTick (m : Memory) : (s.setMem m).tTick = s.tTick := rfl
@[simp] theorem State.setMem_rngPos (m : Memory) : (s.setMem m).rngPos = s.rngPos := rfl
@[simp] theorem State.setMem_rngSeed (m : Memory) : (s.setMem m).rngSeed = s.rngSeed := rfl
@[simp] theorem State.setMem_events (m : Memory) : (s.setMem m).events = s.events := rfl
@[simp] theorem State.setMem_stepResult (m : Memory) : (s.setMem m).stepResult = s.stepResult := rfl
@[simp] theorem State.setMem_reg (m : Memory) (q : Reg) : (s.setMem m).reg q = s.reg q := rfl

/-! ### `State.emit` -/

@[simp] theorem State.emit_mem (e : Event) : (s.emit e).mem = s.mem := rfl
@[simp] theorem State.emit_v (e : Event) : (s.emit e).v = s.v := rfl
@[simp] theorem State.emit_idx (e : Event) : (s.emit e).idx = s.idx := rfl
@[simp] theorem State.emit_pc (e : Event) : (s.emit e).pc = s.pc := rfl
@[simp] theorem State.emit_sp (e : Event) : (s.emit e).sp = s.sp := rfl
@[simp] theorem State.emit_stack (e : Event) : (s.emit e).stack = s.stack := rfl
@[simp] theorem State.emit_dt (e : Event) : (s.emit e).dt = s.dt := rfl
@[simp] theorem State.emit_st (e : Event) : (s.emit e).st = s.st := rfl
@[simp] theorem State.emit_fb (e : Event) : (s.emit e).fb = s.fb := rfl
@[simp] theorem State.emit_dirty (e : Event) : (s.emit e).dirty = s.dirty := rfl
@[simp] theorem State.emit_keyDown (e : Event) : (s.emit e).keyDown = s.keyDown := rfl
@[simp] theorem State.emit_keyEdge (e : Event) : (s.emit e).keyEdge = s.keyEdge := rfl
@[simp] theorem State.emit_run (e : Event) : (s.emit e).run = s.run := rfl
@[simp] theorem State.emit_waitX (e : Event) : (s.emit e).waitX = s.waitX := rfl
@[simp] theorem State.emit_errCode (e : Event) : (s.emit e).errCode = s.errCode := rfl
@[simp] theorem State.emit_errInfo (e : Event) : (s.emit e).errInfo = s.errInfo := rfl
@[simp] theorem State.emit_tNow (e : Event) : (s.emit e).tNow = s.tNow := rfl
@[simp] theorem State.emit_tStep (e : Event) : (s.emit e).tStep = s.tStep := rfl
@[simp] theorem State.emit_tTick (e : Event) : (s.emit e).tTick = s.tTick := rfl
@[simp] theorem State.emit_rngPos (e : Event) : (s.emit e).rngPos = s.rngPos := rfl
@[simp] theorem State.emit_rngSeed (e : Event) : (s.emit e).rngSeed = s.rngSeed := rfl
@[simp] theorem State.emit_events (e : Event) : (s.emit e).events = s.events ++ [e] := rfl
@[simp] theorem State.emit_stepResult (e : Event) : (s.emit e).stepResult = s.stepResult := rfl
@[simp] theorem State.emit_reg (e : Event) (q : Reg) : (s.emit e).reg q = s.reg q := rfl
@[simp] theorem State.emit_byteAt (e : Event) (k : Nat) : (s.emit e).byteAt k = s.byteAt k := rfl

/-! ### `State.beginTransaction` -/

@[simp] theorem State.beginTransaction_mem : s.beginTransaction.mem = s.mem := rfl
@[simp] theorem State.beginTransaction_v : s.beginTransaction.v = s.v := rfl
@[simp] theorem State.beginTransaction_idx : s.beginTransaction.idx = s.idx := rfl
@[simp] theorem State.beginTransaction_pc : s.beginTransaction.pc = s.pc := rfl
@[simp] theorem State.beginTransaction_sp : s.beginTransaction.sp = s.sp := rfl
@[simp] theorem State.beginTransaction_stack : s.beginTransaction.stack = s.stack := rfl
@[simp] theorem State.beginTransaction_dt : s.beginTransaction.dt = s.dt := rfl
@[simp] theorem State.beginTransaction_st : s.beginTransaction.st = s.st := rfl
@[simp] theorem State.beginTransaction_fb : s.beginTransaction.fb = s.fb := rfl
@[simp] theorem State.beginTransaction_dirty : s.beginTransaction.dirty = s.dirty := rfl
@[simp] theorem State.beginTransaction_keyDown : s.beginTransaction.keyDown = s.keyDown := rfl
@[simp] theorem State.beginTransaction_keyEdge : s.beginTransaction.keyEdge = s.keyEdge := rfl
@[simp] theorem State.beginTransaction_run : s.beginTransaction.run = s.run := rfl
@[simp] theorem State.beginTransaction_waitX : s.beginTransaction.waitX = s.waitX := rfl
@[simp] theorem State.beginTransaction_errCode : s.beginTransaction.errCode = s.errCode := rfl
@[simp] theorem State.beginTransaction_errInfo : s.beginTransaction.errInfo = s.errInfo := rfl
@[simp] theorem State.beginTransaction_tNow : s.beginTransaction.tNow = s.tNow := rfl
@[simp] theorem State.beginTransaction_tStep : s.beginTransaction.tStep = s.tStep := rfl
@[simp] theorem State.beginTransaction_tTick : s.beginTransaction.tTick = s.tTick := rfl
@[simp] theorem State.beginTransaction_rngPos : s.beginTransaction.rngPos = s.rngPos := rfl
@[simp] theorem State.beginTransaction_rngSeed : s.beginTransaction.rngSeed = s.rngSeed := rfl
@[simp] theorem State.beginTransaction_events : s.beginTransaction.events = [] := rfl
@[simp] theorem State.beginTransaction_stepResult : s.beginTransaction.stepResult = none := rfl
@[simp] theorem State.beginTransaction_reg (q : Reg) : s.beginTransaction.reg q = s.reg q := rfl
@[simp] theorem State.beginTransaction_byteAt (k : Nat) : s.beginTransaction.byteAt k = s.byteAt k := rfl

/-! ### `State.raise` -/

@[simp] theorem State.raise_mem (c : ErrCode) (i : Word) : (s.raise c i).mem = s.mem := rfl
@[simp] theorem State.raise_v (c : ErrCode) (i : Word) : (s.raise c i).v = s.v := rfl
@[simp] theorem State.raise_idx (c : ErrCode) (i : Word) : (s.raise c i).idx = s.idx := rfl
@[simp] theorem State.raise_pc (c : ErrCode) (i : Word) : (s.raise c i).pc = s.pc := rfl
@[simp] theorem State.raise_sp (c : ErrCode) (i : Word) : (s.raise c i).sp = s.sp := rfl
@[simp] theorem State.raise_stack (c : ErrCode) (i : Word) : (s.raise c i).stack = s.stack := rfl
@[simp] theorem State.raise_dt (c : ErrCode) (i : Word) : (s.raise c i).dt = s.dt := rfl
@[simp] theorem State.raise_st (c : ErrCode) (i : Word) : (s.raise c i).st = s.st := rfl
@[simp] theorem State.raise_fb (c : ErrCode) (i : Word) : (s.raise c i).fb = s.fb := rfl
@[simp] theorem State.raise_dirty (c : ErrCode) (i : Word) : (s.raise c i).dirty = s.dirty := rfl
@[simp] theorem State.raise_keyDown (c : ErrCode) (i : Word) : (s.raise c i).keyDown = s.keyDown := rfl
@[simp] theorem State.raise_keyEdge (c : ErrCode) (i : Word) : (s.raise c i).keyEdge = s.keyEdge := rfl
@[simp] theorem State.raise_run (c : ErrCode) (i : Word) : (s.raise c i).run = .halted := rfl
@[simp] theorem State.raise_waitX (c : ErrCode) (i : Word) : (s.raise c i).waitX = s.waitX := rfl
@[simp] theorem State.raise_errCode (c : ErrCode) (i : Word) : (s.raise c i).errCode = c := rfl
@[simp] theorem State.raise_errInfo (c : ErrCode) (i : Word) : (s.raise c i).errInfo = i := rfl
@[simp] theorem State.raise_tNow (c : ErrCode) (i : Word) : (s.raise c i).tNow = s.tNow := rfl
@[simp] theorem State.raise_tStep (c : ErrCode) (i : Word) : (s.raise c i).tStep = s.tStep := rfl
@[simp] theorem State.raise_tTick (c : ErrCode) (i : Word) : (s.raise c i).tTick = s.tTick := rfl
@[simp] theorem State.raise_rngPos (c : ErrCode) (i : Word) : (s.raise c i).rngPos = s.rngPos := rfl
@[simp] theorem State.raise_rngSeed (c : ErrCode) (i : Word) : (s.raise c i).rngSeed = s.rngSeed := rfl
@[simp] theorem State.raise_events (c : ErrCode) (i : Word) : (s.raise c i).events = s.events ++ [.error c i] := rfl
@[simp] theorem State.raise_stepResult (c : ErrCode) (i : Word) : (s.raise c i).stepResult = s.stepResult := rfl
@[simp] theorem State.raise_reg (c : ErrCode) (i : Word) (q : Reg) : (s.raise c i).reg q = s.reg q := rfl
@[simp] theorem State.raise_byteAt (c : ErrCode) (i : Word) (k : Nat) : (s.raise c i).byteAt k = s.byteAt k := rfl

/-! ### `State.clearEdges` -/

@[simp] theorem State.clearEdges_mem : s.clearEdges.mem = s.mem := rfl
@[simp] theorem State.clearEdges_v : s.clearEdges.v = s.v := rfl
@[simp] theorem State.clearEdges_idx : s.clearEdges.idx = s.idx := rfl
@[simp] theorem State.clearEdges_pc : s.clearEdges.pc = s.pc := rfl
@[simp] theorem State.clearEdges_sp : s.clearEdges.sp = s.sp := rfl
@[simp] theorem State.clearEdges_stack : s.clearEdges.stack = s.stack := rfl
@[simp] theorem State.clearEdges_dt : s.clearEdges.dt = s.dt := rfl
@[simp] theorem State.clearEdges_st : s.clearEdges.st = s.st := rfl
@[simp] theorem State.clearEdges_fb : s.clearEdges.fb = s.fb := rfl
@[simp] theorem State.clearEdges_dirty : s.clearEdges.dirty = s.dirty := rfl
@[simp] theorem State.clearEdges_keyDown : s.clearEdges.keyDown = s.keyDown := rfl
@[simp] theorem State.clearEdges_keyEdge : s.clearEdges.keyEdge = .replicate 16 false := rfl
@[simp] theorem State.clearEdges_run : s.clearEdges.run = s.run := rfl
@[simp] theorem State.clearEdges_waitX : s.clearEdges.waitX = s.waitX := rfl
@[simp] theorem State.clearEdges_errCode : s.clearEdges.errCode = s.errCode := rfl
@[simp] theorem State.clearEdges_errInfo : s.clearEdges.errInfo = s.errInfo := rfl
@[simp] theorem State.clearEdges_tNow : s.clearEdges.tNow = s.tNow := rfl
@[simp] theorem State.clearEdges_tStep : s.clearEdges.tStep = s.tStep := rfl
@[simp] theorem State.clearEdges_tTick : s.clearEdges.tTick = s.tTick := rfl
@[simp] theorem State.clearEdges_rngPos : s.clearEdges.rngPos = s.rngPos := rfl
@[simp] theorem State.clearEdges_rngSeed : s.clearEdges.rngSeed = s.rngSeed := rfl
@[simp] theorem State.clearEdges_events : s.clearEdges.events = s.events := rfl
@[simp] theorem State.clearEdges_stepResult : s.clearEdges.stepResult = s.stepResult := rfl
@[simp] theorem State.clearEdges_reg (q : Reg) : s.clearEdges.reg q = s.reg q := rfl
@[simp] theorem State.clearEdges_byteAt (k : Nat) : s.clearEdges.byteAt k = s.byteAt k := rfl

/-! ### `State.beginWait` -/

@[simp] theorem State.beginWait_mem (x : Reg) : (s.beginWait x).mem = s.mem := rfl
@[simp] theorem State.beginWait_v (x : Reg) : (s.beginWait x).v = s.v := rfl
@[simp] theorem State.beginWait_idx (x : Reg) : (s.beginWait x).idx = s.idx := rfl
@[simp] theorem State.beginWait_pc (x : Reg) : (s.beginWait x).pc = s.pc := rfl
@[simp] theorem State.beginWait_sp (x : Reg) : (s.beginWait x).sp = s.sp := rfl
@[simp] theorem State.beginWait_stack (x : Reg) : (s.beginWait x).stack = s.stack := rfl
@[simp] theorem State.beginWait_dt (x : Reg) : (s.beginWait x).dt = s.dt := rfl
@[simp] theorem State.beginWait_st (x : Reg) : (s.beginWait x).st = s.st := rfl
@[simp] theorem State.beginWait_fb (x : Reg) : (s.beginWait x).fb = s.fb := rfl
@[simp] theorem State.beginWait_dirty (x : Reg) : (s.beginWait x).dirty = s.dirty := rfl
@[simp] theorem State.beginWait_keyDown (x : Reg) : (s.beginWait x).keyDown = s.keyDown := rfl
@[simp] theorem State.beginWait_keyEdge (x : Reg) : (s.beginWait x).keyEdge = s.keyEdge := rfl
@[simp] theorem State.beginWait_run (x : Reg) : (s.beginWait x).run = .waiting := rfl
@[simp] theorem State.beginWait_waitX (x : Reg) : (s.beginWait x).waitX = x := rfl
@[simp] theorem State.beginWait_errCode (x : Reg) : (s.beginWait x).errCode = s.errCode := rfl
@[simp] theorem State.beginWait_errInfo (x : Reg) : (s.beginWait x).errInfo = s.errInfo := rfl
@[simp] theorem State.beginWait_tNow (x : Reg) : (s.beginWait x).tNow = s.tNow := rfl
@[simp] theorem State.beginWait_tStep (x : Reg) : (s.beginWait x).tStep = s.tStep := rfl
@[simp] theorem State.beginWait_tTick (x : Reg) : (s.beginWait x).tTick = s.tTick := rfl
@[simp] theorem State.beginWait_rngPos (x : Reg) : (s.beginWait x).rngPos = s.rngPos := rfl
@[simp] theorem State.beginWait_rngSeed (x : Reg) : (s.beginWait x).rngSeed = s.rngSeed := rfl
@[simp] theorem State.beginWait_events (x : Reg) : (s.beginWait x).events = s.events := rfl
@[simp] theorem State.beginWait_stepResult (x : Reg) : (s.beginWait x).stepResult = s.stepResult := rfl
@[simp] theorem State.beginWait_reg (x : Reg) (q : Reg) : (s.beginWait x).reg q = s.reg q := rfl
@[simp] theorem State.beginWait_byteAt (x : Reg) (k : Nat) : (s.beginWait x).byteAt k = s.byteAt k := rfl

/-! ### `State.endWait` -/

@[simp] theorem State.endWait_mem : s.endWait.mem = s.mem := rfl
@[simp] theorem State.endWait_v : s.endWait.v = s.v := rfl
@[simp] theorem State.endWait_idx : s.endWait.idx = s.idx := rfl
@[simp] theorem State.endWait_pc : s.endWait.pc = s.pc := rfl
@[simp] theorem State.endWait_sp : s.endWait.sp = s.sp := rfl
@[simp] theorem State.endWait_stack : s.endWait.stack = s.stack := rfl
@[simp] theorem State.endWait_dt : s.endWait.dt = s.dt := rfl
@[simp] theorem State.endWait_st : s.endWait.st = s.st := rfl
@[simp] theorem State.endWait_fb : s.endWait.fb = s.fb := rfl
@[simp] theorem State.endWait_dirty : s.endWait.dirty = s.dirty := rfl
@[simp] theorem State.endWait_keyDown : s.endWait.keyDown = s.keyDown := rfl
@[simp] theorem State.endWait_keyEdge : s.endWait.keyEdge = s.keyEdge := rfl
@[simp] theorem State.endWait_run : s.endWait.run = .running := rfl
@[simp] theorem State.endWait_waitX : s.endWait.waitX = s.waitX := rfl
@[simp] theorem State.endWait_errCode : s.endWait.errCode = s.errCode := rfl
@[simp] theorem State.endWait_errInfo : s.endWait.errInfo = s.errInfo := rfl
@[simp] theorem State.endWait_tNow : s.endWait.tNow = s.tNow := rfl
@[simp] theorem State.endWait_tStep : s.endWait.tStep = s.tStep := rfl
@[simp] theorem State.endWait_tTick : s.endWait.tTick = s.tTick := rfl
@[simp] theorem State.endWait_rngPos : s.endWait.rngPos = s.rngPos := rfl
@[simp] theorem State.endWait_rngSeed : s.endWait.rngSeed = s.rngSeed := rfl
@[simp] theorem State.endWait_events : s.endWait.events = s.events := rfl
@[simp] theorem State.endWait_stepResult : s.endWait.stepResult = s.stepResult := rfl
@[simp] theorem State.endWait_reg (q : Reg) : s.endWait.reg q = s.reg q := rfl
@[simp] theorem State.endWait_byteAt (k : Nat) : s.endWait.byteAt k = s.byteAt k := rfl

/-! ### `State.clearScreen` -/

@[simp] theorem State.clearScreen_mem : s.clearScreen.mem = s.mem := rfl
@[simp] theorem State.clearScreen_v : s.clearScreen.v = s.v := rfl
@[simp] theorem State.clearScreen_idx : s.clearScreen.idx = s.idx := rfl
@[simp] theorem State.clearScreen_pc : s.clearScreen.pc = s.pc := rfl
@[simp] theorem State.clearScreen_sp : s.clearScreen.sp = s.sp := rfl
@[simp] theorem State.clearScreen_stack : s.clearScreen.stack = s.stack := rfl
@[simp] theorem State.clearScreen_dt : s.clearScreen.dt = s.dt := rfl
@[simp] theorem State.clearScreen_st : s.clearScreen.st = s.st := rfl
@[simp] theorem State.clearScreen_fb : s.clearScreen.fb = Framebuffer.clear := rfl
@[simp] theorem State.clearScreen_dirty : s.clearScreen.dirty = true := rfl
@[simp] theorem State.clearScreen_keyDown : s.clearScreen.keyDown = s.keyDown := rfl
@[simp] theorem State.clearScreen_keyEdge : s.clearScreen.keyEdge = s.keyEdge := rfl
@[simp] theorem State.clearScreen_run : s.clearScreen.run = s.run := rfl
@[simp] theorem State.clearScreen_waitX : s.clearScreen.waitX = s.waitX := rfl
@[simp] theorem State.clearScreen_errCode : s.clearScreen.errCode = s.errCode := rfl
@[simp] theorem State.clearScreen_errInfo : s.clearScreen.errInfo = s.errInfo := rfl
@[simp] theorem State.clearScreen_tNow : s.clearScreen.tNow = s.tNow := rfl
@[simp] theorem State.clearScreen_tStep : s.clearScreen.tStep = s.tStep := rfl
@[simp] theorem State.clearScreen_tTick : s.clearScreen.tTick = s.tTick := rfl
@[simp] theorem State.clearScreen_rngPos : s.clearScreen.rngPos = s.rngPos := rfl
@[simp] theorem State.clearScreen_rngSeed : s.clearScreen.rngSeed = s.rngSeed := rfl
@[simp] theorem State.clearScreen_events : s.clearScreen.events = s.events := rfl
@[simp] theorem State.clearScreen_stepResult : s.clearScreen.stepResult = s.stepResult := rfl
@[simp] theorem State.clearScreen_reg (q : Reg) : s.clearScreen.reg q = s.reg q := rfl
@[simp] theorem State.clearScreen_byteAt (k : Nat) : s.clearScreen.byteAt k = s.byteAt k := rfl

/-! ### `State.pushEntry` -/

@[simp] theorem State.pushEntry_mem (h : s.sp.toNat < 16) (v : Word) : (s.pushEntry h v).mem = s.mem := rfl
@[simp] theorem State.pushEntry_v (h : s.sp.toNat < 16) (v : Word) : (s.pushEntry h v).v = s.v := rfl
@[simp] theorem State.pushEntry_idx (h : s.sp.toNat < 16) (v : Word) : (s.pushEntry h v).idx = s.idx := rfl
@[simp] theorem State.pushEntry_pc (h : s.sp.toNat < 16) (v : Word) : (s.pushEntry h v).pc = s.pc := rfl
@[simp] theorem State.pushEntry_sp (h : s.sp.toNat < 16) (v : Word) : (s.pushEntry h v).sp = s.sp + 1 := rfl
@[simp] theorem State.pushEntry_stack (h : s.sp.toNat < 16) (v : Word) : (s.pushEntry h v).stack = s.stack.set s.sp.toNat v := rfl
@[simp] theorem State.pushEntry_dt (h : s.sp.toNat < 16) (v : Word) : (s.pushEntry h v).dt = s.dt := rfl
@[simp] theorem State.pushEntry_st (h : s.sp.toNat < 16) (v : Word) : (s.pushEntry h v).st = s.st := rfl
@[simp] theorem State.pushEntry_fb (h : s.sp.toNat < 16) (v : Word) : (s.pushEntry h v).fb = s.fb := rfl
@[simp] theorem State.pushEntry_dirty (h : s.sp.toNat < 16) (v : Word) : (s.pushEntry h v).dirty = s.dirty := rfl
@[simp] theorem State.pushEntry_keyDown (h : s.sp.toNat < 16) (v : Word) : (s.pushEntry h v).keyDown = s.keyDown := rfl
@[simp] theorem State.pushEntry_keyEdge (h : s.sp.toNat < 16) (v : Word) : (s.pushEntry h v).keyEdge = s.keyEdge := rfl
@[simp] theorem State.pushEntry_run (h : s.sp.toNat < 16) (v : Word) : (s.pushEntry h v).run = s.run := rfl
@[simp] theorem State.pushEntry_waitX (h : s.sp.toNat < 16) (v : Word) : (s.pushEntry h v).waitX = s.waitX := rfl
@[simp] theorem State.pushEntry_errCode (h : s.sp.toNat < 16) (v : Word) : (s.pushEntry h v).errCode = s.errCode := rfl
@[simp] theorem State.pushEntry_errInfo (h : s.sp.toNat < 16) (v : Word) : (s.pushEntry h v).errInfo = s.errInfo := rfl
@[simp] theorem State.pushEntry_tNow (h : s.sp.toNat < 16) (v : Word) : (s.pushEntry h v).tNow = s.tNow := rfl
@[simp] theorem State.pushEntry_tStep (h : s.sp.toNat < 16) (v : Word) : (s.pushEntry h v).tStep = s.tStep := rfl
@[simp] theorem State.pushEntry_tTick (h : s.sp.toNat < 16) (v : Word) : (s.pushEntry h v).tTick = s.tTick := rfl
@[simp] theorem State.pushEntry_rngPos (h : s.sp.toNat < 16) (v : Word) : (s.pushEntry h v).rngPos = s.rngPos := rfl
@[simp] theorem State.pushEntry_rngSeed (h : s.sp.toNat < 16) (v : Word) : (s.pushEntry h v).rngSeed = s.rngSeed := rfl
@[simp] theorem State.pushEntry_events (h : s.sp.toNat < 16) (v : Word) : (s.pushEntry h v).events = s.events := rfl
@[simp] theorem State.pushEntry_stepResult (h : s.sp.toNat < 16) (v : Word) : (s.pushEntry h v).stepResult = s.stepResult := rfl
@[simp] theorem State.pushEntry_reg (h : s.sp.toNat < 16) (v : Word) (q : Reg) : (s.pushEntry h v).reg q = s.reg q := rfl
@[simp] theorem State.pushEntry_byteAt (h : s.sp.toNat < 16) (v : Word) (k : Nat) : (s.pushEntry h v).byteAt k = s.byteAt k := rfl

/-! ### `State.popEntry` -/

@[simp] theorem State.popEntry_mem (h : s.sp.toNat - 1 < 16) : (s.popEntry h).mem = s.mem := rfl
@[simp] theorem State.popEntry_v (h : s.sp.toNat - 1 < 16) : (s.popEntry h).v = s.v := rfl
@[simp] theorem State.popEntry_idx (h : s.sp.toNat - 1 < 16) : (s.popEntry h).idx = s.idx := rfl
@[simp] theorem State.popEntry_pc (h : s.sp.toNat - 1 < 16) : (s.popEntry h).pc = s.stack[s.sp.toNat - 1] := rfl
@[simp] theorem State.popEntry_sp (h : s.sp.toNat - 1 < 16) : (s.popEntry h).sp = s.sp - 1 := rfl
@[simp] theorem State.popEntry_stack (h : s.sp.toNat - 1 < 16) : (s.popEntry h).stack = s.stack := rfl
@[simp] theorem State.popEntry_dt (h : s.sp.toNat - 1 < 16) : (s.popEntry h).dt = s.dt := rfl
@[simp] theorem State.popEntry_st (h : s.sp.toNat - 1 < 16) : (s.popEntry h).st = s.st := rfl
@[simp] theorem State.popEntry_fb (h : s.sp.toNat - 1 < 16) : (s.popEntry h).fb = s.fb := rfl
@[simp] theorem State.popEntry_dirty (h : s.sp.toNat - 1 < 16) : (s.popEntry h).dirty = s.dirty := rfl
@[simp] theorem State.popEntry_keyDown (h : s.sp.toNat - 1 < 16) : (s.popEntry h).keyDown = s.keyDown := rfl
@[simp] theorem State.popEntry_keyEdge (h : s.sp.toNat - 1 < 16) : (s.popEntry h).keyEdge = s.keyEdge := rfl
@[simp] theorem State.popEntry_run (h : s.sp.toNat - 1 < 16) : (s.popEntry h).run = s.run := rfl
@[simp] theorem State.popEntry_waitX (h : s.sp.toNat - 1 < 16) : (s.popEntry h).waitX = s.waitX := rfl
@[simp] theorem State.popEntry_errCode (h : s.sp.toNat - 1 < 16) : (s.popEntry h).errCode = s.errCode := rfl
@[simp] theorem State.popEntry_errInfo (h : s.sp.toNat - 1 < 16) : (s.popEntry h).errInfo = s.errInfo := rfl
@[simp] theorem State.popEntry_tNow (h : s.sp.toNat - 1 < 16) : (s.popEntry h).tNow = s.tNow := rfl
@[simp] theorem State.popEntry_tStep (h : s.sp.toNat - 1 < 16) : (s.popEntry h).tStep = s.tStep := rfl
@[simp] theorem State.popEntry_tTick (h : s.sp.toNat - 1 < 16) : (s.popEntry h).tTick = s.tTick := rfl
@[simp] theorem State.popEntry_rngPos (h : s.sp.toNat - 1 < 16) : (s.popEntry h).rngPos = s.rngPos := rfl
@[simp] theorem State.popEntry_rngSeed (h : s.sp.toNat - 1 < 16) : (s.popEntry h).rngSeed = s.rngSeed := rfl
@[simp] theorem State.popEntry_events (h : s.sp.toNat - 1 < 16) : (s.popEntry h).events = s.events := rfl
@[simp] theorem State.popEntry_stepResult (h : s.sp.toNat - 1 < 16) : (s.popEntry h).stepResult = s.stepResult := rfl
@[simp] theorem State.popEntry_reg (h : s.sp.toNat - 1 < 16) (q : Reg) : (s.popEntry h).reg q = s.reg q := rfl
@[simp] theorem State.popEntry_byteAt (h : s.sp.toNat - 1 < 16) (k : Nat) : (s.popEntry h).byteAt k = s.byteAt k := rfl

/-! ### `State.advanceRng` -/

@[simp] theorem State.advanceRng_mem : s.advanceRng.mem = s.mem := rfl
@[simp] theorem State.advanceRng_v : s.advanceRng.v = s.v := rfl
@[simp] theorem State.advanceRng_idx : s.advanceRng.idx = s.idx := rfl
@[simp] theorem State.advanceRng_pc : s.advanceRng.pc = s.pc := rfl
@[simp] theorem State.advanceRng_sp : s.advanceRng.sp = s.sp := rfl
@[simp] theorem State.advanceRng_stack : s.advanceRng.stack = s.stack := rfl
@[simp] theorem State.advanceRng_dt : s.advanceRng.dt = s.dt := rfl
@[simp] theorem State.advanceRng_st : s.advanceRng.st = s.st := rfl
@[simp] theorem State.advanceRng_fb : s.advanceRng.fb = s.fb := rfl
@[simp] theorem State.advanceRng_dirty : s.advanceRng.dirty = s.dirty := rfl
@[simp] theorem State.advanceRng_keyDown : s.advanceRng.keyDown = s.keyDown := rfl
@[simp] theorem State.advanceRng_keyEdge : s.advanceRng.keyEdge = s.keyEdge := rfl
@[simp] theorem State.advanceRng_run : s.advanceRng.run = s.run := rfl
@[simp] theorem State.advanceRng_waitX : s.advanceRng.waitX = s.waitX := rfl
@[simp] theorem State.advanceRng_errCode : s.advanceRng.errCode = s.errCode := rfl
@[simp] theorem State.advanceRng_errInfo : s.advanceRng.errInfo = s.errInfo := rfl
@[simp] theorem State.advanceRng_tNow : s.advanceRng.tNow = s.tNow := rfl
@[simp] theorem State.advanceRng_tStep : s.advanceRng.tStep = s.tStep := rfl
@[simp] theorem State.advanceRng_tTick : s.advanceRng.tTick = s.tTick := rfl
@[simp] theorem State.advanceRng_rngPos : s.advanceRng.rngPos = s.rngPos + 1 := rfl
@[simp] theorem State.advanceRng_rngSeed : s.advanceRng.rngSeed = s.rngSeed := rfl
@[simp] theorem State.advanceRng_events : s.advanceRng.events = s.events := rfl
@[simp] theorem State.advanceRng_stepResult : s.advanceRng.stepResult = s.stepResult := rfl
@[simp] theorem State.advanceRng_reg (q : Reg) : s.advanceRng.reg q = s.reg q := rfl
@[simp] theorem State.advanceRng_byteAt (k : Nat) : s.advanceRng.byteAt k = s.byteAt k := rfl

/-! ### `State.setCanvas` -/

@[simp] theorem State.setCanvas_mem (c : Canvas) : (s.setCanvas c).mem = s.mem := rfl
@[simp] theorem State.setCanvas_v (c : Canvas) : (s.setCanvas c).v = s.v.set flagReg.val (flagByte c.collision) := rfl
@[simp] theorem State.setCanvas_idx (c : Canvas) : (s.setCanvas c).idx = s.idx := rfl
@[simp] theorem State.setCanvas_pc (c : Canvas) : (s.setCanvas c).pc = s.pc := rfl
@[simp] theorem State.setCanvas_sp (c : Canvas) : (s.setCanvas c).sp = s.sp := rfl
@[simp] theorem State.setCanvas_stack (c : Canvas) : (s.setCanvas c).stack = s.stack := rfl
@[simp] theorem State.setCanvas_dt (c : Canvas) : (s.setCanvas c).dt = s.dt := rfl
@[simp] theorem State.setCanvas_st (c : Canvas) : (s.setCanvas c).st = s.st := rfl
@[simp] theorem State.setCanvas_fb (c : Canvas) : (s.setCanvas c).fb = c.fb := rfl
@[simp] theorem State.setCanvas_dirty (c : Canvas) : (s.setCanvas c).dirty = (s.dirty || c.changed) := rfl
@[simp] theorem State.setCanvas_keyDown (c : Canvas) : (s.setCanvas c).keyDown = s.keyDown := rfl
@[simp] theorem State.setCanvas_keyEdge (c : Canvas) : (s.setCanvas c).keyEdge = s.keyEdge := rfl
@[simp] theorem State.setCanvas_run (c : Canvas) : (s.setCanvas c).run = s.run := rfl
@[simp] theorem State.setCanvas_waitX (c : Canvas) : (s.setCanvas c).waitX = s.waitX := rfl
@[simp] theorem State.setCanvas_errCode (c : Canvas) : (s.setCanvas c).errCode = s.errCode := rfl
@[simp] theorem State.setCanvas_errInfo (c : Canvas) : (s.setCanvas c).errInfo = s.errInfo := rfl
@[simp] theorem State.setCanvas_tNow (c : Canvas) : (s.setCanvas c).tNow = s.tNow := rfl
@[simp] theorem State.setCanvas_tStep (c : Canvas) : (s.setCanvas c).tStep = s.tStep := rfl
@[simp] theorem State.setCanvas_tTick (c : Canvas) : (s.setCanvas c).tTick = s.tTick := rfl
@[simp] theorem State.setCanvas_rngPos (c : Canvas) : (s.setCanvas c).rngPos = s.rngPos := rfl
@[simp] theorem State.setCanvas_rngSeed (c : Canvas) : (s.setCanvas c).rngSeed = s.rngSeed := rfl
@[simp] theorem State.setCanvas_events (c : Canvas) : (s.setCanvas c).events = s.events := rfl
@[simp] theorem State.setCanvas_stepResult (c : Canvas) : (s.setCanvas c).stepResult = s.stepResult := rfl
@[simp] theorem State.setCanvas_byteAt (c : Canvas) (k : Nat) : (s.setCanvas c).byteAt k = s.byteAt k := rfl

/-! ### `State.powerOn` -/

@[simp] theorem State.powerOn_mem : s.powerOn.mem = s.mem := rfl
@[simp] theorem State.powerOn_v : s.powerOn.v = s.v := rfl
@[simp] theorem State.powerOn_idx : s.powerOn.idx = s.idx := rfl
@[simp] theorem State.powerOn_pc : s.powerOn.pc = s.pc := rfl
@[simp] theorem State.powerOn_sp : s.powerOn.sp = s.sp := rfl
@[simp] theorem State.powerOn_stack : s.powerOn.stack = s.stack := rfl
@[simp] theorem State.powerOn_dt : s.powerOn.dt = s.dt := rfl
@[simp] theorem State.powerOn_st : s.powerOn.st = s.st := rfl
@[simp] theorem State.powerOn_fb : s.powerOn.fb = s.fb := rfl
@[simp] theorem State.powerOn_dirty : s.powerOn.dirty = s.dirty := rfl
@[simp] theorem State.powerOn_keyDown : s.powerOn.keyDown = s.keyDown := rfl
@[simp] theorem State.powerOn_keyEdge : s.powerOn.keyEdge = s.keyEdge := rfl
@[simp] theorem State.powerOn_run : s.powerOn.run = .stopped := rfl
@[simp] theorem State.powerOn_waitX : s.powerOn.waitX = s.waitX := rfl
@[simp] theorem State.powerOn_errCode : s.powerOn.errCode = s.errCode := rfl
@[simp] theorem State.powerOn_errInfo : s.powerOn.errInfo = s.errInfo := rfl
@[simp] theorem State.powerOn_tNow : s.powerOn.tNow = s.tNow := rfl
@[simp] theorem State.powerOn_tStep : s.powerOn.tStep = s.tStep := rfl
@[simp] theorem State.powerOn_tTick : s.powerOn.tTick = s.tTick := rfl
@[simp] theorem State.powerOn_rngPos : s.powerOn.rngPos = s.rngPos := rfl
@[simp] theorem State.powerOn_rngSeed : s.powerOn.rngSeed = s.rngSeed := rfl
@[simp] theorem State.powerOn_events : s.powerOn.events = [] := rfl
@[simp] theorem State.powerOn_stepResult : s.powerOn.stepResult = none := rfl
@[simp] theorem State.powerOn_reg (q : Reg) : s.powerOn.reg q = s.reg q := rfl
@[simp] theorem State.powerOn_byteAt (k : Nat) : s.powerOn.byteAt k = s.byteAt k := rfl

/-! ### `State.skipIf`: what it leaves as it was -/

@[simp] theorem State.skipIf_mem (c : Bool) : (s.skipIf c).mem = s.mem := by
  unfold State.skipIf; split <;> rfl
@[simp] theorem State.skipIf_v (c : Bool) : (s.skipIf c).v = s.v := by
  unfold State.skipIf; split <;> rfl
@[simp] theorem State.skipIf_idx (c : Bool) : (s.skipIf c).idx = s.idx := by
  unfold State.skipIf; split <;> rfl
@[simp] theorem State.skipIf_sp (c : Bool) : (s.skipIf c).sp = s.sp := by
  unfold State.skipIf; split <;> rfl
@[simp] theorem State.skipIf_stack (c : Bool) : (s.skipIf c).stack = s.stack := by
  unfold State.skipIf; split <;> rfl
@[simp] theorem State.skipIf_dt (c : Bool) : (s.skipIf c).dt = s.dt := by
  unfold State.skipIf; split <;> rfl
@[simp] theorem State.skipIf_st (c : Bool) : (s.skipIf c).st = s.st := by
  unfold State.skipIf; split <;> rfl
@[simp] theorem State.skipIf_fb (c : Bool) : (s.skipIf c).fb = s.fb := by
  unfold State.skipIf; split <;> rfl
@[simp] theorem State.skipIf_dirty (c : Bool) : (s.skipIf c).dirty = s.dirty := by
  unfold State.skipIf; split <;> rfl
@[simp] theorem State.skipIf_keyDown (c : Bool) : (s.skipIf c).keyDown = s.keyDown := by
  unfold State.skipIf; split <;> rfl
@[simp] theorem State.skipIf_keyEdge (c : Bool) : (s.skipIf c).keyEdge = s.keyEdge := by
  unfold State.skipIf; split <;> rfl
@[simp] theorem State.skipIf_run (c : Bool) : (s.skipIf c).run = s.run := by
  unfold State.skipIf; split <;> rfl
@[simp] theorem State.skipIf_waitX (c : Bool) : (s.skipIf c).waitX = s.waitX := by
  unfold State.skipIf; split <;> rfl
@[simp] theorem State.skipIf_errCode (c : Bool) : (s.skipIf c).errCode = s.errCode := by
  unfold State.skipIf; split <;> rfl
@[simp] theorem State.skipIf_errInfo (c : Bool) : (s.skipIf c).errInfo = s.errInfo := by
  unfold State.skipIf; split <;> rfl
@[simp] theorem State.skipIf_tNow (c : Bool) : (s.skipIf c).tNow = s.tNow := by
  unfold State.skipIf; split <;> rfl
@[simp] theorem State.skipIf_tStep (c : Bool) : (s.skipIf c).tStep = s.tStep := by
  unfold State.skipIf; split <;> rfl
@[simp] theorem State.skipIf_tTick (c : Bool) : (s.skipIf c).tTick = s.tTick := by
  unfold State.skipIf; split <;> rfl
@[simp] theorem State.skipIf_rngPos (c : Bool) : (s.skipIf c).rngPos = s.rngPos := by
  unfold State.skipIf; split <;> rfl
@[simp] theorem State.skipIf_rngSeed (c : Bool) : (s.skipIf c).rngSeed = s.rngSeed := by
  unfold State.skipIf; split <;> rfl
@[simp] theorem State.skipIf_events (c : Bool) : (s.skipIf c).events = s.events := by
  unfold State.skipIf; split <;> rfl
@[simp] theorem State.skipIf_stepResult (c : Bool) : (s.skipIf c).stepResult = s.stepResult := by
  unfold State.skipIf; split <;> rfl
@[simp] theorem State.skipIf_reg (c : Bool) (q : Reg) : (s.skipIf c).reg q = s.reg q := by
  simp [State.reg]
@[simp] theorem State.skipIf_byteAt (c : Bool) (k : Nat) : (s.skipIf c).byteAt k = s.byteAt k := by
  simp [State.byteAt]

/-! ### `State.setAluResult`: what it leaves as it was -/

@[simp] theorem State.setAluResult_mem (x : Reg) (r : AluResult) : (s.setAluResult x r).mem = s.mem := by
  unfold State.setAluResult; split <;> rfl
@[simp] theorem State.setAluResult_idx (x : Reg) (r : AluResult) : (s.setAluResult x r).idx = s.idx := by
  unfold State.setAluResult; split <;> rfl
@[simp] theorem State.setAluResult_pc (x : Reg) (r : AluResult) : (s.setAluResult x r).pc = s.pc := by
  unfold State.setAluResult; split <;> rfl
@[simp] theorem State.setAluResult_sp (x : Reg) (r : AluResult) : (s.setAluResult x r).sp = s.sp := by
  unfold State.setAluResult; split <;> rfl
@[simp] theorem State.setAluResult_stack (x : Reg) (r : AluResult) : (s.setAluResult x r).stack = s.stack := by
  unfold State.setAluResult; split <;> rfl
@[simp] theorem State.setAluResult_dt (x : Reg) (r : AluResult) : (s.setAluResult x r).dt = s.dt := by
  unfold State.setAluResult; split <;> rfl
@[simp] theorem State.setAluResult_st (x : Reg) (r : AluResult) : (s.setAluResult x r).st = s.st := by
  unfold State.setAluResult; split <;> rfl
@[simp] theorem State.setAluResult_fb (x : Reg) (r : AluResult) : (s.setAluResult x r).fb = s.fb := by
  unfold State.setAluResult; split <;> rfl
@[simp] theorem State.setAluResult_dirty (x : Reg) (r : AluResult) : (s.setAluResult x r).dirty = s.dirty := by
  unfold State.setAluResult; split <;> rfl
@[simp] theorem State.setAluResult_keyDown (x : Reg) (r : AluResult) : (s.setAluResult x r).keyDown = s.keyDown := by
  unfold State.setAluResult; split <;> rfl
@[simp] theorem State.setAluResult_keyEdge (x : Reg) (r : AluResult) : (s.setAluResult x r).keyEdge = s.keyEdge := by
  unfold State.setAluResult; split <;> rfl
@[simp] theorem State.setAluResult_run (x : Reg) (r : AluResult) : (s.setAluResult x r).run = s.run := by
  unfold State.setAluResult; split <;> rfl
@[simp] theorem State.setAluResult_waitX (x : Reg) (r : AluResult) : (s.setAluResult x r).waitX = s.waitX := by
  unfold State.setAluResult; split <;> rfl
@[simp] theorem State.setAluResult_errCode (x : Reg) (r : AluResult) : (s.setAluResult x r).errCode = s.errCode := by
  unfold State.setAluResult; split <;> rfl
@[simp] theorem State.setAluResult_errInfo (x : Reg) (r : AluResult) : (s.setAluResult x r).errInfo = s.errInfo := by
  unfold State.setAluResult; split <;> rfl
@[simp] theorem State.setAluResult_tNow (x : Reg) (r : AluResult) : (s.setAluResult x r).tNow = s.tNow := by
  unfold State.setAluResult; split <;> rfl
@[simp] theorem State.setAluResult_tStep (x : Reg) (r : AluResult) : (s.setAluResult x r).tStep = s.tStep := by
  unfold State.setAluResult; split <;> rfl
@[simp] theorem State.setAluResult_tTick (x : Reg) (r : AluResult) : (s.setAluResult x r).tTick = s.tTick := by
  unfold State.setAluResult; split <;> rfl
@[simp] theorem State.setAluResult_rngPos (x : Reg) (r : AluResult) : (s.setAluResult x r).rngPos = s.rngPos := by
  unfold State.setAluResult; split <;> rfl
@[simp] theorem State.setAluResult_rngSeed (x : Reg) (r : AluResult) : (s.setAluResult x r).rngSeed = s.rngSeed := by
  unfold State.setAluResult; split <;> rfl
@[simp] theorem State.setAluResult_events (x : Reg) (r : AluResult) : (s.setAluResult x r).events = s.events := by
  unfold State.setAluResult; split <;> rfl
@[simp] theorem State.setAluResult_stepResult (x : Reg) (r : AluResult) : (s.setAluResult x r).stepResult = s.stepResult := by
  unfold State.setAluResult; split <;> rfl
@[simp] theorem State.setAluResult_byteAt (x : Reg) (r : AluResult) (k : Nat) : (s.setAluResult x r).byteAt k = s.byteAt k := by
  simp [State.byteAt]

/-! ### `State.beepIfSounding`: what it leaves as it was -/

@[simp] theorem State.beepIfSounding_mem : s.beepIfSounding.mem = s.mem := by
  unfold State.beepIfSounding; split <;> rfl
@[simp] theorem State.beepIfSounding_v : s.beepIfSounding.v = s.v := by
  unfold State.beepIfSounding; split <;> rfl
@[simp] theorem State.beepIfSounding_idx : s.beepIfSounding.idx = s.idx := by
  unfold State.beepIfSounding; split <;> rfl
@[simp] theorem State.beepIfSounding_pc : s.beepIfSounding.pc = s.pc := by
  unfold State.beepIfSounding; split <;> rfl
@[simp] theorem State.beepIfSounding_sp : s.beepIfSounding.sp = s.sp := by
  unfold State.beepIfSounding; split <;> rfl
@[simp] theorem State.beepIfSounding_stack : s.beepIfSounding.stack = s.stack := by
  unfold State.beepIfSounding; split <;> rfl
@[simp] theorem State.beepIfSounding_dt : s.beepIfSounding.dt = s.dt := by
  unfold State.beepIfSounding; split <;> rfl
@[simp] theorem State.beepIfSounding_st : s.beepIfSounding.st = s.st := by
  unfold State.beepIfSounding; split <;> rfl
@[simp] theorem State.beepIfSounding_fb : s.beepIfSounding.fb = s.fb := by
  unfold State.beepIfSounding; split <;> rfl
@[simp] theorem State.beepIfSounding_dirty : s.beepIfSounding.dirty = s.dirty := by
  unfold State.beepIfSounding; split <;> rfl
@[simp] theorem State.beepIfSounding_keyDown : s.beepIfSounding.keyDown = s.keyDown := by
  unfold State.beepIfSounding; split <;> rfl
@[simp] theorem State.beepIfSounding_keyEdge : s.beepIfSounding.keyEdge = s.keyEdge := by
  unfold State.beepIfSounding; split <;> rfl
@[simp] theorem State.beepIfSounding_run : s.beepIfSounding.run = s.run := by
  unfold State.beepIfSounding; split <;> rfl
@[simp] theorem State.beepIfSounding_waitX : s.beepIfSounding.waitX = s.waitX := by
  unfold State.beepIfSounding; split <;> rfl
@[simp] theorem State.beepIfSounding_errCode : s.beepIfSounding.errCode = s.errCode := by
  unfold State.beepIfSounding; split <;> rfl
@[simp] theorem State.beepIfSounding_errInfo : s.beepIfSounding.errInfo = s.errInfo := by
  unfold State.beepIfSounding; split <;> rfl
@[simp] theorem State.beepIfSounding_tNow : s.beepIfSounding.tNow = s.tNow := by
  unfold State.beepIfSounding; split <;> rfl
@[simp] theorem State.beepIfSounding_tStep : s.beepIfSounding.tStep = s.tStep := by
  unfold State.beepIfSounding; split <;> rfl
@[simp] theorem State.beepIfSounding_tTick : s.beepIfSounding.tTick = s.tTick := by
  unfold State.beepIfSounding; split <;> rfl
@[simp] theorem State.beepIfSounding_rngPos : s.beepIfSounding.rngPos = s.rngPos := by
  unfold State.beepIfSounding; split <;> rfl
@[simp] theorem State.beepIfSounding_rngSeed : s.beepIfSounding.rngSeed = s.rngSeed := by
  unfold State.beepIfSounding; split <;> rfl
@[simp] theorem State.beepIfSounding_stepResult : s.beepIfSounding.stepResult = s.stepResult := by
  unfold State.beepIfSounding; split <;> rfl
@[simp] theorem State.beepIfSounding_reg (q : Reg) : s.beepIfSounding.reg q = s.reg q := by
  simp [State.reg]
@[simp] theorem State.beepIfSounding_byteAt (k : Nat) : s.beepIfSounding.byteAt k = s.byteAt k := by
  simp [State.byteAt]

/-! ### `State.renderIfDirty`: what it leaves as it was -/

@[simp] theorem State.renderIfDirty_mem : s.renderIfDirty.mem = s.mem := by
  unfold State.renderIfDirty; split <;> rfl
@[simp] theorem State.renderIfDirty_v : s.renderIfDirty.v = s.v := by
  unfold State.renderIfDirty; split <;> rfl
@[simp] theorem State.renderIfDirty_idx : s.renderIfDirty.idx = s.idx := by
  unfold State.renderIfDirty; split <;> rfl
@[simp] theorem State.renderIfDirty_pc : s.renderIfDirty.pc = s.pc := by
  unfold State.renderIfDirty; split <;> rfl
@[simp] theorem State.renderIfDirty_sp : s.renderIfDirty.sp = s.sp := by
  unfold State.renderIfDirty; split <;> rfl
@[simp] theorem State.renderIfDirty_stack : s.renderIfDirty.stack = s.stack := by
  unfold State.renderIfDirty; split <;> rfl
@[simp] theorem State.renderIfDirty_dt : s.renderIfDirty.dt = s.dt := by
  unfold State.renderIfDirty; split <;> rfl
@[simp] theorem State.renderIfDirty_st : s.renderIfDirty.st = s.st := by
  unfold State.renderIfDirty; split <;> rfl
@[simp] theorem State.renderIfDirty_fb : s.renderIfDirty.fb = s.fb := by
  unfold State.renderIfDirty; split <;> rfl
@[simp] theorem State.renderIfDirty_keyDown : s.renderIfDirty.keyDown = s.keyDown := by
  unfold State.renderIfDirty; split <;> rfl
@[simp] theorem State.renderIfDirty_keyEdge : s.renderIfDirty.keyEdge = s.keyEdge := by
  unfold State.renderIfDirty; split <;> rfl
@[simp] theorem State.renderIfDirty_run : s.renderIfDirty.run = s.run := by
  unfold State.renderIfDirty; split <;> rfl
@[simp] theorem State.renderIfDirty_waitX : s.renderIfDirty.waitX = s.waitX := by
  unfold State.renderIfDirty; split <;> rfl
@[simp] theorem State.renderIfDirty_errCode : s.renderIfDirty.errCode = s.errCode := by
  unfold State.renderIfDirty; split <;> rfl
@[simp] theorem State.renderIfDirty_errInfo : s.renderIfDirty.errInfo = s.errInfo := by
  unfold State.renderIfDirty; split <;> rfl
@[simp] theorem State.renderIfDirty_tNow : s.renderIfDirty.tNow = s.tNow := by
  unfold State.renderIfDirty; split <;> rfl
@[simp] theorem State.renderIfDirty_tStep : s.renderIfDirty.tStep = s.tStep := by
  unfold State.renderIfDirty; split <;> rfl
@[simp] theorem State.renderIfDirty_tTick : s.renderIfDirty.tTick = s.tTick := by
  unfold State.renderIfDirty; split <;> rfl
@[simp] theorem State.renderIfDirty_rngPos : s.renderIfDirty.rngPos = s.rngPos := by
  unfold State.renderIfDirty; split <;> rfl
@[simp] theorem State.renderIfDirty_rngSeed : s.renderIfDirty.rngSeed = s.rngSeed := by
  unfold State.renderIfDirty; split <;> rfl
@[simp] theorem State.renderIfDirty_stepResult : s.renderIfDirty.stepResult = s.stepResult := by
  unfold State.renderIfDirty; split <;> rfl
@[simp] theorem State.renderIfDirty_reg (q : Reg) : s.renderIfDirty.reg q = s.reg q := by
  simp [State.reg]
@[simp] theorem State.renderIfDirty_byteAt (k : Nat) : s.renderIfDirty.byteAt k = s.byteAt k := by
  simp [State.byteAt]

/-! ### `State.timerTick`: what it leaves as it was -/

@[simp] theorem State.timerTick_mem : s.timerTick.mem = s.mem := by
  simp [State.timerTick]
@[simp] theorem State.timerTick_v : s.timerTick.v = s.v := by
  simp [State.timerTick]
@[simp] theorem State.timerTick_idx : s.timerTick.idx = s.idx := by
  simp [State.timerTick]
@[simp] theorem State.timerTick_pc : s.timerTick.pc = s.pc := by
  simp [State.timerTick]
@[simp] theorem State.timerTick_sp : s.timerTick.sp = s.sp := by
  simp [State.timerTick]
@[simp] theorem State.timerTick_stack : s.timerTick.stack = s.stack := by
  simp [State.timerTick]
@[simp] theorem State.timerTick_fb : s.timerTick.fb = s.fb := by
  simp [State.timerTick]
@[simp] theorem State.timerTick_dirty : s.timerTick.dirty = s.dirty := by
  simp [State.timerTick]
@[simp] theorem State.timerTick_keyDown : s.timerTick.keyDown = s.keyDown := by
  simp [State.timerTick]
@[simp] theorem State.timerTick_keyEdge : s.timerTick.keyEdge = s.keyEdge := by
  simp [State.timerTick]
@[simp] theorem State.timerTick_run : s.timerTick.run = s.run := by
  simp [State.timerTick]
@[simp] theorem State.timerTick_waitX : s.timerTick.waitX = s.waitX := by
  simp [State.timerTick]
@[simp] theorem State.timerTick_errCode : s.timerTick.errCode = s.errCode := by
  simp [State.timerTick]
@[simp] theorem State.timerTick_errInfo : s.timerTick.errInfo = s.errInfo := by
  simp [State.timerTick]
@[simp] theorem State.timerTick_tNow : s.timerTick.tNow = s.tNow := by
  simp [State.timerTick]
@[simp] theorem State.timerTick_tStep : s.timerTick.tStep = s.tStep := by
  simp [State.timerTick]
@[simp] theorem State.timerTick_tTick : s.timerTick.tTick = s.tTick := by
  simp [State.timerTick]
@[simp] theorem State.timerTick_rngPos : s.timerTick.rngPos = s.rngPos := by
  simp [State.timerTick]
@[simp] theorem State.timerTick_rngSeed : s.timerTick.rngSeed = s.rngSeed := by
  simp [State.timerTick]
@[simp] theorem State.timerTick_stepResult : s.timerTick.stepResult = s.stepResult := by
  simp [State.timerTick]
@[simp] theorem State.timerTick_reg (q : Reg) : s.timerTick.reg q = s.reg q := by
  simp [State.reg]
@[simp] theorem State.timerTick_byteAt (k : Nat) : s.timerTick.byteAt k = s.byteAt k := by
  simp [State.byteAt]

/-! ### `State.endStep`: what it leaves as it was -/

@[simp] theorem State.endStep_mem : s.endStep.mem = s.mem := by
  simp [State.endStep]
@[simp] theorem State.endStep_v : s.endStep.v = s.v := by
  simp [State.endStep]
@[simp] theorem State.endStep_idx : s.endStep.idx = s.idx := by
  simp [State.endStep]
@[simp] theorem State.endStep_pc : s.endStep.pc = s.pc := by
  simp [State.endStep]
@[simp] theorem State.endStep_sp : s.endStep.sp = s.sp := by
  simp [State.endStep]
@[simp] theorem State.endStep_stack : s.endStep.stack = s.stack := by
  simp [State.endStep]
@[simp] theorem State.endStep_dt : s.endStep.dt = s.dt := by
  simp [State.endStep]
@[simp] theorem State.endStep_st : s.endStep.st = s.st := by
  simp [State.endStep]
@[simp] theorem State.endStep_fb : s.endStep.fb = s.fb := by
  simp [State.endStep]
@[simp] theorem State.endStep_keyDown : s.endStep.keyDown = s.keyDown := by
  simp [State.endStep]
@[simp] theorem State.endStep_keyEdge : s.endStep.keyEdge = s.keyEdge := by
  simp [State.endStep]
@[simp] theorem State.endStep_run : s.endStep.run = s.run := by
  simp [State.endStep]
@[simp] theorem State.endStep_waitX : s.endStep.waitX = s.waitX := by
  simp [State.endStep]
@[simp] theorem State.endStep_errCode : s.endStep.errCode = s.errCode := by
  simp [State.endStep]
@[simp] theorem State.endStep_errInfo : s.endStep.errInfo = s.errInfo := by
  simp [State.endStep]
@[simp] theorem State.endStep_tNow : s.endStep.tNow = s.tNow := by
  simp [State.endStep]
@[simp] theorem State.endStep_tStep : s.endStep.tStep = s.tStep := by
  simp [State.endStep]
@[simp] theorem State.endStep_tTick : s.endStep.tTick = s.tTick := by
  simp [State.endStep]
@[simp] theorem State.endStep_rngPos : s.endStep.rngPos = s.rngPos := by
  simp [State.endStep]
@[simp] theorem State.endStep_rngSeed : s.endStep.rngSeed = s.rngSeed := by
  simp [State.endStep]
@[simp] theorem State.endStep_reg (q : Reg) : s.endStep.reg q = s.reg q := by
  simp [State.reg]
@[simp] theorem State.endStep_byteAt (k : Nat) : s.endStep.byteAt k = s.byteAt k := by
  simp [State.byteAt]

/-! ### `State.pollKeys`: what it leaves as it was -/

@[simp] theorem State.pollKeys_mem : s.pollKeys.mem = s.mem := by
  unfold State.pollKeys; split <;> rfl
@[simp] theorem State.pollKeys_idx : s.pollKeys.idx = s.idx := by
  unfold State.pollKeys; split <;> rfl
@[simp] theorem State.pollKeys_sp : s.pollKeys.sp = s.sp := by
  unfold State.pollKeys; split <;> rfl
@[simp] theorem State.pollKeys_stack : s.pollKeys.stack = s.stack := by
  unfold State.pollKeys; split <;> rfl
@[simp] theorem State.pollKeys_dt : s.pollKeys.dt = s.dt := by
  unfold State.pollKeys; split <;> rfl
@[simp] theorem State.pollKeys_st : s.pollKeys.st = s.st := by
  unfold State.pollKeys; split <;> rfl
@[simp] theorem State.pollKeys_fb : s.pollKeys.fb = s.fb := by
  unfold State.pollKeys; split <;> rfl
@[simp] theorem State.pollKeys_dirty : s.pollKeys.dirty = s.dirty := by
  unfold State.pollKeys; split <;> rfl
@[simp] theorem State.pollKeys_keyDown : s.pollKeys.keyDown = s.keyDown := by
  unfold State.pollKeys; split <;> rfl
@[simp] theorem State.pollKeys_waitX : s.pollKeys.waitX = s.waitX := by
  unfold State.pollKeys; split <;> rfl
@[simp] theorem State.pollKeys_errCode : s.pollKeys.errCode = s.errCode := by
  unfold State.pollKeys; split <;> rfl
@[simp] theorem State.pollKeys_errInfo : s.pollKeys.errInfo = s.errInfo := by
  unfold State.pollKeys; split <;> rfl
@[simp] theorem State.pollKeys_tNow : s.pollKeys.tNow = s.tNow := by
  unfold State.pollKeys; split <;> rfl
@[simp] theorem State.pollKeys_tStep : s.pollKeys.tStep = s.tStep := by
  unfold State.pollKeys; split <;> rfl
@[simp] theorem State.pollKeys_tTick : s.pollKeys.tTick = s.tTick := by
  unfold State.pollKeys; split <;> rfl
@[simp] theorem State.pollKeys_rngPos : s.pollKeys.rngPos = s.rngPos := by
  unfold State.pollKeys; split <;> rfl
@[simp] theorem State.pollKeys_rngSeed : s.pollKeys.rngSeed = s.rngSeed := by
  unfold State.pollKeys; split <;> rfl
@[simp] theorem State.pollKeys_events : s.pollKeys.events = s.events := by
  unfold State.pollKeys; split <;> rfl
@[simp] theorem State.pollKeys_stepResult : s.pollKeys.stepResult = s.stepResult := by
  unfold State.pollKeys; split <;> rfl
@[simp] theorem State.pollKeys_byteAt (k : Nat) : s.pollKeys.byteAt k = s.byteAt k := by
  simp [State.byteAt]

/-! ### What the updates that touch registers, flags and timers write -/

@[simp] theorem State.setReg_reg (r q : Reg) (b : Byte) : (s.setReg r b).reg q = if q = r then b else s.reg q := by
  by_cases h : q = r
  · simp [State.setReg, State.reg, h]
  · have h' : r.val ≠ q.val := fun e => h (Fin.ext e.symm)
    simp [State.setReg, State.reg, h, h']

@[simp] theorem State.setMem_byteAt (m : Memory) (a : Nat) : (s.setMem m).byteAt a = m.read a := rfl

@[simp] theorem State.setCanvas_reg (c : Canvas) (q : Reg) :
    (s.setCanvas c).reg q = if q = flagReg then flagByte c.collision else s.reg q := by
  simp only [State.setCanvas, State.setReg_reg]
  rfl

theorem State.skipIf_pc (c : Bool) : (s.skipIf c).pc = if c then nextWord s.pc else s.pc := by
  unfold State.skipIf; split <;> rfl

/-- The result, then the flag where there is one: the flag is written last (41_arithmetic.md R132). -/
theorem State.setAluResult_reg (x q : Reg) (r : AluResult) :
    (s.setAluResult x r).reg q =
      match r.flag with
      | some f => if q = flagReg then flagByte f else if q = x then r.value else s.reg q
      | none => if q = x then r.value else s.reg q := by
  unfold State.setAluResult
  split <;> simp_all

@[simp] theorem State.timerTick_dt : s.timerTick.dt = countDown s.dt := rfl

@[simp] theorem State.timerTick_st : s.timerTick.st = countDown s.st := rfl

theorem State.timerTick_events : s.timerTick.events = if s.st = 0 then s.events else s.events ++ [.beep] := by
  simp only [State.timerTick, State.setSt_events, State.setDt_events, State.beepIfSounding]
  split <;> rfl

@[simp] theorem State.endStep_stepResult : s.endStep.stepResult = some s.resultOfStep := rfl

theorem State.endStep_events :
    s.endStep.events = if s.dirty && s.run != .halted then s.events ++ [.render s.fb] else s.events := by
  simp only [State.endStep, State.renderIfDirty]
  split <;> rfl

/-- A step that did not raise leaves `DIRTY` clear (60_exceptions.md R331). -/
theorem State.endStep_dirty : s.endStep.dirty = (s.dirty && s.run == .halted) := by
  simp only [State.endStep, State.renderIfDirty]
  cases hd : s.dirty <;> cases hr : s.run <;> simp [hd, hr, State.emit]

end Sys2Proof.Machine
end

