-- ==== Sys2Proof/Laws/Memory.lean ====
section
/-! SUPPORT. The laws of memory: what a read gives after a write, and that every operation keeps the canonical form. -/

namespace Sys2Proof.Machine

/-! ### The canonical form -/

theorem Memory.wfFrom_cons (low k : Nat) (b : Byte) (rest : Memory) :
    Memory.wfFrom low ((k, b) :: rest) = true ↔
      low ≤ k ∧ k < 0x1000 ∧ b ≠ blank k ∧ Memory.wfFrom (k + 1) rest = true := by
  simp [Memory.wfFrom, and_assoc]

theorem Memory.wfFrom_mono {low low' : Nat} {m : Memory} (h : Memory.wfFrom low m = true) (hle : low' ≤ low) :
    Memory.wfFrom low' m = true := by
  cases m with
  | nil => rfl
  | cons c rest =>
    obtain ⟨k, b⟩ := c
    rw [Memory.wfFrom_cons] at h ⊢
    exact ⟨by omega, h.2⟩

theorem Memory.find_below {low a : Nat} {m : Memory} (h : Memory.wfFrom low m = true) (ha : a < low) :
    m.find a = none := by
  induction m generalizing low with
  | nil => rfl
  | cons c rest ih =>
    obtain ⟨k, b⟩ := c
    rw [Memory.wfFrom_cons] at h
    have hk : k ≠ a := by omega
    simp only [Memory.find, if_neg hk]
    exact ih h.2.2.2 (by omega)

/-- Every listed byte is inside memory and differs from what an unlisted one reads as. -/
theorem Memory.find_wf {low a : Nat} {b : Byte} {m : Memory} (h : Memory.wfFrom low m = true) (hb : m.find a = some b) :
    low ≤ a ∧ a < 0x1000 ∧ b ≠ blank a := by
  induction m generalizing low with
  | nil => simp [Memory.find] at hb
  | cons c rest ih =>
    obtain ⟨k, d⟩ := c
    rw [Memory.wfFrom_cons] at h
    simp only [Memory.find] at hb
    split at hb
    · cases hb
      subst k
      exact ⟨h.1, h.2.1, h.2.2.1⟩
    · have := ih h.2.2.2 hb
      exact ⟨by omega, this.2⟩

/-! ### Insert and erase -/

theorem Memory.find_insert (m : Memory) (a c : Nat) (b : Byte) :
    (m.insert a b).find c = if a = c then some b else m.find c := by
  induction m with
  | nil => rfl
  | cons e rest ih =>
    obtain ⟨k, d⟩ := e
    simp only [Memory.insert]
    split
    · simp [Memory.find]
    · split
      · subst k
        by_cases h : a = c <;> simp [Memory.find, h]
      · by_cases h : k = c
        · have : a ≠ c := by omega
          simp [Memory.find, h, this]
        · simp [Memory.find, h, ih]

theorem Memory.wfFrom_insert {m : Memory} {low a : Nat} {b : Byte} (h : Memory.wfFrom low m = true)
    (hlow : low ≤ a) (ha : a < 0x1000) (hb : b ≠ blank a) : Memory.wfFrom low (m.insert a b) = true := by
  induction m generalizing low with
  | nil => simp [Memory.insert, hlow, ha, hb, Memory.wfFrom]
  | cons e rest ih =>
    obtain ⟨k, d⟩ := e
    rw [Memory.wfFrom_cons] at h
    simp only [Memory.insert]
    split
    · simp only [Memory.wfFrom_cons]
      exact ⟨hlow, ha, hb, by omega, h.2.1, h.2.2.1, h.2.2.2⟩
    · split
      · subst k
        rw [Memory.wfFrom_cons]
        exact ⟨h.1, h.2.1, hb, h.2.2.2⟩
      · rw [Memory.wfFrom_cons]
        exact ⟨h.1, h.2.1, h.2.2.1, ih h.2.2.2 (by omega)⟩

theorem Memory.find_erase {low : Nat} {m : Memory} (h : Memory.wfFrom low m = true) (a c : Nat) :
    (m.erase a).find c = if a = c then none else m.find c := by
  induction m generalizing low with
  | nil => simp [Memory.erase, Memory.find]
  | cons e rest ih =>
    obtain ⟨k, d⟩ := e
    rw [Memory.wfFrom_cons] at h
    simp only [Memory.erase]
    split
    · subst k
      by_cases hc : a = c
      · subst c
        simp [Memory.find_below h.2.2.2 (Nat.lt_succ_self a)]
      · simp [Memory.find, hc]
    · rename_i hk
      by_cases hc : k = c
      · have : a ≠ c := by omega
        simp [Memory.find, hc, this]
      · simp [Memory.find, hc, ih h.2.2.2]

theorem Memory.wfFrom_erase {m : Memory} {low : Nat} (h : Memory.wfFrom low m = true) (a : Nat) :
    Memory.wfFrom low (m.erase a) = true := by
  induction m generalizing low with
  | nil => rfl
  | cons e rest ih =>
    obtain ⟨k, d⟩ := e
    rw [Memory.wfFrom_cons] at h
    simp only [Memory.erase]
    split
    · exact Memory.wfFrom_mono h.2.2.2 (by omega)
    · rw [Memory.wfFrom_cons]
      exact ⟨h.1, h.2.1, h.2.2.1, ih h.2.2.2⟩

/-! ### Single-byte reads and writes (20_memory.md R63, R68) -/

theorem Memory.wfFrom_write {m : Memory} {low a : Nat} {b : Byte} (h : Memory.wfFrom low m = true) (hlow : low ≤ a)
    (ha : a < 0x1000) : Memory.wfFrom low (m.write a b) = true := by
  unfold Memory.write
  split
  · exact Memory.wfFrom_erase h a
  · exact Memory.wfFrom_insert h hlow ha ‹_›

/-- A write inside memory keeps the canonical form. -/
theorem Memory.wf_write {m : Memory} {a : Nat} {b : Byte} (h : m.wf = true) (ha : a < 0x1000) :
    (m.write a b).wf = true :=
  Memory.wfFrom_write h (Nat.zero_le a) ha

/-- A read gives the byte last written there, and a write leaves every other byte alone. -/
theorem Memory.read_write {m : Memory} (h : m.wf = true) (a c : Nat) (b : Byte) :
    (m.write a b).read c = if a = c then b else m.read c := by
  unfold Memory.write Memory.read
  split
  · rw [Memory.find_erase h]
    by_cases hc : a = c
    · subst c; simp_all
    · simp [hc]
  · rw [Memory.find_insert]
    by_cases hc : a = c <;> simp [hc]

/-! ### Runs of bytes -/

theorem Memory.wf_writeBytes {m : Memory} {a : Nat} {bytes : List Byte} (h : m.wf = true)
    (ha : a + bytes.length ≤ 0x1000) : (m.writeBytes a bytes).wf = true := by
  induction bytes generalizing m a with
  | nil => exact h
  | cons b rest ih =>
    simp only [List.length_cons] at ha
    exact ih (Memory.wf_write h (by omega)) (by omega)

/-- After a run of writes the bytes of the run stand there, and every other byte is as before. -/
theorem Memory.read_writeBytes {m : Memory} {a : Nat} {bytes : List Byte} (h : m.wf = true)
    (ha : a + bytes.length ≤ 0x1000) (c : Nat) :
    (m.writeBytes a bytes).read c =
      if a ≤ c ∧ c < a + bytes.length then bytes.getD (c - a) 0 else m.read c := by
  induction bytes generalizing m a with
  | nil => simp [Memory.writeBytes]
  | cons b rest ih =>
    simp only [List.length_cons] at ha ⊢
    simp only [Memory.writeBytes]
    rw [ih (Memory.wf_write h (by omega)) (by omega), Memory.read_write h]
    by_cases h1 : a = c
    · subst c; simp
    · by_cases h2 : a + 1 ≤ c ∧ c < a + 1 + rest.length
      · have h3 : a ≤ c ∧ c < a + (rest.length + 1) := by omega
        have h4 : c - a = (c - (a + 1)) + 1 := by omega
        rw [if_pos h2, if_pos h3, h4, List.getD_cons_succ]
      · have h3 : ¬(a ≤ c ∧ c < a + (rest.length + 1)) := by omega
        rw [if_neg h2, if_neg h3, if_neg h1]

@[simp] theorem Memory.length_readBytes (m : Memory) (a count : Nat) : (m.readBytes a count).length = count := by
  induction count generalizing a with
  | zero => rfl
  | succ n ih => simp [Memory.readBytes, ih]

/-- The `k`-th byte of a run of reads. -/
theorem Memory.getD_readBytes (m : Memory) (a count k : Nat) (hk : k < count) :
    (m.readBytes a count).getD k 0 = m.read (a + k) := by
  induction count generalizing a k with
  | zero => omega
  | succ n ih =>
    cases k with
    | zero => rfl
    | succ j =>
      simp only [Memory.readBytes, List.getD_cons_succ]
      rw [ih (a + 1) j (by omega)]
      congr 1
      omega

/-- The loader leaves memory in its canonical form, for a program that fits (70_reset_and_hazards.md R381). -/
theorem Memory.wf_load (font : Vector Byte 80) (program : List Byte) (h : program.length ≤ maxRom) :
    (Memory.load font program).wf = true := by
  unfold maxRom at h
  exact Memory.wf_writeBytes (Memory.wf_writeBytes rfl (by simp)) (by omega)

theorem reset_mem_wf : State.reset.mem.wf = true := rfl

end Sys2Proof.Machine
end

