-- ==== Sys2Proof/Laws/Ops.lean ====
section
/-! SUPPORT. For each shared operation, once, everything it can do. -/

namespace Sys2Proof.Machine

/-! ### Address computations -/

@[simp] theorem wrap12_toNat (a : Word) : (wrap12 a).toNat = a.toNat % 0x1000 := by simp [wrap12, BitVec.toNat_umod]

@[simp] theorem addrOperand_toNat (nnn : Addr) : (addrOperand nnn).toNat = nnn.toNat := by
  simp only [addrOperand, BitVec.toNat_setWidth]
  omega

@[simp] theorem zext16_toNat (b : Byte) : (zext16 b).toNat = b.toNat := by
  simp only [zext16, BitVec.toNat_setWidth]
  omega

@[simp] theorem nextWord_toNat (a : Word) : (nextWord a).toNat = (a.toNat + 2) % 0x1000 := by
  simp only [nextWord, wrap12_toNat, BitVec.toNat_add, BitVec.ofNat_eq_ofNat, BitVec.toNat_ofNat]
  omega

@[simp] theorem offsetTarget_toNat (nnn : Addr) (b : Byte) :
    (offsetTarget nnn b).toNat = (nnn.toNat + b.toNat) % 0x1000 := by
  simp only [offsetTarget, wrap12_toNat, BitVec.toNat_add, addrOperand_toNat, zext16_toNat]
  omega

@[simp] theorem glyphAddress_toNat (b : Byte) : (glyphAddress b).toNat = 5 * (b.toNat % 16) := by
  have h : (b &&& 15#8).toNat = b.toNat % 16 := by
    rw [BitVec.toNat_and]
    exact Nat.and_two_pow_sub_one_eq_mod b.toNat 4
  simp only [glyphAddress, BitVec.toNat_mul, zext16_toNat, BitVec.ofNat_eq_ofNat, h, BitVec.toNat_ofNat]
  omega

theorem rangeOk_iff (idx : Word) (last : Nat) : rangeOk idx last = true ↔ idx.toNat + last ≤ 0xFFF := by
  exact decide_eq_true_iff

@[simp] theorem dataAddress_eq (idx : Word) (k : Nat) : dataAddress idx k = idx.toNat + k := rfl

@[simp] theorem length_bcdDigits (b : Byte) : (bcdDigits b).length = 3 := rfl

/-! ### Timers -/

@[simp] theorem countDown_toNat (b : Byte) : (countDown b).toNat = b.toNat - 1 := by
  unfold countDown
  split
  · simp_all
  · rename_i h
    have : b.toNat ≠ 0 := fun e => h (BitVec.eq_of_toNat_eq e)
    simp only [BitVec.toNat_sub, BitVec.ofNat_eq_ofNat, BitVec.toNat_ofNat]
    omega

/-! ### Taking an exception and ending an instruction -/

/-- An instruction that answers a next state completed in it, or raised an error on the state it began in. -/
theorem Executed.outcome_next {e : Executed} {s0 t : State} (h : e.outcome s0 = .next t) :
    e = .done t ∨ ∃ c i, e = .raised c i ∧ t = s0.raise c i := by
  cases e with
  | done s => exact .inl (by simpa [Executed.outcome] using h)
  | raised c i => exact .inr ⟨c, i, rfl, by simpa [Executed.outcome] using h.symm⟩
  | stuck f => simp [Executed.outcome] at h

@[simp] theorem Executed.outcome_done (s s0 : State) : (Executed.done s).outcome s0 = .next s := rfl

@[simp] theorem Executed.outcome_raised (c : ErrCode) (i : Word) (s0 : State) :
    (Executed.raised c i).outcome s0 = .next (s0.raise c i) := rfl

/-- The range check goes on, or raises `MemoryOutOfRange` before any access (20_memory.md R64). -/
theorem State.checkRange_cases (s : State) (last : Nat) (f : State → Executed) :
    (s.idx.toNat + last ≤ 0xFFF ∧ s.checkRange last f = f s) ∨
      (0xFFF < s.idx.toNat + last ∧ s.checkRange last f = .raised .memoryOutOfRange 0x1000) := by
  by_cases h : s.idx.toNat + last ≤ 0xFFF
  · exact .inl ⟨h, if_pos ((rangeOk_iff _ _).mpr h)⟩
  · exact .inr ⟨by omega, if_neg (fun e => h ((rangeOk_iff _ _).mp e))⟩

/-! ### Call stack -/

/-- A push is refused on a full stack, writes the entry at `SP`, or stops where `SP` is no number of entries. -/
theorem State.push_cases (s : State) (pc0 v : Word) :
    (s.sp.toNat = 16 ∧ s.push pc0 v = .raised .stackOverflow pc0) ∨
      (∃ h : s.sp.toNat < 16, s.push pc0 v = .done (s.pushEntry h v)) ∨
      (16 < s.sp.toNat ∧ s.push pc0 v = .stuck .stackPointerOutOfRange) := by
  unfold State.push
  by_cases h16 : s.sp = 16
  · exact .inl ⟨by simp [h16], if_pos h16⟩
  · have hne : s.sp.toNat ≠ 16 := fun e => h16 (BitVec.eq_of_toNat_eq e)
    rw [if_neg h16]
    by_cases h : s.sp.toNat < 16
    · exact .inr (.inl ⟨h, by rw [dif_pos h]⟩)
    · exact .inr (.inr ⟨by omega, by rw [dif_neg h]⟩)

/-- A pop is refused on an empty stack, takes the top entry, or stops where `SP` is no number of entries. -/
theorem State.popToPc_cases (s : State) (pc0 : Word) :
    (s.sp.toNat = 0 ∧ s.popToPc pc0 = .raised .stackUnderflow pc0) ∨
      (s.sp.toNat ≠ 0 ∧ ∃ h : s.sp.toNat - 1 < 16, s.popToPc pc0 = .done (s.popEntry h)) ∨
      (16 < s.sp.toNat ∧ s.popToPc pc0 = .stuck .stackPointerOutOfRange) := by
  unfold State.popToPc
  by_cases h0 : s.sp = 0
  · exact .inl ⟨by simp [h0], if_pos h0⟩
  · have hne : s.sp.toNat ≠ 0 := fun e => h0 (BitVec.eq_of_toNat_eq e)
    rw [if_neg h0]
    by_cases h : s.sp.toNat - 1 < 16
    · exact .inr (.inl ⟨hne, h, by rw [dif_pos h]⟩)
    · exact .inr (.inr ⟨by omega, by rw [dif_neg h]⟩)

/-! ### Registers in a row -/

/-- Writing registers in a row gives each its byte and leaves the others alone. -/
theorem State.setRegs_reg (s : State) (first : Nat) (bytes : List Byte) (q : Reg) :
    (s.setRegs first bytes).reg q =
      if first ≤ q.val ∧ q.val < first + bytes.length then bytes.getD (q.val - first) 0 else s.reg q := by
  induction bytes generalizing s first with
  | nil => simp [State.setRegs]
  | cons b rest ih =>
    simp only [State.setRegs, ih, List.length_cons]
    by_cases h1 : first = q.val
    · subst h1
      simp [q.isLt]
    · have hset : (if h : first < 16 then s.setReg ⟨first, h⟩ b else s).reg q = s.reg q := by
        split
        · have : q ≠ ⟨first, ‹_›⟩ := fun e => h1 (by rw [e])
          simp [this]
        · rfl
      by_cases h2 : first + 1 ≤ q.val ∧ q.val < first + 1 + rest.length
      · have h3 : first ≤ q.val ∧ q.val < first + (rest.length + 1) := by omega
        have h4 : q.val - first = (q.val - (first + 1)) + 1 := by omega
        rw [if_pos h2, if_pos h3, h4, List.getD_cons_succ]
      · have h3 : ¬(first ≤ q.val ∧ q.val < first + (rest.length + 1)) := by omega
        rw [if_neg h2, if_neg h3, hset]

/-- Writing registers in a row changes the registers only. -/
theorem State.setRegs_eq (s : State) (first : Nat) (bytes : List Byte) :
    s.setRegs first bytes = { s with v := (s.setRegs first bytes).v } := by
  induction bytes generalizing s first with
  | nil => rfl
  | cons b rest ih =>
    rw [State.setRegs, ih]
    split <;> rfl

@[simp] theorem State.length_regsUpTo (s : State) (x : Reg) : (s.regsUpTo x).length = x.val + 1 := by
  simp [State.regsUpTo]

/-- The `k`-th of the values of `V[0..x]`. -/
theorem State.getD_regsUpTo (s : State) (x k : Reg) (h : k.val ≤ x.val) :
    (s.regsUpTo x).getD k.val 0 = s.reg k := by
  have hk : k.val < x.val + 1 := by omega
  simp [State.regsUpTo, State.reg, List.getD_eq_getElem?_getD, hk]

/-! ### Input latch -/

theorem keyOf_eq_some {b : Byte} {k : Fin 16} : keyOf b = some k ↔ b.toNat = k.val := by
  unfold keyOf
  split
  · simp [Fin.ext_iff]
  · have := k.isLt
    simp
    omega

theorem keyOf_eq_none {b : Byte} : keyOf b = none ↔ 16 ≤ b.toNat := by
  unfold keyOf
  split <;> simp <;> omega

/-- `isDown` is true exactly where the byte names a key that is down (44_input.md R203). -/
theorem State.keyIsDown_iff (s : State) (b : Byte) :
    s.keyIsDown b = true ↔ ∃ k : Fin 16, b.toNat = k.val ∧ s.keyDown[k.val] = true := by
  unfold State.keyIsDown
  cases hk : keyOf b with
  | none =>
    have := keyOf_eq_none.mp hk
    simp only [Bool.false_eq_true, false_iff]
    rintro ⟨k, h, -⟩
    omega
  | some k =>
    have := keyOf_eq_some.mp hk
    constructor
    · exact fun h => ⟨k, this, h⟩
    · rintro ⟨k', h, hd⟩
      obtain rfl : k = k' := Fin.ext (by omega)
      exact hd

/-- There is no edge exactly where the search finds none. -/
theorem State.lowestEdge_none (s : State) : s.lowestEdge = none ↔ ∀ k : Fin 16, s.keyEdge[k.val] = false := by
  simp [State.lowestEdge, List.find?_eq_none]

/-- The key found has an edge. -/
theorem State.lowestEdge_edge {s : State} {k : Fin 16} (h : s.lowestEdge = some k) : s.keyEdge[k.val] = true := by
  simpa using List.find?_some h

/-- No lower key has an edge. -/
theorem State.lowestEdge_least {s : State} {k j : Fin 16} (h : s.lowestEdge = some k) (hj : j < k) :
    s.keyEdge[j.val] = false := by
  unfold State.lowestEdge at h
  obtain ⟨-, l1, l2, hl, hno⟩ := List.find?_eq_some_iff_append.mp h
  have hmem : j ∈ l1 ++ k :: l2 := hl ▸ List.mem_finRange j
  have hsort : (l1 ++ k :: l2).Pairwise (· < ·) := hl ▸ List.pairwise_lt_finRange 16
  rcases List.mem_append.mp hmem with hm | hm
  · simpa using hno j hm
  · rcases List.mem_cons.mp hm with rfl | hm
    · exact absurd hj (lt_irrefl _)
    · have := (List.pairwise_cons.mp (List.pairwise_append.mp hsort).2.1).1 j hm
      exact absurd hj (not_lt_of_gt this)

/-! ### Framebuffer -/

/-- An inverted pixel, and every other pixel as before. -/
theorem Framebuffer.pixel_flip (fb : Framebuffer) (x x' : Fin 64) (y y' : Fin 32) :
    (fb.flip x y).pixel x' y' = if x' = x ∧ y' = y then !fb.pixel x y else fb.pixel x' y' := by
  unfold Framebuffer.flip Framebuffer.pixel
  by_cases hy : y' = y
  · subst y'
    by_cases hx : x' = x
    · simp [hx]
    · have : x.val ≠ x'.val := fun e => hx (Fin.ext e.symm)
      simp [hx, this]
  · have : y.val ≠ y'.val := fun e => hy (Fin.ext e.symm)
    simp [hy, this]

@[simp] theorem Framebuffer.pixel_clear (x : Fin 64) (y : Fin 32) : Framebuffer.clear.pixel x y = false := by
  simp [Framebuffer.clear, Framebuffer.pixel]

/-- Two framebuffers with the same pixels are the same. -/
theorem Framebuffer.ext_pixel {a b : Framebuffer} (h : ∀ x y, a.pixel x y = b.pixel x y) : a = b := by
  apply Vector.ext
  intro y hy
  apply Vector.ext
  intro x hx
  exact h ⟨x, hx⟩ ⟨y, hy⟩

/-! ### Outcomes -/

theorem mapNext_next {o : Host.Outcome State Fault Refusal} {f : State → State} {t : State}
    (h : mapNext o f = .next t) : ∃ s, o = .next s ∧ t = f s := by
  cases o with
  | next s => exact ⟨s, rfl, by simpa [mapNext] using h.symm⟩
  | fault r => simp [mapNext] at h
  | refused r => simp [mapNext] at h

theorem bindNext_next {o : Host.Outcome State Fault Refusal} {f : State → Host.Outcome State Fault Refusal} {t : State}
    (h : bindNext o f = .next t) : ∃ s, o = .next s ∧ f s = .next t := by
  cases o with
  | next s => exact ⟨s, rfl, h⟩
  | fault r => simp [bindNext] at h
  | refused r => simp [bindNext] at h

/-! ### The step by run state -/

theorem stepOnce_running {s : State} (h : s.run = .running) :
    stepOnce s = mapNext (instructionStep s) State.endStep := by
  simp [stepOnce, h]

theorem stepOnce_waiting {s : State} (h : s.run = .waiting) : stepOnce s = .next s.pollKeys.endStep := by
  simp [stepOnce, h]

theorem stepOnce_idle {s : State} (h : s.idle = true) : stepOnce s = .next s := by
  cases hr : s.run <;> simp_all [stepOnce, State.idle]

/-- A step of run state `RUNNING` raises, or executes what it fetched. -/
theorem instructionStep_cases (s : State) :
    (0xFFE < s.pc.toNat ∧ instructionStep s = .next (s.raise .programCounterOutOfRange s.pc)) ∨
      (s.pc.toNat ≤ 0xFFE ∧ (∃ r, decodeWord s.opcode = .error r) ∧
        instructionStep s = .next (s.raise .unknownOpcode s.opcode)) ∨
      (s.pc.toNat ≤ 0xFFE ∧ ∃ i, decodeWord s.opcode = .ok i ∧ instructionStep s = exec i s) := by
  unfold instructionStep executeWord
  by_cases h : 0xFFE < s.pc.toNat
  · exact .inl ⟨h, by simp [h]⟩
  · cases hd : decodeWord s.opcode with
    | error r => exact .inr (.inl ⟨by omega, ⟨r, rfl⟩, by simp [h]⟩)
    | ok i => exact .inr (.inr ⟨by omega, i, rfl, by simp [h]⟩)

/-! ### Load and the scheduler -/

/-- A program that fits: the fresh session, whatever was before. -/
theorem start_fits (p : Params) (program : List Byte) (seed : Nat) (s : State) (h : program.length ≤ 3584) :
    start p program seed s = freshSession p program seed := by
  have h' : ¬maxRom < program.length := by unfold maxRom; omega
  simp [start, h']

/-- A program too long: the error, and nothing loaded. -/
theorem start_tooLong (p : Params) (program : List Byte) (seed : Nat) (s : State) (h : 3584 < program.length) :
    start p program seed s = s.beginTransaction.raise .romTooLarge 0 := by
  have h' : maxRom < program.length := by unfold maxRom; omega
  simp [start, h']

theorem advance_idle (p : Params) (dt : Duration) {s : State} (h : s.idle = true) :
    advance p dt s = .next s.beginTransaction := by
  simp [advance, h]

theorem advanceLoop_idle (p : Params) (target : Rat) (n : Nat) {s : State} (h : s.idle = true) :
    advanceLoop p target n s = .next s := by
  cases n <;> simp [advanceLoop, h]

/-- Nothing is due by the target. -/
theorem advanceLoop_nothingDue (p : Params) (target : Rat) (n : Nat) {s : State} (h : target < s.tStep)
    (h' : target < s.tTick) : advanceLoop p target n s = .next s := by
  cases n <;> simp [advanceLoop, h, h']

/-- A step is due, no later than the next tick. -/
theorem advanceLoop_step (p : Params) (target : Rat) (n : Nat) {s : State} (hi : s.idle = false)
    (h : s.tStep ≤ target) (h' : s.tStep ≤ s.tTick) :
    advanceLoop p target (n + 1) s = bindNext (dueStep p s) (advanceLoop p target n) := by
  simp [advanceLoop, hi, not_lt.mpr h, h']

/-- A tick is due, before the next step. -/
theorem advanceLoop_tick (p : Params) (target : Rat) (n : Nat) {s : State} (hi : s.idle = false)
    (h : s.tTick ≤ target) (h' : s.tTick < s.tStep) :
    advanceLoop p target (n + 1) s = advanceLoop p target n (dueTick s) := by
  simp [advanceLoop, hi, not_lt.mpr h, not_le.mpr h']

end Sys2Proof.Machine
end

