-- ==== Sys2Proof/Laws/PerInstr.lean ====
section
/-! SUPPORT. A law said of every instruction, one lemma for each constructor: its word carries the match value of its row of
spec/opcode_table.json under the row's mask. -/

namespace Sys2Proof.Laws

/-- The mask of the instruction's row in spec/opcode_table.json. -/
def tableMask : Instr → Word
  | .sys _ => 0xF000
  | .cls => 0xFFFF
  | .ret => 0xFFFF
  | .jp _ => 0xF000
  | .call _ => 0xF000
  | .seImm _ _ => 0xF000
  | .sneImm _ _ => 0xF000
  | .seReg _ _ => 0xF00F
  | .ldImm _ _ => 0xF000
  | .addImm _ _ => 0xF000
  | .ldReg _ _ => 0xF00F
  | .orReg _ _ => 0xF00F
  | .andReg _ _ => 0xF00F
  | .xorReg _ _ => 0xF00F
  | .addReg _ _ => 0xF00F
  | .sub _ _ => 0xF00F
  | .shr _ _ => 0xF00F
  | .subn _ _ => 0xF00F
  | .shl _ _ => 0xF00F
  | .sneReg _ _ => 0xF00F
  | .ldI _ => 0xF000
  | .jpV0 _ => 0xF000
  | .rnd _ _ => 0xF000
  | .drw _ _ _ => 0xF000
  | .skp _ => 0xF0FF
  | .sknp _ => 0xF0FF
  | .ldVxDt _ => 0xF0FF
  | .ldVxK _ => 0xF0FF
  | .ldDtVx _ => 0xF0FF
  | .ldStVx _ => 0xF0FF
  | .addIVx _ => 0xF0FF
  | .ldFVx _ => 0xF0FF
  | .ldBVx _ => 0xF0FF
  | .storeRegs _ => 0xF0FF
  | .loadRegs _ => 0xF0FF

/-- The match value of the instruction's row in spec/opcode_table.json. -/
def tableMatch : Instr → Word
  | .sys _ => 0x0000
  | .cls => 0x00E0
  | .ret => 0x00EE
  | .jp _ => 0x1000
  | .call _ => 0x2000
  | .seImm _ _ => 0x3000
  | .sneImm _ _ => 0x4000
  | .seReg _ _ => 0x5000
  | .ldImm _ _ => 0x6000
  | .addImm _ _ => 0x7000
  | .ldReg _ _ => 0x8000
  | .orReg _ _ => 0x8001
  | .andReg _ _ => 0x8002
  | .xorReg _ _ => 0x8003
  | .addReg _ _ => 0x8004
  | .sub _ _ => 0x8005
  | .shr _ _ => 0x8006
  | .subn _ _ => 0x8007
  | .shl _ _ => 0x800E
  | .sneReg _ _ => 0x9000
  | .ldI _ => 0xA000
  | .jpV0 _ => 0xB000
  | .rnd _ _ => 0xC000
  | .drw _ _ _ => 0xD000
  | .skp _ => 0xE09E
  | .sknp _ => 0xE0A1
  | .ldVxDt _ => 0xF007
  | .ldVxK _ => 0xF00A
  | .ldDtVx _ => 0xF015
  | .ldStVx _ => 0xF018
  | .addIVx _ => 0xF01E
  | .ldFVx _ => 0xF029
  | .ldBVx _ => 0xF033
  | .storeRegs _ => 0xF055
  | .loadRegs _ => 0xF065

/-! ### The fixed bits of each format -/

theorem formatAddr_and (major : BitVec 4) (nnn : Addr) : formatAddr major nnn &&& 0xF000#16 = major ++ 0#12 := by
  unfold formatAddr
  rw [show (0xF000#16) = 0xF#4 ++ 0#12 from rfl, BitVec.and_append]
  congr 1
  · exact BitVec.and_allOnes
  · exact BitVec.and_zero

theorem formatRegImm_and_major (major : BitVec 4) (x : Reg) (nn : Byte) :
    formatRegImm major x nn &&& 0xF000#16 = (major ++ 0#4) ++ 0#8 := by
  unfold formatRegImm
  rw [show (0xF000#16) = (0xF#4 ++ 0#4) ++ 0#8 from rfl, BitVec.and_append, BitVec.and_append]
  congr 1
  · congr 1
    · exact BitVec.and_allOnes
    · exact BitVec.and_zero
  · exact BitVec.and_zero

theorem formatRegImm_and_minor (major : BitVec 4) (x : Reg) (nn : Byte) :
    formatRegImm major x nn &&& 0xF0FF#16 = (major ++ 0#4) ++ nn := by
  unfold formatRegImm
  rw [show (0xF0FF#16) = (0xF#4 ++ 0#4) ++ 0xFF#8 from rfl, BitVec.and_append, BitVec.and_append]
  congr 1
  · congr 1
    · exact BitVec.and_allOnes
    · exact BitVec.and_zero
  · exact BitVec.and_allOnes

theorem formatRegReg_and_major (major : BitVec 4) (x y : Reg) (last : BitVec 4) :
    formatRegReg major x y last &&& 0xF000#16 = ((major ++ 0#4) ++ 0#4) ++ 0#4 := by
  unfold formatRegReg
  rw [show (0xF000#16) = ((0xF#4 ++ 0#4) ++ 0#4) ++ 0#4 from rfl, BitVec.and_append, BitVec.and_append, BitVec.and_append]
  congr 1
  · congr 1
    · congr 1
      · exact BitVec.and_allOnes
      · exact BitVec.and_zero
    · exact BitVec.and_zero
  · exact BitVec.and_zero

theorem formatRegReg_and_minor (major : BitVec 4) (x y : Reg) (last : BitVec 4) :
    formatRegReg major x y last &&& 0xF00F#16 = ((major ++ 0#4) ++ 0#4) ++ last := by
  unfold formatRegReg
  rw [show (0xF00F#16) = ((0xF#4 ++ 0#4) ++ 0#4) ++ 0xF#4 from rfl, BitVec.and_append, BitVec.and_append, BitVec.and_append]
  congr 1
  · congr 1
    · congr 1
      · exact BitVec.and_allOnes
      · exact BitVec.and_zero
    · exact BitVec.and_zero
  · exact BitVec.and_allOnes

namespace MatchesTable

/-- The word of the instruction matches its row of the table. -/
def Statement (i : Instr) : Prop := encode i &&& tableMask i = tableMatch i

theorem sys (nnn : Addr) : Statement (.sys nnn) := formatAddr_and _ _

theorem cls : Statement .cls := rfl

theorem ret : Statement .ret := rfl

theorem jp (nnn : Addr) : Statement (.jp nnn) := formatAddr_and _ _

theorem call (nnn : Addr) : Statement (.call nnn) := formatAddr_and _ _

theorem seImm (x : Reg) (nn : Byte) : Statement (.seImm x nn) := formatRegImm_and_major _ _ _

theorem sneImm (x : Reg) (nn : Byte) : Statement (.sneImm x nn) := formatRegImm_and_major _ _ _

theorem seReg (x y : Reg) : Statement (.seReg x y) := formatRegReg_and_minor _ _ _ _

theorem ldImm (x : Reg) (nn : Byte) : Statement (.ldImm x nn) := formatRegImm_and_major _ _ _

theorem addImm (x : Reg) (nn : Byte) : Statement (.addImm x nn) := formatRegImm_and_major _ _ _

theorem ldReg (x y : Reg) : Statement (.ldReg x y) := formatRegReg_and_minor _ _ _ _

theorem orReg (x y : Reg) : Statement (.orReg x y) := formatRegReg_and_minor _ _ _ _

theorem andReg (x y : Reg) : Statement (.andReg x y) := formatRegReg_and_minor _ _ _ _

theorem xorReg (x y : Reg) : Statement (.xorReg x y) := formatRegReg_and_minor _ _ _ _

theorem addReg (x y : Reg) : Statement (.addReg x y) := formatRegReg_and_minor _ _ _ _

theorem sub (x y : Reg) : Statement (.sub x y) := formatRegReg_and_minor _ _ _ _

theorem shr (x y : Reg) : Statement (.shr x y) := formatRegReg_and_minor _ _ _ _

theorem subn (x y : Reg) : Statement (.subn x y) := formatRegReg_and_minor _ _ _ _

theorem shl (x y : Reg) : Statement (.shl x y) := formatRegReg_and_minor _ _ _ _

theorem sneReg (x y : Reg) : Statement (.sneReg x y) := formatRegReg_and_minor _ _ _ _

theorem ldI (nnn : Addr) : Statement (.ldI nnn) := formatAddr_and _ _

theorem jpV0 (nnn : Addr) : Statement (.jpV0 nnn) := formatAddr_and _ _

theorem rnd (x : Reg) (nn : Byte) : Statement (.rnd x nn) := formatRegImm_and_major _ _ _

theorem drw (x y : Reg) (n : Fin 16) : Statement (.drw x y n) := formatRegReg_and_major _ _ _ _

theorem skp (x : Reg) : Statement (.skp x) := formatRegImm_and_minor _ _ _

theorem sknp (x : Reg) : Statement (.sknp x) := formatRegImm_and_minor _ _ _

theorem ldVxDt (x : Reg) : Statement (.ldVxDt x) := formatRegImm_and_minor _ _ _

theorem ldVxK (x : Reg) : Statement (.ldVxK x) := formatRegImm_and_minor _ _ _

theorem ldDtVx (x : Reg) : Statement (.ldDtVx x) := formatRegImm_and_minor _ _ _

theorem ldStVx (x : Reg) : Statement (.ldStVx x) := formatRegImm_and_minor _ _ _

theorem addIVx (x : Reg) : Statement (.addIVx x) := formatRegImm_and_minor _ _ _

theorem ldFVx (x : Reg) : Statement (.ldFVx x) := formatRegImm_and_minor _ _ _

theorem ldBVx (x : Reg) : Statement (.ldBVx x) := formatRegImm_and_minor _ _ _

theorem storeRegs (x : Reg) : Statement (.storeRegs x) := formatRegImm_and_minor _ _ _

theorem loadRegs (x : Reg) : Statement (.loadRegs x) := formatRegImm_and_minor _ _ _

end MatchesTable

end Sys2Proof.Laws
end

