-- ==== Sys2Proof/Tests/Slice0.lean ====
section
/-! SUPPORT. Small tests: the words of every form, one step each of the spec's test vectors (95_test_vectors.md, the vector
named before each test), the ill-formed terms that the check refuses, and for every statement with hypotheses a witness that
meets them. -/

namespace Sys2Proof.Tests

open Machine

/-! ### Well-formedness: the check refuses what is no instruction -/

theorem test_wf_refuses_sys_of_cls : (Instr.sys 0x0E0).wf = false := by decide

theorem test_wf_refuses_sys_of_ret : (Instr.sys 0x0EE).wf = false := by decide

theorem test_wf_accepts_sys : (Instr.sys 0x000).wf = true ∧ (Instr.sys 0xFFF).wf = true := by decide

/-! ### Decoding: words written out bit by bit from 30_encoding.md R94 -/

theorem test_decode_fixed_and_sys :
    decodeWord 0b0000000100100011#16 = .ok (.sys 0x123) ∧ decodeWord 0b0000000011100000#16 = .ok .cls ∧
    decodeWord 0b0000000011101110#16 = .ok .ret := by decide

theorem test_decode_addr :
    decodeWord 0b0001001000001000#16 = .ok (.jp 0x208) ∧ decodeWord 0b0010001000010000#16 = .ok (.call 0x210) ∧
    decodeWord 0b1010001100000000#16 = .ok (.ldI 0x300) ∧ decodeWord 0b1011111111111110#16 = .ok (.jpV0 0xFFE) := by
  decide

theorem test_decode_reg_imm :
    decodeWord 0b0011000101000010#16 = .ok (.seImm 1 0x42) ∧ decodeWord 0b0100000100000101#16 = .ok (.sneImm 1 0x05) ∧
    decodeWord 0b0110101001011100#16 = .ok (.ldImm 0xA 0x5C) ∧ decodeWord 0b0111001000000001#16 = .ok (.addImm 2 1) ∧
    decodeWord 0b1100001100001111#16 = .ok (.rnd 3 0x0F) := by decide

theorem test_decode_reg_reg :
    decodeWord 0b0101001000110000#16 = .ok (.seReg 2 3) ∧ decodeWord 0b1001001000110000#16 = .ok (.sneReg 2 3) ∧
    decodeWord 0b1000010000110000#16 = .ok (.ldReg 4 3) ∧ decodeWord 0b1000000000010001#16 = .ok (.orReg 0 1) ∧
    decodeWord 0b1000000000010010#16 = .ok (.andReg 0 1) ∧ decodeWord 0b1000000000010011#16 = .ok (.xorReg 0 1) := by
  decide

theorem test_decode_alu_with_flag :
    decodeWord 0b1000000000010100#16 = .ok (.addReg 0 1) ∧ decodeWord 0b1000000000010101#16 = .ok (.sub 0 1) ∧
    decodeWord 0b1000000010100110#16 = .ok (.shr 0 0xA) ∧ decodeWord 0b1000000000010111#16 = .ok (.subn 0 1) ∧
    decodeWord 0b1000111100001110#16 = .ok (.shl 0xF 0) := by decide

theorem test_decode_draw_and_keys :
    decodeWord 0b1101000000010101#16 = .ok (.drw 0 1 5) ∧ decodeWord 0b1110010110011110#16 = .ok (.skp 5) ∧
    decodeWord 0b1110010110100001#16 = .ok (.sknp 5) ∧ decodeWord 0b1111001100001010#16 = .ok (.ldVxK 3) := by decide

theorem test_decode_timers_and_index :
    decodeWord 0b1111000100000111#16 = .ok (.ldVxDt 1) ∧ decodeWord 0b1111000000010101#16 = .ok (.ldDtVx 0) ∧
    decodeWord 0b1111000100011000#16 = .ok (.ldStVx 1) ∧ decodeWord 0b1111001000011110#16 = .ok (.addIVx 2) ∧
    decodeWord 0b1111101000101001#16 = .ok (.ldFVx 0xA) := by decide

theorem test_decode_memory :
    decodeWord 0b1111000000110011#16 = .ok (.ldBVx 0) ∧ decodeWord 0b1111111101010101#16 = .ok (.storeRegs 0xF) ∧
    decodeWord 0b1111001001100101#16 = .ok (.loadRegs 2) := by decide

/-- E2, E5, A28: words of each illegal kind. -/
theorem test_decode_rejects_by_name :
    decodeWord 0x5121 = .error (.illegal .form5XYn 0x5121) ∧ decodeWord 0x8008 = .error (.illegal .form8XYn 0x8008) ∧
    decodeWord 0x9121 = .error (.illegal .form9XYn 0x9121) ∧ decodeWord 0xE19F = .error (.illegal .formEXnn 0xE19F) ∧
    decodeWord 0xF100 = .error (.illegal .formFXnn 0xF100) ∧ decode [0x60] = .error .truncated := by decide

theorem test_encode_bytes : encodeBytes (.addReg 0 1) = [0x80, 0x14] := by decide

theorem test_decodeTableWord : decodeTableWord 16 0x6A5C = some (.ldImm 0xA 0x5C) := by decide

/-- Listing lines of the programs P1 to P3. -/
theorem test_text :
    (Instr.ldImm 0 0x05).text = "LD V0, 0x05" ∧ (Instr.jp 0x204).text = "JP 0x204" ∧
    (Instr.ldFVx 0xA).text = "LD F, VA" ∧ (Instr.loadRegs 2).text = "LD V2, [I]" := by decide +kernel

/-! ### One step -/

/-- The state after one step that runs the word; where the step stops, a state of no run. -/
def stepWord (w : Nat) (s : State) : State :=
  match step (s.withFetchWord 16 w) with
  | .next t => t
  | .fault _ => { State.reset with pc := 0xFFFF }
  | .refused _ => { State.reset with pc := 0xFFFF }

/-- The reset state with registers set. -/
def withRegs (rs : List (Reg × Byte)) (s : State) : State := rs.foldl (fun t r => t.setReg r.1 r.2) s

/-- The reset state with `V[0]` and `V[1]` set. -/
def v01 (a b : Byte) : State := withRegs [(0, a), (1, b)] State.reset

/-- A1 -/
theorem test_ldImm : (stepWord 0x6A5C State.reset).reg 0xA = 0x5C ∧ (stepWord 0x6A5C State.reset).pc = 0x202 := by decide

/-- A2 -/
theorem test_addImm_wraps :
    (stepWord 0x7201 (withRegs [(2, 0xFF), (0xF, 7)] State.reset)).reg 2 = 0 ∧
    (stepWord 0x7201 (withRegs [(2, 0xFF), (0xF, 7)] State.reset)).reg 0xF = 7 := by decide

/-- A4 -/
theorem test_ldReg : (stepWord 0x8430 (withRegs [(3, 0x12)] State.reset)).reg 4 = 0x12 := by decide

/-- A5 -/
theorem test_or_keeps_flag :
    (stepWord 0x8011 ((v01 0x0F 0xF0).setReg 0xF 1)).reg 0 = 0xFF ∧
    (stepWord 0x8011 ((v01 0x0F 0xF0).setReg 0xF 1)).reg 0xF = 1 := by decide

/-- A6, A7 -/
theorem test_and_xor : (stepWord 0x8012 (v01 0x3C 0x0F)).reg 0 = 0x0C ∧ (stepWord 0x8013 (v01 0xFF 0x0F)).reg 0 = 0xF0 := by
  decide

/-- A9 -/
theorem test_add_carries : (stepWord 0x8014 (v01 0xFF 0x01)).reg 0 = 0 ∧ (stepWord 0x8014 (v01 0xFF 0x01)).reg 0xF = 1 := by
  decide

/-- A12, A13: the flag is written last, and the old `VF` is the addend. -/
theorem test_add_flag_register :
    (stepWord 0x8F14 (withRegs [(0xF, 0x10), (1, 1)] State.reset)).reg 0xF = 0 ∧
    (stepWord 0x80F4 (withRegs [(0xF, 0xFF), (0, 1)] State.reset)).reg 0xF = 1 := by decide

/-- A16 -/
theorem test_sub_borrows : (stepWord 0x8015 (v01 3 5)).reg 0 = 0xFE ∧ (stepWord 0x8015 (v01 3 5)).reg 0xF = 0 := by decide

/-- A17 -/
theorem test_sub_equal : (stepWord 0x8015 (v01 7 7)).reg 0 = 0 ∧ (stepWord 0x8015 (v01 7 7)).reg 0xF = 1 := by decide

/-- A20 -/
theorem test_shr_ignores_y : (stepWord 0x8016 (v01 5 0xFF)).reg 0 = 2 ∧ (stepWord 0x8016 (v01 5 0xFF)).reg 0xF = 1 := by
  decide

/-- A24 -/
theorem test_subn_borrows : (stepWord 0x8017 (v01 5 3)).reg 0 = 0xFE ∧ (stepWord 0x8017 (v01 5 3)).reg 0xF = 0 := by decide

/-- A25, A27 -/
theorem test_shl :
    (stepWord 0x800E (v01 0x81 0)).reg 0 = 2 ∧ (stepWord 0x800E (v01 0x81 0)).reg 0xF = 1 ∧
    (stepWord 0x8F0E (withRegs [(0xF, 0x81)] State.reset)).reg 0xF = 1 := by decide

/-- E6 -/
theorem test_sys_halts :
    (stepWord 0x0123 State.reset).run = .halted ∧ (stepWord 0x0123 State.reset).errInfo = 0x0123 ∧
    (stepWord 0x0123 State.reset).pc = 0x200 := by decide

/-- E1, E8: the first step after reset, with nothing loaded. -/
theorem test_empty_program_halts :
    step State.reset = .next { State.reset with
      run := .halted, errCode := .unknownOpcode, events := [.error .unknownOpcode 0],
      stepResult := some ⟨false, false, some (.unknownOpcode, 0)⟩ } := rfl

/-- E2 -/
theorem test_illegal_word_halts :
    (stepWord 0x5121 State.reset).run = .halted ∧ (stepWord 0x5121 State.reset).errCode = .unknownOpcode ∧
    (stepWord 0x5121 State.reset).errInfo = 0x5121 ∧ (stepWord 0x5121 State.reset).pc = 0x200 := by decide

/-- The state after one step where it answers one. -/
def stepped (s : State) : State :=
  match step s with
  | .next t => t
  | .fault _ => { State.reset with pc := 0xFFFF }
  | .refused _ => { State.reset with pc := 0xFFFF }

/-- E3 -/
theorem test_fetch_at_0xFFF_halts :
    (stepped (State.reset.setPc 0xFFF)).errCode = .programCounterOutOfRange ∧
    (stepped (State.reset.setPc 0xFFF)).errInfo = 0xFFF ∧ (stepped (State.reset.setPc 0xFFF)).pc = 0xFFF := by decide

/-- E4: the fetch at 0xFFE, and the advance from there to 0x000. -/
theorem test_fetch_at_0xFFE_wraps :
    (stepWord 0x6005 (State.reset.setPc 0xFFE)).reg 0 = 5 ∧ (stepWord 0x6005 (State.reset.setPc 0xFFE)).pc = 0 := by decide

/-- F4, F7 -/
theorem test_ret :
    (stepWord 0x00EE { State.reset with sp := 1, stack := State.reset.stack.set 0 0x20A }).pc = 0x20A ∧
    (stepWord 0x00EE State.reset).errCode = .stackUnderflow ∧ (stepWord 0x00EE State.reset).errInfo = 0x200 := by decide

/-- F1 -/
theorem test_jp : (stepWord 0x1208 State.reset).pc = 0x208 := by decide

/-- F5 -/
theorem test_call_wraps :
    (stepWord 0x2300 (State.reset.setPc 0xFFE)).stack[0] = 0 ∧ (stepWord 0x2300 (State.reset.setPc 0xFFE)).sp = 1 ∧
    (stepWord 0x2300 (State.reset.setPc 0xFFE)).pc = 0x300 := by decide

/-- F8 -/
theorem test_call_overflows :
    (stepWord 0x2300 { State.reset with sp := 16, pc := 0x240 }).errCode = .stackOverflow ∧
    (stepWord 0x2300 { State.reset with sp := 16, pc := 0x240 }).errInfo = 0x240 ∧
    (stepWord 0x2300 { State.reset with sp := 16, pc := 0x240 }).pc = 0x240 := by decide

/-- F10, F11 -/
theorem test_jpV0 : (stepWord 0xBFFF (v01 2 0)).pc = 1 ∧ (stepWord 0xB100 (v01 0 5)).pc = 0x100 := by decide

/-- F12, F13, F18 -/
theorem test_seImm :
    (stepWord 0x3000 (v01 0 0)).pc = 0x204 ∧ (stepWord 0x3000 (v01 1 0)).pc = 0x202 ∧
    (stepWord 0x3000 (State.reset.setPc 0xFFC)).pc = 0 := by decide

/-- F14 -/
theorem test_sneImm : (stepWord 0x4105 (v01 0 7)).pc = 0x204 ∧ (stepWord 0x4107 (v01 0 7)).pc = 0x202 := by decide

/-- F15, F16 -/
theorem test_seReg_sneReg :
    (stepWord 0x5010 (v01 0x10 0x10)).pc = 0x204 ∧ (stepWord 0x9010 (v01 0x10 0x10)).pc = 0x202 ∧
    (stepWord 0x5010 (v01 0x10 0x11)).pc = 0x202 ∧ (stepWord 0x9010 (v01 0x10 0x11)).pc = 0x204 := by decide

/-- M1, M3 -/
theorem test_ldI_addI :
    (stepWord 0xA300 State.reset).idx = 0x300 ∧ (stepWord 0xF01E ((v01 1 0).setIdx 0xFFF)).idx = 0 ∧
    (stepWord 0xF01E ((v01 1 0).setIdx 0xFFF)).reg 0xF = 0 := by decide

/-- M6, M7 -/
theorem test_storeRegs_edge :
    (stepWord 0xF055 ((v01 0x77 0).setIdx 0xFFF)).byteAt 0xFFF = 0x77 ∧
    (stepWord 0xF155 ((v01 0x77 0).setIdx 0xFFF)).errCode = .memoryOutOfRange ∧
    (stepWord 0xF155 ((v01 0x77 0).setIdx 0xFFF)).byteAt 0xFFF = 0 := by decide

/-- A store into the font, and one that puts a font byte back: the canonical form is kept. -/
theorem test_store_over_font :
    (stepWord 0xF055 (v01 0x12 0)).byteAt 0 = 0x12 ∧
    (stepWord 0xF055 ((stepWord 0xF055 (v01 0x12 0)).setReg 0 0xF0)).byteAt 0 = 0xF0 := by decide

/-- M9, M11 -/
theorem test_loadRegs :
    (stepWord 0xF465 State.reset).reg 4 = 0xF0 ∧ (stepWord 0xF465 State.reset).reg 1 = 0x90 ∧
    (stepWord 0xFF65 ((v01 0x55 0).setIdx 0xFF1)).errInfo = 0x1000 ∧
    (stepWord 0xFF65 ((v01 0x55 0).setIdx 0xFF1)).reg 0 = 0x55 := by decide

/-- The wait of a step of `F30A`, then what the host does, then a step. -/
def waitThen (f : State → State) : State := stepped (f (stepWord 0xF30A State.reset))

/-- W1 -/
theorem test_wait_holds_pc :
    (stepWord 0xF30A State.reset).run = .waiting ∧ (stepWord 0xF30A State.reset).pc = 0x200 ∧
    (waitThen id).run = .waiting ∧ (waitThen id).pc = 0x200 := by decide

/-- W2, W5 -/
theorem test_wait_takes_lowest_key :
    (waitThen (keyDown 7)).reg 3 = 7 ∧ (waitThen (keyDown 7)).pc = 0x202 ∧ (waitThen (keyDown 7)).run = .running ∧
    (waitThen (fun s => keyDown 2 (keyDown 9 s))).reg 3 = 2 := by decide

/-- K5, K7 -/
theorem test_key_skips :
    (stepWord 0xE09E (keyDown 0xA (v01 0x0A 0))).pc = 0x204 ∧ (stepWord 0xE0A1 (keyDown 0xA (v01 0x0A 0))).pc = 0x202 ∧
    (stepWord 0xE09E (keyDown 0xA (v01 0x1A 0))).pc = 0x202 ∧ (stepWord 0xE0A1 (keyDown 0xA (v01 0x1A 0))).pc = 0x204 := by
  decide

/-- K3, K4 -/
theorem test_key_transactions :
    (keyUp 5 (keyDown 5 State.reset)).keyEdge[5] = true ∧ (keyUp 5 (keyDown 5 State.reset)).keyDown[5] = false ∧
    (keyDown 0x10 State.reset).events = [.invalidKeyCode 0x10] := by decide

/-- D7: one `Render` though the framebuffer was clear. -/
theorem test_cls_renders :
    (stepWord 0x00E0 State.reset).events = [.render Framebuffer.clear] ∧ (stepWord 0x00E0 State.reset).dirty = false := by
  decide

/-- D3, one corner of it: glyph A at (62, 30) wraps on both axes. -/
theorem test_drw_wraps :
    (stepWord 0xD015 ((v01 62 30).setIdx 0x032)).fb.pixel 1 2 = true ∧
    (stepWord 0xD015 ((v01 62 30).setIdx 0x032)).fb.pixel 0 31 = false ∧
    (stepWord 0xD015 ((v01 62 30).setIdx 0x032)).reg 0xF = 0 := by decide

/-- D5, D8 -/
theorem test_drw_edges :
    (stepWord 0xD010 ((v01 0 0).setReg 0xF 1)).reg 0xF = 0 ∧ (stepWord 0xD010 ((v01 0 0).setReg 0xF 1)).events = [] ∧
    (stepWord 0xD012 ((v01 0 0).setIdx 0xFFF)).errCode = .memoryOutOfRange := by decide

/-- T1 -/
theorem test_delay_timer : (stepWord 0xF015 (v01 5 0)).dt = 5 ∧ (stepWord 0xF107 ((v01 5 0).setDt 5)).reg 1 = 5 := by decide

/-- T3, T4 -/
theorem test_sound_timer :
    (stepWord 0xF118 (v01 0 2)).st = 2 ∧ (stepWord 0xF118 (v01 0 2)).soundOn = true ∧
    (tick (State.reset.setSt 1)).events = [.beep] ∧ (tick (State.reset.setSt 1)).st = 0 := by decide

/-- B2, B3 -/
theorem test_ldF :
    (stepWord 0xF029 (v01 0x1A 0)).idx = 0x032 ∧ (stepWord 0xF029 (v01 0x0F 0)).idx = 0x04B := by decide

/-- B4 -/
theorem test_bcd :
    (stepWord 0xF033 ((v01 0xFE 0).setIdx 0x300)).mem = [(0x200, 0xF0), (0x201, 0x33), (0x300, 2), (0x301, 5), (0x302, 4)] := by
  decide

/-- B8 -/
theorem test_bcd_out_of_range : (stepWord 0xF033 (State.reset.setIdx 0xFFE)).errCode = .memoryOutOfRange := by decide

/-- B10: a mask of 0 still consumes a byte. -/
theorem test_rnd_consumes : (stepWord 0xC300 State.reset).rngPos = 1 ∧ (stepWord 0xC300 State.reset).reg 3 = 0 := by
  constructor
  · decide
  · exact BitVec.and_zero

/-- R6, R5 -/
theorem test_stop_and_halted_latch :
    (stop State.reset).run = .stopped ∧ (keyDown 3 (stepWord 0x0000 State.reset)).keyDown[3] = true := by decide

/-- Some outcome is a next state of which a test holds. -/
def nextWith (o : Host.Outcome State Fault Refusal) (f : State → Bool) : Bool :=
  match o with
  | .next t => f t
  | .fault _ => false
  | .refused _ => false

theorem exists_of_nextWith {o : Host.Outcome State Fault Refusal} {f : State → Bool} (h : nextWith o f = true) :
    ∃ t, o = .next t ∧ f t = true := by
  cases o with
  | next t => exact ⟨t, rfl, h⟩
  | fault r => exact absurd h Bool.false_ne_true
  | refused r => exact absurd h Bool.false_ne_true

/-- T8: no step and no tick is due yet. -/
theorem test_advance_nothing_due :
    nextWith (advance defaultParams ⟨1 / 1200, by norm_num⟩ State.reset) (fun t =>
      t.tNow = 1 / 1200 && t.tStep = 1 / 600 && t.tTick = 1 / 60 && t.pc = 0x200 && t.run = .running) = true := by
  decide +kernel

/-- The session of the vectors T6 and T7: the program `1200`. -/
def spin : State := freshSession defaultParams [0x12, 0x00] 0

/-- T6: ten steps and a tick are due in 1/60 s; the tick is the last. -/
theorem test_advance_one_tick :
    nextWith (advance defaultParams ⟨1 / 60, by norm_num⟩ (spin.setDt 5)) (fun t =>
      t.tNow = 1 / 60 && t.tStep = 11 / 600 && t.tTick = 2 / 60 && t.dt = 4 && t.pc = 0x200) = true := by
  decide +kernel

/-- R4 -/
theorem test_start_loads : (freshSession defaultParams [0x60, 0x05] 0).mem = [(0x200, 0x60), (0x201, 0x05)] := by decide

/-! ### Witnesses: the hypotheses of the statements are met together -/

theorem witness_DecodeUndoesEncode :
    (Instr.sys 0x0EF).wf = true ∧ (Instr.sys 0xFFF).wf = true ∧ (Instr.drw 0xF 0 0xF).wf = true := by decide

theorem witness_EncodeUndoesDecode :
    decodeWord 0x80A6 = .ok (.shr 0 0xA) ∧ decodeWord 0x0000 = .ok (.sys 0) ∧ decodeWord 0xFF65 = .ok (.loadRegs 0xF) := by
  decide

/-- A program at the last address a fetch may start at: `6005`. -/
def atEdge : State := (State.reset.setPc 0xFFE).setMem [(0xFFE, 0x60), (0xFFF, 0x05)]

theorem witness_StepRunsDecodedInstruction_out_of_range :
    (State.reset.setPc 0xFFF).run = .running ∧ 0xFFE < (State.reset.setPc 0xFFF).pc.toNat := by decide

theorem witness_StepRunsDecodedInstruction_decodes :
    atEdge.run = .running ∧ atEdge.pc.toNat ≤ 0xFFE ∧
    (0x6005#16).toNat = (atEdge.byteAt atEdge.pc.toNat).toNat * 0x100 + (atEdge.byteAt (atEdge.pc.toNat + 1)).toNat ∧
    decodeWord 0x6005 = .ok (.ldImm 0 5) := by decide

/-- The font read as a program: `F090` at address 0 is no instruction (E4). -/
theorem witness_StepRunsDecodedInstruction_illegal :
    (State.reset.setPc 0).run = .running ∧ (State.reset.setPc 0).pc.toNat ≤ 0xFFE ∧
    (0xF090#16).toNat = ((State.reset.setPc 0).byteAt 0).toNat * 0x100 + ((State.reset.setPc 0).byteAt 1).toNat ∧
    decodeWord 0xF090 = .error (.illegal .formFXnn 0xF090) := by decide

/-- The clauses on `X ≠ 0xF` of the sums, differences and shifts. -/
theorem witness_flag_is_not_the_destination : (0xE : Reg) ≠ 0xF ∧ (0 : Reg) ≠ 0xF := by decide

theorem witness_SysRaisesUnknownOpcode :
    ((0x0E1 : Addr) ≠ 0x0E0 ∧ (0x0E1 : Addr) ≠ 0x0EE) ∧ ((0xFFF : Addr) ≠ 0x0E0 ∧ (0xFFF : Addr) ≠ 0x0EE) := by decide

/-- The reset state with `SP` set. -/
def depth (n : Byte) : State := { State.reset with sp := n }

theorem witness_CallPushesNextAddress :
    (depth 0).sp.toNat = (0 : Fin 16).val ∧ (depth 15).sp.toNat = (15 : Fin 16).val ∧ (depth 16).sp.toNat = 16 := by decide

theorem witness_ReturnPopsTopEntry :
    (depth 1).sp.toNat = (0 : Fin 16).val + 1 ∧ (depth 16).sp.toNat = (15 : Fin 16).val + 1 ∧ (depth 0).sp.toNat = 0 := by
  decide

theorem witness_SkipsAdvanceByCondition : (1 : Fin 16) ≠ 0 ∧ (15 : Fin 16) ≠ 0 := by decide

theorem witness_SixteenNestedCallsThenOverflow :
    State.reset.sp.toNat = 0 ∧ (List.replicate 16 (0x200 : Addr)).length ≤ 16 ∧
    (List.replicate 16 (0x200 : Addr)).length = 16 := by decide

theorem witness_StoreRegistersWritesRange :
    (State.reset.setIdx 0xFF0).mem.wf = true ∧ dataAddress (State.reset.setIdx 0xFF0).idx (0xF : Reg).val ≤ 0xFFF ∧
    0xFFF < dataAddress (State.reset.setIdx 0xFF1).idx (0xF : Reg).val := by decide

theorem witness_LoadRegistersReadsRange :
    dataAddress (State.reset.setIdx 0xFFF).idx (0 : Reg).val ≤ 0xFFF ∧ (0 : Reg) < 1 ∧
    0xFFF < dataAddress (State.reset.setIdx 0xFFF).idx (1 : Reg).val := by decide

theorem witness_BcdStoresThreeDigits :
    (State.reset.setIdx 0xFFD).mem.wf = true ∧ dataAddress (State.reset.setIdx 0xFFD).idx 2 ≤ 0xFFF ∧
    0xFFF < dataAddress (State.reset.setIdx 0xFFE).idx 2 := by decide

/-- Two ways to the same memory: one of them writes a byte and puts back what it was. -/
theorem witness_CanonicalMemoriesReadAlikeAreEqual :
    (Memory.write [] 0xFFF 1).wf = true ∧ (((Memory.write [] 0x000 1).write 0xFFF 1).write 0x000 0xF0).wf = true ∧
    ∀ a : Nat, a < 0x1000 →
      (Memory.write [] 0xFFF 1).read a = (((Memory.write [] 0x000 1).write 0xFFF 1).write 0x000 0xF0).read a := by
  have h : Memory.write [] 0xFFF 1 = ((Memory.write [] 0x000 1).write 0xFFF 1).write 0x000 0xF0 := by decide
  rw [← h]
  exact ⟨by decide, by decide, fun _ _ => rfl⟩

/-- A wait for a key into `V[3]`, with edges as given. -/
def waitState (edges : Vector Bool 16) : State := { State.reset with run := .waiting, waitX := 3, keyEdge := edges }

theorem witness_WaitingPollTakesLowestEdge_none :
    (waitState (.replicate 16 false)).run = .waiting ∧ (waitState (.replicate 16 false)).dirty = false ∧
    ∀ k : Fin 16, (waitState (.replicate 16 false)).keyEdge[k.val] = false := by decide

theorem witness_WaitingPollTakesLowestEdge_last :
    (waitState ((Vector.replicate 16 false).set 15 true)).run = .waiting ∧
    (waitState ((Vector.replicate 16 false).set 15 true)).dirty = false ∧
    (waitState ((Vector.replicate 16 false).set 15 true)).keyEdge[(15 : Fin 16).val] = true ∧
    ∀ j : Fin 16, j < 15 → (waitState ((Vector.replicate 16 false).set 15 true)).keyEdge[j.val] = false := by decide

theorem witness_WaitingPollTakesLowestEdge_first :
    (waitState (.replicate 16 true)).run = .waiting ∧ (waitState (.replicate 16 true)).dirty = false ∧
    (waitState (.replicate 16 true)).keyEdge[(0 : Fin 16).val] = true ∧
    ∀ j : Fin 16, j < 0 → (waitState (.replicate 16 true)).keyEdge[j.val] = false := by decide

theorem witness_KeySkipsReadKeyDown :
    (∃ k : Fin 16, ((keyDown 0xF (v01 0x0F 0)).reg 0).toNat = k.val ∧ (keyDown 0xF (v01 0x0F 0)).keyDown[k.val] = true) ∧
    (¬∃ k : Fin 16, ((keyDown 0 (v01 0x10 0)).reg 0).toNat = k.val ∧ (keyDown 0 (v01 0x10 0)).keyDown[k.val] = true) := by
  decide

theorem witness_KeyTransactionsUpdateLatch :
    (0x0F : Byte).toNat = (15 : Fin 16).val ∧ (0x00 : Byte).toNat = (0 : Fin 16).val ∧ 16 ≤ (0x10 : Byte).toNat := by decide

theorem witness_WaitEndsOneStepAfterPress :
    (waitState (.replicate 16 false)).run = .waiting ∧ (waitState (.replicate 16 false)).dirty = false ∧
    (∀ j : Fin 16, (waitState (.replicate 16 false)).keyEdge[j.val] = false) ∧ (0x07 : Byte).toNat = (7 : Fin 16).val ∧
    (waitState (.replicate 16 false)).keyDown[(7 : Fin 16).val] = false := by decide

theorem witness_OnlyWaitForKeyBlocks :
    (∃ t, exec (.ldVxK 3) State.reset = .next t ∧ State.reset.run ≠ .waiting ∧ t.run = .waiting) ∧
    (waitState (.replicate 16 false)).run = .waiting ∧ (waitState (.replicate 16 false)).dirty = false ∧
    ∀ j : Fin 16, (waitState (.replicate 16 false)).keyEdge[j.val] = false :=
  ⟨⟨_, rfl, by decide, by decide⟩, by decide⟩

theorem witness_DrawInvertsSpritePixels_range :
    SpriteInRange (State.reset.setIdx 0xFFF) 0 ∧ SpriteInRange (State.reset.setIdx 0xFFF) 1 ∧
    ¬SpriteInRange (State.reset.setIdx 0xFFF) 2 := by unfold SpriteInRange; decide

/-- Glyph 0 over a screen with its corner pixel set, and over a clear one. -/
def cornerSet : State := { State.reset with fb := State.reset.fb.flip 0 0 }

theorem witness_DrawInvertsSpritePixels_covered :
    SpriteCovers State.reset 0 0 5 0 0 ∧ ¬SpriteCovers State.reset 0 0 5 63 31 ∧
    (∃ px py, SpriteCovers cornerSet 0 0 5 px py ∧ cornerSet.fb.pixel px py = true) := by
  refine ⟨⟨0, 0, by decide⟩, ?_, ⟨0, 0, ⟨0, 0, by decide⟩, by decide⟩⟩
  rintro ⟨r, c, hr, hc, h1, h2, -⟩
  have hx : (State.reset.reg 0).toNat = 0 := by decide
  rw [hx] at h1 h2
  have h1' : (0 + c) % 64 = 63 := h1
  omega

theorem witness_DrawInvertsSpritePixels_empty :
    (¬∃ px py, SpriteCovers State.reset 0 1 0 px py ∧ State.reset.fb.pixel px py = true) ∧
    ¬∃ px py, SpriteCovers State.reset 0 1 0 px py := by
  refine ⟨?_, ?_⟩
  · rintro ⟨px, py, ⟨r, c, h, -⟩, -⟩; exact absurd h (Nat.not_lt_zero r)
  · rintro ⟨px, py, r, c, h, -⟩; exact absurd h (Nat.not_lt_zero r)

/-- D1, D2: glyph 0 in the corner of a clear screen. -/
theorem witness_DrawingTwiceRestoresFramebuffer :
    SpriteInRange State.reset 5 ∧ (∃ t, exec (.drw 0 1 5) State.reset = .next t ∧ t.reg 0 = State.reset.reg 0 ∧
      t.reg 1 = State.reset.reg 1) ∧
    (∃ px py, SpriteCovers State.reset 0 1 5 px py ∧ State.reset.fb.pixel px py = false) ∧
    (∀ px py, SpriteCovers State.reset 0 1 5 px py → State.reset.fb.pixel px py = false) ∧
    ∃ r : Nat, r < (5 : Fin 16).val ∧ State.reset.byteAt (dataAddress State.reset.idx r) ≠ 0 := by
  refine ⟨by unfold SpriteInRange; decide, ⟨_, rfl, by decide, by decide⟩, ⟨0, 0, ⟨0, 0, by decide⟩, by decide⟩, ?_,
    ⟨0, by decide⟩⟩
  intro px py _
  exact (by decide +kernel : ∀ (px : Fin 64) (py : Fin 32), State.reset.fb.pixel px py = false) px py

/-- The flag clause of the other side: the empty sprite covers no pixel. -/
theorem witness_DrawingTwiceRestoresFramebuffer_empty :
    SpriteInRange State.reset 0 ∧ (∃ t, exec (.drw 0 1 0) State.reset = .next t ∧ t.reg 0 = State.reset.reg 0 ∧
      t.reg 1 = State.reset.reg 1) ∧
    ¬∃ px py, SpriteCovers State.reset 0 1 (0 : Fin 16).val px py ∧ State.reset.fb.pixel px py = false := by
  refine ⟨Or.inl rfl, ⟨_, rfl, by decide, by decide⟩, ?_⟩
  rintro ⟨px, py, ⟨r, c, h, -⟩, -⟩
  exact absurd h (Nat.not_lt_zero r)

theorem witness_OnlyDisplayInstructionsChangeFramebuffer :
    (∃ t, exec .cls cornerSet = .next t ∧ (t.fb ≠ cornerSet.fb ∨ t.dirty ≠ cornerSet.dirty)) ∧
    ∃ t, transact defaultParams (.start [] 0) cornerSet = .next t ∧ (t.fb ≠ cornerSet.fb ∨ t.dirty ≠ cornerSet.dirty) :=
  ⟨⟨_, rfl, .inr (by decide)⟩, ⟨_, rfl, .inl (by decide)⟩⟩

theorem witness_StepRendersOnceWhenDirty :
    (State.reset.withFetchWord 16 0xD015).run = .running ∧ (State.reset.withFetchWord 16 0xD015).dirty = false ∧
    ∃ t, step (State.reset.withFetchWord 16 0xD015) = .next t ∧ t.fb ≠ (State.reset.withFetchWord 16 0xD015).fb :=
  ⟨by decide, by decide, _, rfl, by decide⟩

/-- The clause on a step that raises, and the one on `CLS` over a clear screen. -/
theorem witness_StepRendersOnceWhenDirty_raise_and_cls :
    (State.reset.run = .running ∧ State.reset.dirty = false ∧ ∃ t, step State.reset = .next t ∧ t.run = .halted) ∧
    ∃ t, step (State.reset.withFetchWord 16 0x00E0) = .next t ∧
      decodeWord (State.reset.withFetchWord 16 0x00E0).opcode = .ok .cls :=
  ⟨⟨rfl, rfl, _, rfl, by decide⟩, _, rfl, by decide⟩

theorem witness_TickDecrementsTimers :
    State.reset.run = .running ∧ (waitState (.replicate 16 false)).run = .waiting ∧ (stop State.reset).run = .stopped ∧
    (stepped State.reset).run = .halted := by decide

theorem witness_OnlyIndexInstructionsWriteI :
    ∃ t, exec (.addIVx 0) ((v01 2 0).setIdx 0xFFF) = .next t ∧ t.idx ≠ ((v01 2 0).setIdx 0xFFF).idx :=
  ⟨_, rfl, by decide⟩

theorem witness_OnlyCallAndReturnChangeStack :
    (∃ t, exec (.call 0x300) (depth 15) = .next t ∧ (t.sp ≠ (depth 15).sp ∨ t.stack ≠ (depth 15).stack)) ∧
    ∃ t, exec .ret (depth 16) = .next t ∧ (t.sp ≠ (depth 16).sp ∨ t.stack ≠ (depth 16).stack) :=
  ⟨⟨_, rfl, .inl (by decide)⟩, ⟨_, rfl, .inl (by decide)⟩⟩

theorem witness_OnlyStoresChangeMemory :
    ∃ t, exec (.ldBVx 0) (v01 0xFE 0) = .next t ∧ ∃ a : Nat, t.byteAt a ≠ (v01 0xFE 0).byteAt a :=
  ⟨_, rfl, 0, by decide⟩

theorem witness_FlagRegisterWriters :
    ∃ t, exec (.addReg 0 1) (v01 0xFF 1) = .next t ∧ t.reg 0xF ≠ (v01 0xFF 1).reg 0xF :=
  ⟨_, rfl, by decide⟩

theorem witness_DeviceStateWriters :
    (∃ t, exec (.ldDtVx 0) (v01 5 0) = .next t ∧ t.dt ≠ (v01 5 0).dt) ∧
    (∃ t, exec (.ldStVx 0) (v01 5 0) = .next t ∧ t.st ≠ (v01 5 0).st) ∧
    (∃ t, exec (.ldVxK 3) (keyDown 2 State.reset) = .next t ∧ t.keyEdge ≠ (keyDown 2 State.reset).keyEdge ∧
      t.waitX ≠ (keyDown 2 State.reset).waitX) ∧
    ∃ t, exec (.rnd 0 0) State.reset = .next t ∧ t.rngPos ≠ State.reset.rngPos :=
  ⟨⟨_, rfl, by decide⟩, ⟨_, rfl, by decide⟩, ⟨_, rfl, by decide, by decide⟩, ⟨_, rfl, by decide⟩⟩

theorem witness_ErrorsArePrecise :
    State.reset.run = .running ∧ ∃ t, step State.reset = .next t ∧ t.run = .halted :=
  ⟨rfl, _, rfl, by decide⟩

theorem witness_InstructionsRaiseOnlyTheirOwnError :
    (∃ t, exec (.sys 0) State.reset = .next t ∧ State.reset.run ≠ .halted ∧ t.run = .halted) ∧
    (∃ t, exec (.call 0) (depth 16) = .next t ∧ (depth 16).run ≠ .halted ∧ t.run = .halted) ∧
    (∃ t, exec .ret State.reset = .next t ∧ State.reset.run ≠ .halted ∧ t.run = .halted) ∧
    ∃ t, exec (.drw 0 0 2) (State.reset.setIdx 0xFFF) = .next t ∧ (State.reset.setIdx 0xFFF).run ≠ .halted ∧
      t.run = .halted :=
  ⟨⟨_, rfl, by decide, by decide⟩, ⟨_, rfl, by decide, by decide⟩, ⟨_, rfl, by decide, by decide⟩,
    ⟨_, rfl, by decide, by decide⟩⟩

theorem witness_IdleBlockStandsStill :
    (stop State.reset).run = .stopped ∧ (stepped State.reset).run = .halted ∧
    ∃ t, transact defaultParams (.keyDown 3) (stop State.reset) = .next t ∧
      ∀ program seed, Transaction.keyDown 3 ≠ .start program seed :=
  ⟨by decide, by decide, _, rfl, fun _ _ => Transaction.noConfusion⟩

theorem witness_HaltedUntilStartOrStop :
    (stepped State.reset).run = .halted ∧
    (∃ t, transact defaultParams .stop (stepped State.reset) = .next t ∧
      ∀ program seed, Transaction.stop ≠ .start program seed) ∧
    ∃ t, transact defaultParams .cycle (stepped State.reset) = .next t ∧ Transaction.cycle ≠ .stop ∧
      ∀ program seed, Transaction.cycle ≠ .start program seed :=
  ⟨by decide, ⟨_, rfl, fun _ _ => Transaction.noConfusion⟩, _, rfl, by decide, fun _ _ => Transaction.noConfusion⟩

theorem witness_TooLongProgramIsNotLoaded :
    3584 < (List.replicate 3585 (0 : Byte)).length ∧ (List.replicate 3584 (0 : Byte)).length ≤ 3584 := by
  simp only [List.length_replicate]; decide

theorem witness_StartLoadsFontAndProgram :
    (List.replicate 3584 (0x60 : Byte)).length ≤ 3584 ∧
    ∃ t, t = start defaultParams (List.replicate 3584 0x60) 7 cornerSet :=
  ⟨by simp only [List.length_replicate]; decide, _, rfl⟩

theorem witness_StartForgetsEarlierState : ([0x12, 0x00] : List Byte).length ≤ 3584 := by decide

/-- The clause with nothing due: just before the first step. -/
theorem witness_AdvanceRunsEverythingDue_nothing :
    spin.idle = false ∧ spin.tNow + (1 / 601 : Rat) < spin.tStep ∧ spin.tNow + (1 / 601 : Rat) < spin.tTick := by
  decide +kernel

/-- The spinning session with its next step due when a tick is. -/
def dueTogether : State := { spin with tStep := 1 / 60 }

/-- The spinning session with its next step due after a tick. -/
def tickFirst : State := { spin with tStep := 1 / 59 }

/-- The clause with a step due: a step and a tick due together, at the target. -/
theorem witness_AdvanceRunsEverythingDue_step :
    dueTogether.idle = false ∧ dueTogether.tStep ≤ dueTogether.tTick ∧
    dueTogether.tStep + 0 = dueTogether.tNow + (1 / 60 : Rat) ∧
    ∃ a, stepOnce { dueTogether.beginTransaction with tNow := dueTogether.tStep } = .next a ∧
      ∃ t, advance defaultParams ⟨0, le_refl 0⟩
        { a with tStep := dueTogether.tStep + 1 / defaultParams.cpuHz } = .next t := by
  refine ⟨by decide, by decide +kernel, by decide +kernel, ?_⟩
  have h : nextWith (stepOnce { dueTogether.beginTransaction with tNow := dueTogether.tStep }) (fun a =>
      nextWith (advance defaultParams ⟨0, le_refl 0⟩ { a with tStep := dueTogether.tStep + 1 / defaultParams.cpuHz })
        (fun _ => true)) = true := by decide +kernel
  obtain ⟨a, ha, hf⟩ := exists_of_nextWith h
  obtain ⟨t, ht, -⟩ := exists_of_nextWith hf
  exact ⟨a, ha, t, ht⟩

/-- The state after the tick of `tickFirst`, at its due time. -/
def afterTick : State := { tickFirst.beginTransaction with tNow := tickFirst.tTick }.timerTick

/-- The clause with a tick due first, at the target. -/
theorem witness_AdvanceRunsEverythingDue_tick :
    tickFirst.idle = false ∧ tickFirst.tTick < tickFirst.tStep ∧
    tickFirst.tTick + 0 = tickFirst.tNow + (1 / 60 : Rat) ∧
    ∃ t, advance defaultParams ⟨0, le_refl 0⟩ { afterTick with tTick := tickFirst.tTick + 1 / 60 } = .next t := by
  refine ⟨by decide, by decide +kernel, by decide +kernel, ?_⟩
  have h : nextWith (advance defaultParams ⟨0, le_refl 0⟩ { afterTick with tTick := tickFirst.tTick + 1 / 60 })
      (fun _ => true) = true := by decide +kernel
  obtain ⟨t, ht, -⟩ := exists_of_nextWith h
  exact ⟨t, ht⟩

theorem witness_AdvanceRunsEverythingDue :
    spin.idle = false ∧ ∃ t, advance defaultParams ⟨1 / 600, by norm_num⟩ spin = .next t ∧ t.idle = false := by
  refine ⟨by decide, ?_⟩
  have h : nextWith (advance defaultParams ⟨1 / 600, by norm_num⟩ spin) (fun t => !t.idle) = true := by decide +kernel
  obtain ⟨t, ht, hf⟩ := exists_of_nextWith h
  exact ⟨t, ht, by simpa using hf⟩

theorem witness_AdvanceDoesNotDependOnCadence :
    ((1 : Rat) / 600 = 1 / 1200 + 1 / 1200) ∧
    ∃ t, advance defaultParams ⟨1 / 1200, by norm_num⟩ spin = .next t ∧
      ∃ u, advance defaultParams ⟨1 / 1200, by norm_num⟩ t = .next u := by
  refine ⟨by norm_num, ?_⟩
  have h : nextWith (advance defaultParams ⟨1 / 1200, by norm_num⟩ spin) (fun t =>
      nextWith (advance defaultParams ⟨1 / 1200, by norm_num⟩ t) (fun _ => true)) = true := by decide +kernel
  obtain ⟨t, ht, hf⟩ := exists_of_nextWith h
  obtain ⟨u, hu, -⟩ := exists_of_nextWith hf
  exact ⟨t, ht, u, hu⟩

theorem witness_AdvanceCountsStepsAndTicks :
    ∃ t, advance defaultParams ⟨1 / 60, by norm_num⟩ (freshSession defaultParams [0x12, 0x00] 0) = .next t ∧
      t.idle = false := by
  have h : nextWith (advance defaultParams ⟨1 / 60, by norm_num⟩ (freshSession defaultParams [0x12, 0x00] 0))
      (fun t => !t.idle) = true := by decide +kernel
  obtain ⟨t, ht, hf⟩ := exists_of_nextWith h
  exact ⟨t, ht, by simpa using hf⟩

/-- A state of a session in progress: `PC` at the edge of memory, a full stack, a byte stored, the timers running. -/
def midSession : State :=
  { State.reset with mem := [(0xFFE, 0x60)], idx := 0xFFF, pc := 0xFFE, sp := 16, stack := .replicate 16 0xFFF, dt := 5 }

theorem midSession_inv : SessionInv midSession where
  memory := by decide
  index := by decide
  counter := by decide
  depth := by decide
  entries := by decide
  clean := by decide
  noError := by decide
  latched := by decide
  fatalOnly := by decide
  timeNonneg := by decide
  stepDue := by decide +kernel
  tickDue := by decide +kernel

theorem witness_StepKeepsSessionInv : SessionInv midSession ∧ ∃ t, step midSession = .next t :=
  ⟨midSession_inv, _, rfl⟩

theorem witness_TransactionsKeepSessionInv :
    SessionInv midSession ∧ ∃ t, transactAll defaultParams [.tick, .keyDown 3, .cycle, .stop] midSession = .next t :=
  ⟨midSession_inv, _, rfl⟩

theorem witness_StartEstablishesSessionInv : (List.replicate 3584 (0xFF : Byte)).length ≤ 3584 := by
  simp only [List.length_replicate]; decide

/-- A session begun from power-on whatever stood in `DT`, and a program refused there. -/
theorem witness_PowerOnShowsInNoEventOrResult :
    (∃ t, transactAll defaultParams [.keyDown 3, .start [0x12, 0x00] 0, .cycle] (State.powerOn midSession) = .next t ∧
      t.run = .running) ∧
    ([0x12, 0x00] : List Byte).length ≤ 3584 ∧
    ∃ tr ∈ [Transaction.cycle, .tick, .advance ⟨1, by norm_num⟩], tr = .tick :=
  ⟨⟨_, rfl, by decide⟩, by decide, _, by simp, rfl⟩

theorem witness_NothingStopsTheBlock : (depth 16).sp.toNat ≤ 16 ∧ SessionInv midSession := ⟨by decide, midSession_inv⟩

end Sys2Proof.Tests
end

section
/-! ### The step of run state `RUNNING`, one equation for each branch (10_state.md R24, 20_memory.md R61) -/

namespace Sys2Proof.Machine

/-- R61 in numbers: the byte at the lower address is the high byte. -/
theorem opcodeOf_toNat (high low : Byte) : (opcodeOf high low).toNat = high.toNat * 0x100 + low.toNat := by
  rw [opcodeOf, BitVec.toNat_append, ← Nat.shiftLeft_add_eq_or_of_lt low.isLt, Nat.shiftLeft_eq]

/-- The word fetched at `PC` is the only one with that value. -/
theorem State.opcode_eq_of_toNat {s : State} {op : Word}
    (h : op.toNat = (s.byteAt s.pc.toNat).toNat * 0x100 + (s.byteAt (s.pc.toNat + 1)).toNat) : s.opcode = op :=
  BitVec.eq_of_toNat_eq ((opcodeOf_toNat _ _).trans h.symm)

@[simp] theorem State.beginTransaction_opcode (s : State) : s.beginTransaction.opcode = s.opcode := rfl

theorem instructionStep_of_pc_outOfRange {s : State} (h : 0xFFE < s.pc.toNat) :
    instructionStep s = .next (s.raise .programCounterOutOfRange s.pc) :=
  if_pos h

theorem instructionStep_of_pc_inRange {s : State} (h : s.pc.toNat ≤ 0xFFE) :
    instructionStep s = executeWord s.opcode s :=
  if_neg (not_lt.mpr h)

theorem executeWord_of_decode_ok {op : Word} {i : Instr} (h : decodeWord op = .ok i) (s : State) :
    executeWord op s = exec i s := by
  simp only [executeWord, h]

theorem executeWord_of_decode_error {op : Word} {r : DecodeReject} (h : decodeWord op = .error r) (s : State) :
    executeWord op s = .next (s.raise .unknownOpcode op) := by
  simp only [executeWord, h, Executed.outcome_raised]

theorem step_of_running {s : State} (h : s.run = .running) :
    step s = mapNext (instructionStep s.beginTransaction) State.endStep :=
  stepOnce_running (s := s.beginTransaction) h

theorem step_of_pc_outOfRange {s : State} (h : s.run = .running) (hpc : 0xFFE < s.pc.toNat) :
    step s = .next (s.beginTransaction.raise .programCounterOutOfRange s.pc).endStep := by
  rw [step_of_running h, instructionStep_of_pc_outOfRange (s := s.beginTransaction) hpc]
  rfl

theorem step_of_pc_inRange {s : State} (h : s.run = .running) (hpc : s.pc.toNat ≤ 0xFFE) :
    step s = mapNext (executeWord s.opcode s.beginTransaction) State.endStep := by
  rw [step_of_running h, instructionStep_of_pc_inRange (s := s.beginTransaction) hpc, State.beginTransaction_opcode]

end Sys2Proof.Machine

namespace Sys2Proof.Proofs

open Machine

/-- Settles O6, by the three branches of the step: `PC` out of range, a word that decodes, a word that does not. -/
theorem stepRunsDecodedInstruction : Obligations.StepRunsDecodedInstruction := by
  intro s hrun
  refine ⟨step_of_pc_outOfRange hrun, fun hpc op hop => ?_⟩
  rw [step_of_pc_inRange hrun hpc, State.opcode_eq_of_toNat hop]
  constructor
  · intro i hi
    rw [executeWord_of_decode_ok hi]
  · intro r hr
    rw [executeWord_of_decode_error hr]
    rfl

end Sys2Proof.Proofs
end

section
/-! ### What the decoder rejects and what it consumes (30_encoding.md R90, R95, R98) -/

namespace Sys2Proof

theorem decodeMajor8_error {op : Word} {r : DecodeReject} (h : decodeMajor8 op = .error r) :
    r = .illegal .form8XYn op := by
  unfold decodeMajor8 at h
  split at h <;> cases h
  rfl

theorem decodeMajorE_error {op : Word} {r : DecodeReject} (h : decodeMajorE op = .error r) :
    r = .illegal .formEXnn op := by
  unfold decodeMajorE at h
  split at h <;> cases h
  rfl

theorem decodeMajorF_error {op : Word} {r : DecodeReject} (h : decodeMajorF op = .error r) :
    r = .illegal .formFXnn op := by
  unfold decodeMajorF at h
  split at h <;> cases h
  rfl

/-- The shape of majors `5` and `9`, which decode only where the minor field is 0. -/
theorem eq_of_ite_ok_error {c : Prop} [Decidable c] {i : Instr} {q r : DecodeReject}
    (h : (if c then .ok i else .error q : Except DecodeReject Instr) = .error r) : r = q := by
  split at h <;> cases h
  rfl

/-- A word is rejected only as an illegal word, and under its own value: by majors `5`, `8`, `9`, `E` and `F`. -/
theorem decodeWord_error {op : Word} {r : DecodeReject} (h : decodeWord op = .error r) :
    ∃ f : IllegalForm, r = .illegal f op := by
  unfold decodeWord at h
  split at h
  case h_6 => exact ⟨_, eq_of_ite_ok_error h⟩
  case h_9 => exact ⟨_, decodeMajor8_error h⟩
  case h_10 => exact ⟨_, eq_of_ite_ok_error h⟩
  case h_15 => exact ⟨_, decodeMajorE_error h⟩
  case h_16 => exact ⟨_, decodeMajorF_error h⟩
  all_goals cases h

theorem decode_of_decodeWord_ok {high low : Byte} {i : Instr} (h : decodeWord (opcodeOf high low) = .ok i)
    (rest : List Byte) : decode (high :: low :: rest) = .ok (i, rest) := by
  simp only [decode, h]

theorem decode_of_decodeWord_error {high low : Byte} {r : DecodeReject}
    (h : decodeWord (opcodeOf high low) = .error r) (rest : List Byte) :
    decode (high :: low :: rest) = .error r := by
  simp only [decode, h]

theorem opcodeOf_eq_ofNat (high low : Byte) : opcodeOf high low = .ofNat 16 (high.toNat * 0x100 + low.toNat) := by
  rw [← Machine.opcodeOf_toNat, BitVec.ofNat_toNat, BitVec.setWidth_eq]

@[simp] theorem encodeBytes_length (i : Instr) : (encodeBytes i).length = 2 := rfl

end Sys2Proof

namespace Sys2Proof.Proofs

/-- Settles O3: the word of the two bytes decodes, or `decodeWord_error` says how it is rejected. -/
theorem everyInstructionIsTwoBytes : Obligations.EveryInstructionIsTwoBytes := by
  refine ⟨encodeBytes_length, fun high low rest => ?_⟩
  rw [← opcodeOf_eq_ofNat]
  cases hd : decodeWord (opcodeOf high low) with
  | ok i => exact .inl ⟨i, rfl, decode_of_decodeWord_ok hd rest⟩
  | error r =>
    obtain ⟨f, rfl⟩ := decodeWord_error hd
    exact .inr ⟨f, decode_of_decodeWord_error hd rest⟩

end Sys2Proof.Proofs
end

section
/-! ### The fields of a word, as numbers (30_encoding.md R91, R92) -/

namespace Sys2Proof

theorem majorField_toNat (op : Word) : (majorField op).toNat = op.toNat / 0x1000 := by
  rw [majorField, BitVec.extractLsb'_toNat, Nat.shiftRight_eq_div_pow]
  omega

theorem xField_val (op : Word) : (xField op).val = op.toNat / 0x100 % 0x10 := by
  rw [xField, BitVec.val_toFin, BitVec.extractLsb'_toNat, Nat.shiftRight_eq_div_pow]

theorem yField_val (op : Word) : (yField op).val = op.toNat / 0x10 % 0x10 := by
  rw [yField, BitVec.val_toFin, BitVec.extractLsb'_toNat, Nat.shiftRight_eq_div_pow]

theorem minorField_toNat (op : Word) : (minorField op).toNat = op.toNat % 0x10 := by
  rw [minorField, BitVec.extractLsb'_toNat, Nat.shiftRight_zero]

theorem nnField_toNat (op : Word) : (nnField op).toNat = op.toNat % 0x100 := by
  rw [nnField, BitVec.extractLsb'_toNat, Nat.shiftRight_zero]

/-- Format `reg_imm`: the fields of a word given as a number, `base` standing for the major opcode. -/
theorem fields_regImm {base : Nat} {major : BitVec 4} (hbase : base = major.toNat * 0x1000) (x : Reg) (nn : Byte) :
    majorField (.ofNat 16 (base + x.val * 0x100 + nn.toNat)) = major ∧
      xField (.ofNat 16 (base + x.val * 0x100 + nn.toNat)) = x ∧
      nnField (.ofNat 16 (base + x.val * 0x100 + nn.toNat)) = nn := by
  refine ⟨BitVec.eq_of_toNat_eq ?_, Fin.ext ?_, BitVec.eq_of_toNat_eq ?_⟩
  · rw [majorField_toNat, BitVec.toNat_ofNat]
    omega
  · rw [xField_val, BitVec.toNat_ofNat]
    omega
  · rw [nnField_toNat, BitVec.toNat_ofNat]
    omega

/-- Format `reg_reg`: as `fields_regImm`, `base` standing for the major opcode and the last nibble. -/
theorem fields_regReg {base : Nat} {major last : BitVec 4} (hbase : base = major.toNat * 0x1000 + last.toNat)
    (x y : Reg) :
    majorField (.ofNat 16 (base + x.val * 0x100 + y.val * 0x10)) = major ∧
      xField (.ofNat 16 (base + x.val * 0x100 + y.val * 0x10)) = x ∧
      yField (.ofNat 16 (base + x.val * 0x100 + y.val * 0x10)) = y ∧
      minorField (.ofNat 16 (base + x.val * 0x100 + y.val * 0x10)) = last := by
  refine ⟨BitVec.eq_of_toNat_eq ?_, Fin.ext ?_, Fin.ext ?_, BitVec.eq_of_toNat_eq ?_⟩
  · rw [majorField_toNat, BitVec.toNat_ofNat]
    omega
  · rw [xField_val, BitVec.toNat_ofNat]
    omega
  · rw [yField_val, BitVec.toNat_ofNat]
    omega
  · rw [minorField_toNat, BitVec.toNat_ofNat]
    omega

theorem decodeWord_6XNN (x : Reg) (nn : Byte) :
    decodeWord (.ofNat 16 (0x6000 + x.val * 0x100 + nn.toNat)) = .ok (.ldImm x nn) := by
  obtain ⟨hmajor, hx, hnn⟩ := fields_regImm (base := 0x6000) (major := 0x6#4) rfl x nn
  simp only [decodeWord, hmajor, hx, hnn]

theorem decodeWord_7XNN (x : Reg) (nn : Byte) :
    decodeWord (.ofNat 16 (0x7000 + x.val * 0x100 + nn.toNat)) = .ok (.addImm x nn) := by
  obtain ⟨hmajor, hx, hnn⟩ := fields_regImm (base := 0x7000) (major := 0x7#4) rfl x nn
  simp only [decodeWord, hmajor, hx, hnn]

theorem decodeWord_8XY0 (x y : Reg) :
    decodeWord (.ofNat 16 (0x8000 + x.val * 0x100 + y.val * 0x10)) = .ok (.ldReg x y) := by
  obtain ⟨hmajor, hx, hy, hlast⟩ := fields_regReg (base := 0x8000) (major := 0x8#4) (last := 0x0#4) rfl x y
  simp only [decodeWord, decodeMajor8, hmajor, hx, hy, hlast]

end Sys2Proof
end

section
/-! ### An instruction that writes one register (10_state.md R24 item 4) -/

namespace Sys2Proof.Machine

theorem State.advancePc_pc_toNat (s : State) : s.advancePc.pc.toNat = after s.pc := nextWord_toNat s.pc

theorem State.setReg_reg_same (s : State) (x : Reg) (b : Byte) : (s.setReg x b).reg x = b := by
  rw [State.setReg_reg, if_pos rfl]

theorem keepsRegsBut_advancePc_setReg (s : State) (x : Reg) (b : Byte) :
    KeepsRegsBut [x] s (s.advancePc.setReg x b) := by
  intro r hr
  have hne : r ≠ x := List.ne_of_not_mem_cons hr
  rw [State.setReg_reg, if_neg hne, State.advancePc_reg]

theorem keepsAllBut_advancePc_setReg (s : State) (x : Reg) (b : Byte) :
    KeepsAllBut [.registers, .counter] s (s.advancePc.setReg x b) := by
  intro p hp
  cases p with
  | registers | counter => simp at hp
  | _ => simp [Part.same]

/-- The frame of an instruction that writes `V[X]` and goes on to the next word. -/
theorem frame_advancePc_setReg (s : State) (x : Reg) (b : Byte) :
    KeepsRegsBut [x] s (s.advancePc.setReg x b) ∧ (s.advancePc.setReg x b).pc.toNat = after s.pc ∧
      KeepsAllBut [.registers, .counter] s (s.advancePc.setReg x b) :=
  ⟨keepsRegsBut_advancePc_setReg s x b, s.advancePc_pc_toNat, keepsAllBut_advancePc_setReg s x b⟩

end Sys2Proof.Machine

namespace Sys2Proof.Proofs

open Machine

/-- Settles O7: all three advance `PC` and write one register, so they differ only in their words and in the byte they
write. -/
theorem loadsAndAddImmediateWriteVx : Obligations.LoadsAndAddImmediateWriteVx := by
  intro x y nn s
  refine ⟨⟨decodeWord_6XNN x nn, s.advancePc.setReg x nn, rfl, ?_, frame_advancePc_setReg s x nn⟩,
    ⟨decodeWord_7XNN x nn, s.advancePc.setReg x (s.reg x + nn), rfl, ?_, frame_advancePc_setReg s x (s.reg x + nn)⟩,
    ⟨decodeWord_8XY0 x y, s.advancePc.setReg x (s.reg y), rfl, ?_, frame_advancePc_setReg s x (s.reg y)⟩⟩
  · exact State.setReg_reg_same _ x nn
  · rw [State.setReg_reg_same, BitVec.toNat_add]
  · exact State.setReg_reg_same _ x (s.reg y)

end Sys2Proof.Proofs
end

section
/-! ### The words of the skips and of `CALL` (30_encoding.md R91, R92, R95) -/

namespace Sys2Proof

theorem nnnField_toNat (op : Word) : (nnnField op).toNat = op.toNat % 0x1000 := by
  rw [nnnField, BitVec.extractLsb'_toNat, Nat.shiftRight_zero]

/-- Format `addr`: as `fields_regImm`, `base` standing for the major opcode. -/
theorem fields_addr {base : Nat} {major : BitVec 4} (hbase : base = major.toNat * 0x1000) (nnn : Addr) :
    majorField (.ofNat 16 (base + nnn.toNat)) = major ∧ nnnField (.ofNat 16 (base + nnn.toNat)) = nnn := by
  refine ⟨BitVec.eq_of_toNat_eq ?_, BitVec.eq_of_toNat_eq ?_⟩
  · rw [majorField_toNat, BitVec.toNat_ofNat]
    omega
  · rw [nnnField_toNat, BitVec.toNat_ofNat]
    omega

theorem decodeWord_2NNN (nnn : Addr) : decodeWord (.ofNat 16 (0x2000 + nnn.toNat)) = .ok (.call nnn) := by
  obtain ⟨hmajor, hnnn⟩ := fields_addr (base := 0x2000) (major := 0x2#4) rfl nnn
  simp only [decodeWord, hmajor, hnnn]

theorem decodeWord_3XNN (x : Reg) (nn : Byte) :
    decodeWord (.ofNat 16 (0x3000 + x.val * 0x100 + nn.toNat)) = .ok (.seImm x nn) := by
  obtain ⟨hmajor, hx, hnn⟩ := fields_regImm (base := 0x3000) (major := 0x3#4) rfl x nn
  simp only [decodeWord, hmajor, hx, hnn]

theorem decodeWord_4XNN (x : Reg) (nn : Byte) :
    decodeWord (.ofNat 16 (0x4000 + x.val * 0x100 + nn.toNat)) = .ok (.sneImm x nn) := by
  obtain ⟨hmajor, hx, hnn⟩ := fields_regImm (base := 0x4000) (major := 0x4#4) rfl x nn
  simp only [decodeWord, hmajor, hx, hnn]

theorem decodeWord_5XY0 (x y : Reg) :
    decodeWord (.ofNat 16 (0x5000 + x.val * 0x100 + y.val * 0x10)) = .ok (.seReg x y) := by
  obtain ⟨hmajor, hx, hy, hlast⟩ := fields_regReg (base := 0x5000) (major := 0x5#4) (last := 0x0#4) rfl x y
  simp only [decodeWord, hmajor, hx, hy, hlast, if_true]

theorem decodeWord_9XY0 (x y : Reg) :
    decodeWord (.ofNat 16 (0x9000 + x.val * 0x100 + y.val * 0x10)) = .ok (.sneReg x y) := by
  obtain ⟨hmajor, hx, hy, hlast⟩ := fields_regReg (base := 0x9000) (major := 0x9#4) (last := 0x0#4) rfl x y
  simp only [decodeWord, hmajor, hx, hy, hlast, if_true]

/-- Majors `5` and `9` reject every word whose minor field is not 0 (R95). -/
theorem decodeWord_ne_ok_of_minor_ne_zero {op : Word} (hmajor : majorField op = 0x5#4 ∨ majorField op = 0x9#4)
    (hminor : minorField op ≠ 0x0#4) (i : Instr) : decodeWord op ≠ .ok i := by
  rcases hmajor with hmajor | hmajor <;> simp [decodeWord, hmajor, hminor]

/-- Format `reg_reg` with the last nibble written last: the two fields that decide whether majors `5` and `9` decode. -/
theorem major_minor_regReg {base : Nat} {major : BitVec 4} (hbase : base = major.toNat * 0x1000) (x y : Reg)
    (n : Fin 16) :
    majorField (.ofNat 16 (base + x.val * 0x100 + y.val * 0x10 + n.val)) = major ∧
      minorField (.ofNat 16 (base + x.val * 0x100 + y.val * 0x10 + n.val)) = nibble n := by
  have hlast : base + n.val = major.toNat * 0x1000 + (nibble n).toNat := congrArg (· + n.val) hbase
  obtain ⟨hmajor, -, -, hminor⟩ := fields_regReg hlast x y
  rw [show base + x.val * 0x100 + y.val * 0x10 + n.val = base + n.val + x.val * 0x100 + y.val * 0x10 by omega]
  exact ⟨hmajor, hminor⟩

theorem nibble_ne_zero {n : Fin 16} (h : n ≠ 0) : nibble n ≠ 0x0#4 :=
  fun e => h (congrArg BitVec.toFin e)

theorem decodeWord_5XYn_ne_ok (x y : Reg) {n : Fin 16} (hn : n ≠ 0) (i : Instr) :
    decodeWord (.ofNat 16 (0x5000 + x.val * 0x100 + y.val * 0x10 + n.val)) ≠ .ok i := by
  obtain ⟨hmajor, hminor⟩ := major_minor_regReg (base := 0x5000) (major := 0x5#4) rfl x y n
  exact decodeWord_ne_ok_of_minor_ne_zero (.inl hmajor) (hminor ▸ nibble_ne_zero hn) i

theorem decodeWord_9XYn_ne_ok (x y : Reg) {n : Fin 16} (hn : n ≠ 0) (i : Instr) :
    decodeWord (.ofNat 16 (0x9000 + x.val * 0x100 + y.val * 0x10 + n.val)) ≠ .ok i := by
  obtain ⟨hmajor, hminor⟩ := major_minor_regReg (base := 0x9000) (major := 0x9#4) rfl x y n
  exact decodeWord_ne_ok_of_minor_ne_zero (.inr hmajor) (hminor ▸ nibble_ne_zero hn) i

end Sys2Proof
end

section
/-! ### A skip (42_control_flow.md R159) -/

namespace Sys2Proof.Machine

/-- The advance of every instruction, and 2 more where the skip is taken. -/
theorem State.advancePc_skipIf_pc_toNat (s : State) (c : Bool) :
    (s.advancePc.skipIf c).pc.toNat = (s.pc.toNat + if c then 4 else 2) % 0x1000 := by
  rw [State.skipIf_pc, State.advancePc_pc]
  cases c with
  | false => exact nextWord_toNat s.pc
  | true =>
    calc (nextWord (nextWord s.pc)).toNat
        = ((s.pc.toNat + 2) % 0x1000 + 2) % 0x1000 := by rw [nextWord_toNat, nextWord_toNat]
      _ = (s.pc.toNat + 4) % 0x1000 := by omega

theorem keepsAllBut_advancePc_skipIf (s : State) (c : Bool) : KeepsAllBut [.counter] s (s.advancePc.skipIf c) := by
  intro p hp
  cases p with
  | counter => simp at hp
  | _ => simp [Part.same]

/-- What every skip instruction answers, `d` being how far its condition takes `PC`. -/
theorem skipInstr_answers {c : Bool} {d : Nat} (hd : (if c then 4 else 2) = d) (s : State) :
    ∃ t, skipInstr c s = .next t ∧ t.pc.toNat = (s.pc.toNat + d) % 0x1000 ∧ KeepsAllBut [.counter] s t :=
  ⟨s.advancePc.skipIf c, rfl, hd ▸ s.advancePc_skipIf_pc_toNat c, keepsAllBut_advancePc_skipIf s c⟩

/-- The distance of a skip on equality. -/
theorem skipDistance_beq (a b : Byte) : (if a == b then 4 else 2) = if a = b then 4 else 2 := by
  simp only [beq_iff_eq]

/-- The distance of a skip on inequality. -/
theorem skipDistance_bne (a b : Byte) : (if a != b then 4 else 2) = if a = b then 2 else 4 := by
  simp only [bne_iff_ne, ne_eq, ite_not]

end Sys2Proof.Machine

namespace Sys2Proof.Proofs

open Machine

/-- Settles O16: all four are one skip, on equality or on inequality, so they differ only in their words and in the bytes
they compare. -/
theorem skipsAdvanceByCondition : Obligations.SkipsAdvanceByCondition := by
  intro x y nn s
  refine ⟨⟨decodeWord_3XNN x nn, ?_⟩, ⟨decodeWord_4XNN x nn, ?_⟩, ⟨decodeWord_5XY0 x y, ?_⟩,
    ⟨decodeWord_9XY0 x y, ?_⟩, fun n hn i => ⟨decodeWord_5XYn_ne_ok x y hn i, decodeWord_9XYn_ne_ok x y hn i⟩⟩
  · exact skipInstr_answers (skipDistance_beq (s.reg x) nn) s
  · exact skipInstr_answers (skipDistance_bne (s.reg x) nn) s
  · exact skipInstr_answers (skipDistance_beq (s.reg x) (s.reg y)) s
  · exact skipInstr_answers (skipDistance_bne (s.reg x) (s.reg y)) s

end Sys2Proof.Proofs
end

section
/-! ### A raised error, a push and `CALL` (60_exceptions.md R303, 10_state.md R27, 42_control_flow.md R153) -/

namespace Sys2Proof.Machine

theorem keepsAllBut_raise (s : State) (code : ErrCode) (info : Word) :
    KeepsAllBut [.run, .errorLatch, .events] s (s.raise code info) := by
  intro p hp
  cases p with
  | run | errorLatch | events => simp at hp
  | _ => simp [Part.same]

theorem raisesFrom_raise (s : State) (code : ErrCode) (info : Word) : RaisesFrom s code info (s.raise code info) :=
  ⟨rfl, rfl, rfl, rfl, keepsAllBut_raise s code info⟩

theorem State.push_of_lt {s : State} (h : s.sp.toNat < 16) (pc0 v : Word) : s.push pc0 v = .done (s.pushEntry h v) := by
  obtain ⟨hfull, -⟩ | ⟨_, hpush⟩ | ⟨hover, -⟩ := s.push_cases pc0 v
  · omega
  · exact hpush
  · omega

theorem State.push_of_full {s : State} (h : s.sp.toNat = 16) (pc0 v : Word) :
    s.push pc0 v = .raised .stackOverflow pc0 := by
  obtain ⟨-, hpush⟩ | ⟨hlt, -⟩ | ⟨hover, -⟩ := s.push_cases pc0 v
  · exact hpush
  · omega
  · omega

theorem State.pushEntry_sp_toNat {s : State} (h : s.sp.toNat < 16) (v : Word) :
    (s.pushEntry h v).sp.toNat = s.sp.toNat + 1 := by
  rw [State.pushEntry_sp]
  exact BitVec.toNat_add_of_lt (show s.sp.toNat + 1 < 2 ^ 8 by omega)

/-- A push writes the entry that `SP` names and no other. -/
theorem State.pushEntry_stack_getElem {s : State} (h : s.sp.toNat < 16) (v : Word) (k : Fin 16) :
    (s.pushEntry h v).stack[k.val] = if s.sp.toNat = k.val then v else s.stack[k.val] := by
  simp only [State.pushEntry_stack, Vector.getElem_set]

/-- The state a call of `nnn` leaves when the stack has room: the advanced `PC` lives on as the entry pushed. -/
def State.afterCall (s : State) (h : s.sp.toNat < 16) (nnn : Addr) : State :=
  (s.pushEntry h (nextWord s.pc)).setPc (addrOperand nnn)

theorem exec_call_of_lt {s : State} (h : s.sp.toNat < 16) (nnn : Addr) :
    exec (.call nnn) s = .next (s.afterCall h nnn) := by
  simp only [exec, execCall, State.push_of_lt (s := s.advancePc) h]
  rfl

theorem exec_call_of_full {s : State} (h : s.sp.toNat = 16) (nnn : Addr) :
    exec (.call nnn) s = .next (s.raise .stackOverflow s.pc) := by
  simp only [exec, execCall, State.push_of_full (s := s.advancePc) h]
  rfl

theorem State.afterCall_pc_toNat {s : State} (h : s.sp.toNat < 16) (nnn : Addr) :
    (s.afterCall h nnn).pc.toNat = nnn.toNat :=
  addrOperand_toNat nnn

theorem State.afterCall_sp_toNat {s : State} (h : s.sp.toNat < 16) (nnn : Addr) :
    (s.afterCall h nnn).sp.toNat = s.sp.toNat + 1 :=
  State.pushEntry_sp_toNat h (nextWord s.pc)

theorem State.afterCall_stack_getElem {s : State} (h : s.sp.toNat < 16) (nnn : Addr) (k : Fin 16) :
    (s.afterCall h nnn).stack[k.val] = if s.sp.toNat = k.val then nextWord s.pc else s.stack[k.val] :=
  State.pushEntry_stack_getElem h (nextWord s.pc) k

theorem keepsAllBut_afterCall {s : State} (h : s.sp.toNat < 16) (nnn : Addr) :
    KeepsAllBut [.counter, .callStack] s (s.afterCall h nnn) := by
  intro p hp
  cases p with
  | counter | callStack => simp at hp
  | _ => simp [Part.same, State.afterCall]

end Sys2Proof.Machine

namespace Sys2Proof.Proofs

open Machine

/-- Settles O14, by whether the stack has room for the entry. -/
theorem callPushesNextAddress : Obligations.CallPushesNextAddress := by
  intro nnn s
  refine ⟨decodeWord_2NNN nnn, fun j hj => ?_, fun hfull => ?_⟩
  · have hlt : s.sp.toNat < 16 := hj ▸ j.isLt
    refine ⟨s.afterCall hlt nnn, exec_call_of_lt hlt nnn, State.afterCall_pc_toNat hlt nnn, ?_, ?_, fun k hk => ?_,
      keepsAllBut_afterCall hlt nnn⟩
    · rw [State.afterCall_sp_toNat, hj]
    · rw [State.afterCall_stack_getElem, if_pos hj]
      exact nextWord_toNat s.pc
    · have hne : s.sp.toNat ≠ k.val := fun e => hk (Fin.ext (e.symm.trans hj))
      rw [State.afterCall_stack_getElem, if_neg hne]
  · exact ⟨s.raise .stackOverflow s.pc, exec_call_of_full hfull nnn, raisesFrom_raise s .stackOverflow s.pc⟩

end Sys2Proof.Proofs
end

section
/-! ### An instruction that writes `I` (43_memory_ops.md R180, 10_state.md R24 item 4) -/

namespace Sys2Proof

theorem decodeWord_ANNN (nnn : Addr) : decodeWord (.ofNat 16 (0xA000 + nnn.toNat)) = .ok (.ldI nnn) := by
  obtain ⟨hmajor, hnnn⟩ := fields_addr (base := 0xA000) (major := 0xA#4) rfl nnn
  simp only [decodeWord, hmajor, hnnn]

end Sys2Proof

namespace Sys2Proof.Machine

theorem exec_ldI (nnn : Addr) (s : State) : exec (.ldI nnn) s = .next (s.advancePc.setIdx (addrOperand nnn)) := rfl

/-- The frame of an instruction that writes `I` and goes on to the next word, whatever address it writes. -/
theorem keepsAllBut_advancePc_setIdx (s : State) (a : Word) :
    KeepsAllBut [.index, .counter] s (s.advancePc.setIdx a) := by
  intro p hp
  cases p with
  | index | counter => simp at hp
  | _ => simp [Part.same]

end Sys2Proof.Machine

namespace Sys2Proof.Proofs

open Machine

/-- Settles O18: the address is written to `I` zero-extended, so as a number it is `NNN` itself. -/
theorem loadIndexWritesNNN : Obligations.LoadIndexWritesNNN := by
  intro nnn s
  refine ⟨decodeWord_ANNN nnn, s.advancePc.setIdx (addrOperand nnn), exec_ldI nnn s, ?_, ?_,
    keepsAllBut_advancePc_setIdx s (addrOperand nnn)⟩
  · rw [State.setIdx_idx, addrOperand_toNat]
  · rw [State.setIdx_pc, State.advancePc_pc_toNat]

end Sys2Proof.Proofs
end

section
/-! ### The words of major `F` (30_encoding.md R91, R92, R95) -/

namespace Sys2Proof

/-- Major `F`: as `fields_regImm`, `base` standing for the major opcode and the last byte. -/
theorem fields_majorF {base : Nat} {nn : Byte} (hbase : base = 0xF000 + nn.toNat) (x : Reg) :
    majorField (.ofNat 16 (base + x.val * 0x100)) = 0xF#4 ∧ xField (.ofNat 16 (base + x.val * 0x100)) = x ∧
      nnField (.ofNat 16 (base + x.val * 0x100)) = nn := by
  rw [hbase, Nat.add_right_comm]
  exact fields_regImm (major := 0xF#4) rfl x nn

theorem decodeWord_of_major_F {op : Word} (h : majorField op = 0xF#4) : decodeWord op = decodeMajorF op := by
  simp [decodeWord, h]

theorem decodeWord_FX07 (x : Reg) : decodeWord (.ofNat 16 (0xF007 + x.val * 0x100)) = .ok (.ldVxDt x) := by
  obtain ⟨hmajor, hx, hnn⟩ := fields_majorF (base := 0xF007) (nn := 0x07#8) rfl x
  simp only [decodeWord_of_major_F hmajor, decodeMajorF, hx, hnn]

theorem decodeWord_FX15 (x : Reg) : decodeWord (.ofNat 16 (0xF015 + x.val * 0x100)) = .ok (.ldDtVx x) := by
  obtain ⟨hmajor, hx, hnn⟩ := fields_majorF (base := 0xF015) (nn := 0x15#8) rfl x
  simp only [decodeWord_of_major_F hmajor, decodeMajorF, hx, hnn]

theorem decodeWord_FX18 (x : Reg) : decodeWord (.ofNat 16 (0xF018 + x.val * 0x100)) = .ok (.ldStVx x) := by
  obtain ⟨hmajor, hx, hnn⟩ := fields_majorF (base := 0xF018) (nn := 0x18#8) rfl x
  simp only [decodeWord_of_major_F hmajor, decodeMajorF, hx, hnn]

end Sys2Proof
end

section
/-! ### The timers: instructions and ticks (46_timer.md R240-R242, 60_exceptions.md R321-R323) -/

namespace Sys2Proof.Machine

theorem exec_ldVxDt (x : Reg) (s : State) : exec (.ldVxDt x) s = .next (s.advancePc.setReg x s.dt) := rfl

theorem exec_ldDtVx (x : Reg) (s : State) : exec (.ldDtVx x) s = .next (s.advancePc.setDt (s.reg x)) := rfl

theorem exec_ldStVx (x : Reg) (s : State) : exec (.ldStVx x) s = .next (s.advancePc.setSt (s.reg x)) := rfl

theorem keepsAllBut_advancePc_setDt (s : State) (b : Byte) :
    KeepsAllBut [.delayTimer, .counter] s (s.advancePc.setDt b) := by
  intro p hp
  cases p with
  | delayTimer | counter => simp at hp
  | _ => simp [Part.same]

theorem keepsAllBut_advancePc_setSt (s : State) (b : Byte) :
    KeepsAllBut [.soundTimer, .counter] s (s.advancePc.setSt b) := by
  intro p hp
  cases p with
  | soundTimer | counter => simp at hp
  | _ => simp [Part.same]

theorem iterate_countDown_toNat (n : Nat) (b : Byte) : (countDown^[n] b).toNat = b.toNat - n := by
  induction n with
  | zero => rfl
  | succ n ih => rw [Function.iterate_succ_apply', countDown_toNat, ih, Nat.sub_sub]

/-- Ticks count the delay timer down by itself, whatever else the state holds. -/
theorem State.iterate_timerTick_dt (n : Nat) (s : State) : (State.timerTick^[n] s).dt = countDown^[n] s.dt :=
  Function.Semiconj.iterate_right (f := State.dt) State.timerTick_dt n s

/-- Ticks count the sound timer down by itself, whatever else the state holds. -/
theorem State.iterate_timerTick_st (n : Nat) (s : State) : (State.timerTick^[n] s).st = countDown^[n] s.st :=
  Function.Semiconj.iterate_right (f := State.st) State.timerTick_st n s

theorem State.iterate_timerTick_dt_toNat (n : Nat) (s : State) :
    (State.timerTick^[n] s).dt.toNat = s.dt.toNat - n := by
  rw [State.iterate_timerTick_dt, iterate_countDown_toNat]

theorem State.iterate_timerTick_st_toNat (n : Nat) (s : State) :
    (State.timerTick^[n] s).st.toNat = s.st.toNat - n := by
  rw [State.iterate_timerTick_st, iterate_countDown_toNat]

theorem State.soundOn_iff (s : State) : s.soundOn = true ↔ 0 < s.st.toNat := by
  rw [State.soundOn, bne_iff_ne, Nat.pos_iff_ne_zero, ne_eq, BitVec.toNat_eq]
  rfl

theorem State.iterate_timerTick_soundOn_iff (n : Nat) (s : State) :
    (State.timerTick^[n] s).soundOn = true ↔ n < s.st.toNat := by
  rw [State.soundOn_iff, State.iterate_timerTick_st_toNat, Nat.sub_pos_iff_lt]

theorem State.timerTick_events_of_sounding {s : State} (h : s.soundOn = true) :
    s.timerTick.events = s.events ++ [.beep] := by
  rw [State.timerTick_events, if_neg (bne_iff_ne.mp h)]

theorem State.timerTick_events_of_silent {s : State} (h : ¬ s.soundOn = true) : s.timerTick.events = s.events := by
  rw [State.timerTick_events, if_pos (not_not.mp (mt bne_iff_ne.mpr h))]

/-- By whether the last tick finds the sound timer running: the tick that takes `ST` from 1 to 0 still beeps (R322). -/
theorem State.iterate_timerTick_events (n : Nat) (s : State) :
    (State.timerTick^[n] s).events = s.events ++ List.replicate (min n s.st.toNat) .beep := by
  induction n with
  | zero => simp
  | succ n ih =>
    rw [Function.iterate_succ_apply']
    by_cases h : n < s.st.toNat
    · have hmin : min (n + 1) s.st.toNat = min n s.st.toNat + 1 := by omega
      rw [State.timerTick_events_of_sounding ((State.iterate_timerTick_soundOn_iff n s).mpr h), ih, hmin,
        List.replicate_succ', List.append_assoc]
    · have hmin : min (n + 1) s.st.toNat = min n s.st.toNat := by omega
      rw [State.timerTick_events_of_silent (mt (State.iterate_timerTick_soundOn_iff n s).mp h), ih, hmin]

end Sys2Proof.Machine

namespace Sys2Proof.Proofs

open Machine

/-- Settles O36: the load sets the timer to `V[X]` and leaves the events as they were, so the laws of iterated ticks,
taken at the loaded state, speak of `V[X]` and of the events before. -/
theorem timersCountDownFromLoad : Obligations.TimersCountDownFromLoad := by
  intro x s
  exact ⟨⟨decodeWord_FX15 x, s.advancePc.setDt (s.reg x), exec_ldDtVx x s, State.setDt_dt _ _, s.advancePc_pc_toNat,
      keepsAllBut_advancePc_setDt s (s.reg x), fun n => State.iterate_timerTick_dt_toNat n _⟩,
    ⟨decodeWord_FX18 x, s.advancePc.setSt (s.reg x), exec_ldStVx x s, State.setSt_st _ _, s.advancePc_pc_toNat,
      keepsAllBut_advancePc_setSt s (s.reg x), fun n => ⟨State.iterate_timerTick_st_toNat n _,
        State.iterate_timerTick_soundOn_iff n _, State.iterate_timerTick_events n _⟩⟩⟩

/-- Settles O35: `FX07` is one more write of a register, so its frame is that of every such instruction. -/
theorem readDelayTimer : Obligations.ReadDelayTimer := by
  intro x s
  exact ⟨decodeWord_FX07 x, s.advancePc.setReg x s.dt, exec_ldVxDt x s, State.setReg_reg_same _ x s.dt,
    frame_advancePc_setReg s x s.dt⟩

end Sys2Proof.Proofs
end

section
/-! ### The run state an instruction leaves: the one it began in, or `HALTED` (10_state.md R33, 60_exceptions.md R303) -/

namespace Sys2Proof.Machine

theorem Executed.andThen_done {e : Executed} {f : State → Executed} {t : State} (h : e.andThen f = .done t) :
    ∃ u, e = .done u ∧ f u = .done t := by
  cases e with
  | done u => exact ⟨u, rfl, h⟩
  | raised | stuck => cases h

theorem State.checkRange_done {s t : State} {last : Nat} {f : State → Executed}
    (h : s.checkRange last f = .done t) : f s = .done t := by
  obtain ⟨-, hgo⟩ | ⟨-, hraise⟩ := s.checkRange_cases last f
  · exact hgo ▸ h
  · cases hraise ▸ h

theorem State.push_done_run {s t : State} {pc0 v : Word} (h : s.push pc0 v = .done t) : t.run = s.run := by
  obtain ⟨-, hpush⟩ | ⟨_, hpush⟩ | ⟨-, hpush⟩ := s.push_cases pc0 v <;> cases hpush ▸ h
  rfl

theorem State.popToPc_done_run {s t : State} {pc0 : Word} (h : s.popToPc pc0 = .done t) : t.run = s.run := by
  obtain ⟨-, hpop⟩ | ⟨-, _, hpop⟩ | ⟨-, hpop⟩ := s.popToPc_cases pc0 <;> cases hpop ▸ h
  rfl

@[simp] theorem State.setRegs_run (s : State) (first : Nat) (bytes : List Byte) :
    (s.setRegs first bytes).run = s.run := by
  rw [State.setRegs_eq]

/-- An instruction that can raise: only its completion needs to be looked at, an error halts. -/
theorem Executed.outcome_run {e : Executed} {s t : State} (h : e.outcome s = .next t)
    (hdone : e = .done t → t.run = s.run) : t.run = s.run ∨ t.run = .halted := by
  obtain he | ⟨code, info, -, rfl⟩ := Executed.outcome_next h
  · exact .inl (hdone he)
  · exact .inr (State.raise_run s code info)

/-- The run state after an instruction that checks the range of its accesses first (20_memory.md R64). -/
theorem State.checkRange_outcome_run {s s0 t : State} {last : Nat} {f : State → State}
    (h : (s.checkRange last fun u => .done (f u)).outcome s0 = .next t) (hf : (f s).run = s0.run) :
    t.run = s0.run ∨ t.run = .halted := by
  refine Executed.outcome_run h fun he => ?_
  cases State.checkRange_done he
  exact hf

theorem aluInstr_run {op : AluOp} {x y : Reg} {s t : State} (h : aluInstr op x y s = .next t) : t.run = s.run := by
  cases h
  exact State.setAluResult_run s.advancePc x _

theorem skipInstr_run {c : Bool} {s t : State} (h : skipInstr c s = .next t) : t.run = s.run := by
  cases h
  exact State.skipIf_run s.advancePc c

/-- By the instruction: those that can raise, the ALU and the skips by the operation they share; the others go on with
the run state they began in, whatever they write. -/
theorem exec_run_of_ne_ldVxK {i : Instr} {s t : State} (h : exec i s = .next t) (hi : ∀ x, i ≠ .ldVxK x) :
    t.run = s.run ∨ t.run = .halted := by
  cases i with
  | ldVxK x => exact absurd rfl (hi x)
  | sys =>
    cases h
    exact .inr rfl
  | ret => exact Executed.outcome_run h State.popToPc_done_run
  | call nnn =>
    refine Executed.outcome_run h fun he => ?_
    obtain ⟨u, hpush, hset⟩ := Executed.andThen_done he
    cases hset
    rw [State.setPc_run, State.push_done_run hpush, State.advancePc_run]
  | drw x y n =>
    by_cases hn : n = 0
    · refine Executed.outcome_run h fun he => ?_
      cases (if_pos hn).symm.trans he
      rfl
    · simp only [exec, execDrw, if_neg hn] at h
      exact State.checkRange_outcome_run h rfl
  | ldBVx | storeRegs => exact State.checkRange_outcome_run h rfl
  | loadRegs => exact State.checkRange_outcome_run h (State.setRegs_run _ 0 _)
  | orReg | andReg | xorReg | addReg | sub | shr | subn | shl => exact .inl (aluInstr_run h)
  | seImm | sneImm | seReg | sneReg | skp | sknp => exact .inl (skipInstr_run h)
  | _ =>
    cases h
    exact .inl rfl

end Sys2Proof.Machine
end

section
/-! ### Polls of a wait whose key does not come (44_input.md R202, 70_reset_and_hazards.md R392) -/

namespace Sys2Proof.Machine

theorem State.pollKeys_of_noEdge {s : State} (h : ∀ j : Fin 16, s.keyEdge[j.val] = false) : s.pollKeys = s := by
  simp only [State.pollKeys, (State.lowestEdge_none s).mpr h]

theorem State.endStep_of_clean {s : State} (h : s.dirty = false) :
    s.endStep = { s with stepResult := some s.resultOfStep } := by
  simp [State.endStep, State.renderIfDirty, h]

theorem State.resultOfStep_of_waiting_clean {s : State} (hrun : s.run = .waiting) (hdirty : s.dirty = false) :
    s.resultOfStep = ⟨false, true, none⟩ := by
  simp [State.resultOfStep, hrun, hdirty]

/-- The state after a poll that finds no edge: the outputs say that the block still waits, and there is no error. -/
def State.stillWaiting (s : State) : State := { s with events := [], stepResult := some ⟨false, true, none⟩ }

theorem keepsAllBut_refl (changed : List Part) (s : State) : KeepsAllBut changed s s := by
  intro p _
  cases p <;> simp [Part.same]

theorem keepsAllBut_stillWaiting (s : State) : KeepsAllBut [.events, .stepResult] s s.stillWaiting := by
  intro p hp
  cases p with
  | events | stepResult => simp at hp
  | _ => simp [Part.same, State.stillWaiting, State.reg, State.byteAt]

theorem cycle_of_waiting_noEdge {s : State} (hrun : s.run = .waiting) (hdirty : s.dirty = false)
    (hedge : ∀ j : Fin 16, s.keyEdge[j.val] = false) : cycle s = .next s.stillWaiting := by
  rw [cycle, stepOnce_waiting (s := s.beginTransaction) hrun, State.pollKeys_of_noEdge (s := s.beginTransaction) hedge,
    State.endStep_of_clean (s := s.beginTransaction) hdirty,
    State.resultOfStep_of_waiting_clean (s := s.beginTransaction) hrun hdirty]
  rfl

/-- Every poll after the first finds the same wait, and its outputs are those of the first. -/
theorem transactAll_cycle_of_waiting_noEdge (p : Params) (n : Nat) {s : State} (hrun : s.run = .waiting)
    (hdirty : s.dirty = false) (hedge : ∀ j : Fin 16, s.keyEdge[j.val] = false) :
    transactAll p (List.replicate (n + 1) .cycle) s = .next s.stillWaiting := by
  induction n generalizing s with
  | zero =>
    calc transactAll p [.cycle] s = bindNext (cycle s) (transactAll p []) := rfl
      _ = .next s.stillWaiting := by rw [cycle_of_waiting_noEdge hrun hdirty hedge]; rfl
  | succ n ih =>
    calc transactAll p (List.replicate (n + 2) .cycle) s
        = bindNext (cycle s) (transactAll p (List.replicate (n + 1) .cycle)) := rfl
      _ = transactAll p (List.replicate (n + 1) .cycle) s.stillWaiting := by
          rw [cycle_of_waiting_noEdge hrun hdirty hedge]; rfl
      _ = .next s.stillWaiting := ih (s := s.stillWaiting) hrun hdirty hedge

end Sys2Proof.Machine

namespace Sys2Proof.Proofs

open Machine

/-- Settles O29: every instruction but `FX0A` leaves the run state it began in or `HALTED`, so none of them enters a
wait; and from a wait with no edge the polls, if there are any, all end in the same state. -/
theorem onlyWaitForKeyBlocks : Obligations.OnlyWaitForKeyBlocks := by
  refine ⟨fun i s t h hs ht => ?_, fun p n s hrun hdirty hedge => ?_⟩
  · by_contra hi
    obtain hkept | hhalted := exec_run_of_ne_ldVxK h (not_exists.mp hi)
    · exact hs (hkept.symm.trans ht)
    · cases hhalted.symm.trans ht
  · cases n with
    | zero => exact ⟨s, rfl, keepsAllBut_refl _ s⟩
    | succ n =>
      exact ⟨s.stillWaiting, transactAll_cycle_of_waiting_noEdge p n hrun hdirty hedge, keepsAllBut_stillWaiting s⟩

end Sys2Proof.Proofs
end

section
/-! ### The words of the remaining forms (30_encoding.md R91, R92, R94) -/

namespace Sys2Proof

/-- Major `0` with an operand that is neither that of `CLS` nor that of `RET` (R96). -/
theorem decodeWord_0NNN {nnn : Addr} (hcls : nnn ≠ 0x0E0) (hret : nnn ≠ 0x0EE) :
    decodeWord (.ofNat 16 nnn.toNat) = .ok (.sys nnn) := by
  obtain ⟨hmajor, hnnn⟩ := fields_addr (base := 0) (major := 0x0#4) rfl nnn
  rw [Nat.zero_add] at hmajor hnnn
  have hne : ∀ op : Word, nnn ≠ nnnField op → BitVec.ofNat 16 nnn.toNat ≠ op :=
    fun op h e => h (hnnn.symm.trans (congrArg nnnField e))
  simp only [decodeWord, hmajor, decodeMajor0, hnnn, if_neg (hne 0x00E0#16 hcls), if_neg (hne 0x00EE#16 hret)]

theorem decodeWord_1NNN (nnn : Addr) : decodeWord (.ofNat 16 (0x1000 + nnn.toNat)) = .ok (.jp nnn) := by
  obtain ⟨hmajor, hnnn⟩ := fields_addr (base := 0x1000) (major := 0x1#4) rfl nnn
  simp only [decodeWord, hmajor, hnnn]

theorem decodeWord_8XY1 (x y : Reg) :
    decodeWord (.ofNat 16 (0x8001 + x.val * 0x100 + y.val * 0x10)) = .ok (.orReg x y) := by
  obtain ⟨hmajor, hx, hy, hlast⟩ := fields_regReg (base := 0x8001) (major := 0x8#4) (last := 0x1#4) rfl x y
  simp only [decodeWord, decodeMajor8, hmajor, hx, hy, hlast]

theorem decodeWord_8XY2 (x y : Reg) :
    decodeWord (.ofNat 16 (0x8002 + x.val * 0x100 + y.val * 0x10)) = .ok (.andReg x y) := by
  obtain ⟨hmajor, hx, hy, hlast⟩ := fields_regReg (base := 0x8002) (major := 0x8#4) (last := 0x2#4) rfl x y
  simp only [decodeWord, decodeMajor8, hmajor, hx, hy, hlast]

theorem decodeWord_8XY3 (x y : Reg) :
    decodeWord (.ofNat 16 (0x8003 + x.val * 0x100 + y.val * 0x10)) = .ok (.xorReg x y) := by
  obtain ⟨hmajor, hx, hy, hlast⟩ := fields_regReg (base := 0x8003) (major := 0x8#4) (last := 0x3#4) rfl x y
  simp only [decodeWord, decodeMajor8, hmajor, hx, hy, hlast]

theorem decodeWord_8XY4 (x y : Reg) :
    decodeWord (.ofNat 16 (0x8004 + x.val * 0x100 + y.val * 0x10)) = .ok (.addReg x y) := by
  obtain ⟨hmajor, hx, hy, hlast⟩ := fields_regReg (base := 0x8004) (major := 0x8#4) (last := 0x4#4) rfl x y
  simp only [decodeWord, decodeMajor8, hmajor, hx, hy, hlast]

theorem decodeWord_8XY5 (x y : Reg) :
    decodeWord (.ofNat 16 (0x8005 + x.val * 0x100 + y.val * 0x10)) = .ok (.sub x y) := by
  obtain ⟨hmajor, hx, hy, hlast⟩ := fields_regReg (base := 0x8005) (major := 0x8#4) (last := 0x5#4) rfl x y
  simp only [decodeWord, decodeMajor8, hmajor, hx, hy, hlast]

theorem decodeWord_8XY6 (x y : Reg) :
    decodeWord (.ofNat 16 (0x8006 + x.val * 0x100 + y.val * 0x10)) = .ok (.shr x y) := by
  obtain ⟨hmajor, hx, hy, hlast⟩ := fields_regReg (base := 0x8006) (major := 0x8#4) (last := 0x6#4) rfl x y
  simp only [decodeWord, decodeMajor8, hmajor, hx, hy, hlast]

theorem decodeWord_8XY7 (x y : Reg) :
    decodeWord (.ofNat 16 (0x8007 + x.val * 0x100 + y.val * 0x10)) = .ok (.subn x y) := by
  obtain ⟨hmajor, hx, hy, hlast⟩ := fields_regReg (base := 0x8007) (major := 0x8#4) (last := 0x7#4) rfl x y
  simp only [decodeWord, decodeMajor8, hmajor, hx, hy, hlast]

theorem decodeWord_8XYE (x y : Reg) :
    decodeWord (.ofNat 16 (0x800E + x.val * 0x100 + y.val * 0x10)) = .ok (.shl x y) := by
  obtain ⟨hmajor, hx, hy, hlast⟩ := fields_regReg (base := 0x800E) (major := 0x8#4) (last := 0xE#4) rfl x y
  simp only [decodeWord, decodeMajor8, hmajor, hx, hy, hlast]

theorem decodeWord_BNNN (nnn : Addr) : decodeWord (.ofNat 16 (0xB000 + nnn.toNat)) = .ok (.jpV0 nnn) := by
  obtain ⟨hmajor, hnnn⟩ := fields_addr (base := 0xB000) (major := 0xB#4) rfl nnn
  simp only [decodeWord, hmajor, hnnn]

theorem decodeWord_CXNN (x : Reg) (nn : Byte) :
    decodeWord (.ofNat 16 (0xC000 + x.val * 0x100 + nn.toNat)) = .ok (.rnd x nn) := by
  obtain ⟨hmajor, hx, hnn⟩ := fields_regImm (base := 0xC000) (major := 0xC#4) rfl x nn
  simp only [decodeWord, hmajor, hx, hnn]

/-- The count of a draw is the minor field read as a number. -/
theorem nField_of_minorField {op : Word} {n : Fin 16} (h : minorField op = nibble n) : nField op = n :=
  congrArg BitVec.toFin h

theorem decodeWord_DXYN (x y : Reg) (n : Fin 16) :
    decodeWord (.ofNat 16 (0xD000 + x.val * 0x100 + y.val * 0x10 + n.val)) = .ok (.drw x y n) := by
  have hlast : 0xD000 + n.val = (0xD#4).toNat * 0x1000 + (nibble n).toNat := rfl
  obtain ⟨hmajor, hx, hy, hminor⟩ := fields_regReg hlast x y
  rw [show 0xD000 + x.val * 0x100 + y.val * 0x10 + n.val = 0xD000 + n.val + x.val * 0x100 + y.val * 0x10 by omega]
  simp only [decodeWord, hmajor, hx, hy, nField_of_minorField hminor]

theorem decodeWord_EX9E (x : Reg) : decodeWord (.ofNat 16 (0xE09E + x.val * 0x100)) = .ok (.skp x) := by
  obtain ⟨hmajor, hx, hnn⟩ := fields_regImm (base := 0xE000) (major := 0xE#4) rfl x 0x9E#8
  rw [show 0xE09E + x.val * 0x100 = 0xE000 + x.val * 0x100 + (0x9E#8).toNat from Nat.add_right_comm 0xE000 0x9E _]
  simp only [decodeWord, decodeMajorE, hmajor, hx, hnn]

theorem decodeWord_EXA1 (x : Reg) : decodeWord (.ofNat 16 (0xE0A1 + x.val * 0x100)) = .ok (.sknp x) := by
  obtain ⟨hmajor, hx, hnn⟩ := fields_regImm (base := 0xE000) (major := 0xE#4) rfl x 0xA1#8
  rw [show 0xE0A1 + x.val * 0x100 = 0xE000 + x.val * 0x100 + (0xA1#8).toNat from Nat.add_right_comm 0xE000 0xA1 _]
  simp only [decodeWord, decodeMajorE, hmajor, hx, hnn]

theorem decodeWord_FX0A (x : Reg) : decodeWord (.ofNat 16 (0xF00A + x.val * 0x100)) = .ok (.ldVxK x) := by
  obtain ⟨hmajor, hx, hnn⟩ := fields_majorF (base := 0xF00A) (nn := 0x0A#8) rfl x
  simp only [decodeWord_of_major_F hmajor, decodeMajorF, hx, hnn]

theorem decodeWord_FX1E (x : Reg) : decodeWord (.ofNat 16 (0xF01E + x.val * 0x100)) = .ok (.addIVx x) := by
  obtain ⟨hmajor, hx, hnn⟩ := fields_majorF (base := 0xF01E) (nn := 0x1E#8) rfl x
  simp only [decodeWord_of_major_F hmajor, decodeMajorF, hx, hnn]

theorem decodeWord_FX29 (x : Reg) : decodeWord (.ofNat 16 (0xF029 + x.val * 0x100)) = .ok (.ldFVx x) := by
  obtain ⟨hmajor, hx, hnn⟩ := fields_majorF (base := 0xF029) (nn := 0x29#8) rfl x
  simp only [decodeWord_of_major_F hmajor, decodeMajorF, hx, hnn]

theorem decodeWord_FX33 (x : Reg) : decodeWord (.ofNat 16 (0xF033 + x.val * 0x100)) = .ok (.ldBVx x) := by
  obtain ⟨hmajor, hx, hnn⟩ := fields_majorF (base := 0xF033) (nn := 0x33#8) rfl x
  simp only [decodeWord_of_major_F hmajor, decodeMajorF, hx, hnn]

theorem decodeWord_FX55 (x : Reg) : decodeWord (.ofNat 16 (0xF055 + x.val * 0x100)) = .ok (.storeRegs x) := by
  obtain ⟨hmajor, hx, hnn⟩ := fields_majorF (base := 0xF055) (nn := 0x55#8) rfl x
  simp only [decodeWord_of_major_F hmajor, decodeMajorF, hx, hnn]

theorem decodeWord_FX65 (x : Reg) : decodeWord (.ofNat 16 (0xF065 + x.val * 0x100)) = .ok (.loadRegs x) := by
  obtain ⟨hmajor, hx, hnn⟩ := fields_majorF (base := 0xF065) (nn := 0x65#8) rfl x
  simp only [decodeWord_of_major_F hmajor, decodeMajorF, hx, hnn]

end Sys2Proof
end

section
/-! ### The encoder's words, as numbers, and the round trip (30_encoding.md R92, R94, R98) -/

namespace Sys2Proof

/-- The high part of an appended word counts in units of the low part's range. -/
theorem append_toNat {n m : Nat} (a : BitVec n) (b : BitVec m) : (a ++ b).toNat = a.toNat * 2 ^ m + b.toNat := by
  rw [BitVec.toNat_append, ← Nat.shiftLeft_add_eq_or_of_lt b.isLt, Nat.shiftLeft_eq]

theorem eq_ofNat_of_toNat {op : Word} {n : Nat} (h : op.toNat = n) : op = .ofNat 16 n := by
  rw [← h, BitVec.ofNat_toNat, BitVec.setWidth_eq]

theorem nibble_toNat (x : Fin 16) : (nibble x).toNat = x.val := rfl

theorem formatAddr_toNat (major : BitVec 4) (nnn : Addr) :
    (formatAddr major nnn).toNat = major.toNat * 0x1000 + nnn.toNat := by
  simp only [formatAddr, append_toNat]
  omega

theorem formatRegImm_toNat (major : BitVec 4) (x : Reg) (nn : Byte) :
    (formatRegImm major x nn).toNat = major.toNat * 0x1000 + x.val * 0x100 + nn.toNat := by
  simp only [formatRegImm, append_toNat, nibble_toNat]
  omega

theorem formatRegReg_toNat (major : BitVec 4) (x y : Reg) (last : BitVec 4) :
    (formatRegReg major x y last).toNat = major.toNat * 0x1000 + x.val * 0x100 + y.val * 0x10 + last.toNat := by
  simp only [formatRegReg, append_toNat, nibble_toNat]
  omega

/-- Format `addr` as the word written as a number, `base` standing for the major opcode. -/
theorem formatAddr_eq {base : Nat} {major : BitVec 4} (hbase : major.toNat * 0x1000 = base) (nnn : Addr) :
    formatAddr major nnn = .ofNat 16 (base + nnn.toNat) :=
  eq_ofNat_of_toNat (by rw [formatAddr_toNat, hbase])

/-- Format `reg_imm`: as `formatAddr_eq`. -/
theorem formatRegImm_eq {base : Nat} {major : BitVec 4} (hbase : major.toNat * 0x1000 = base) (x : Reg) (nn : Byte) :
    formatRegImm major x nn = .ofNat 16 (base + x.val * 0x100 + nn.toNat) :=
  eq_ofNat_of_toNat (by rw [formatRegImm_toNat, hbase])

/-- Format `reg_imm` with a fixed immediate, `base` standing for the major opcode and it. -/
theorem formatRegImm_eq_of_fixed {base : Nat} {major : BitVec 4} {nn : Byte}
    (hbase : major.toNat * 0x1000 + nn.toNat = base) (x : Reg) :
    formatRegImm major x nn = .ofNat 16 (base + x.val * 0x100) :=
  eq_ofNat_of_toNat (by rw [formatRegImm_toNat, ← hbase, Nat.add_right_comm])

/-- Format `reg_reg`, `base` standing for the major opcode and the last nibble. -/
theorem formatRegReg_eq {base : Nat} {major last : BitVec 4} (hbase : major.toNat * 0x1000 + last.toNat = base)
    (x y : Reg) : formatRegReg major x y last = .ofNat 16 (base + x.val * 0x100 + y.val * 0x10) :=
  eq_ofNat_of_toNat (by have := formatRegReg_toNat major x y last; omega)

/-- Format `draw`, the count written last. -/
theorem formatDraw_eq {base : Nat} {major : BitVec 4} (hbase : major.toNat * 0x1000 = base) (x y : Reg) (n : Fin 16) :
    formatRegReg major x y (nibble n) = .ofNat 16 (base + x.val * 0x100 + y.val * 0x10 + n.val) :=
  eq_ofNat_of_toNat (by rw [formatRegReg_toNat, hbase, nibble_toNat])

/-- The operand check of `SYS` leaves out the words of `CLS` and `RET`. -/
theorem ne_of_sysOperandOk {nnn : Addr} (h : sysOperandOk nnn = true) : nnn ≠ 0x0E0 ∧ nnn ≠ 0x0EE := by
  simpa [sysOperandOk] using h

theorem decodeWord_of_eq {op op' : Word} {i : Instr} (h : op = op') (hd : decodeWord op' = .ok i) :
    decodeWord op = .ok i :=
  h ▸ hd

/-- Form by form: the word of a well-formed instruction, as a number, is one that the decoder reads back. -/
theorem decodeWord_encode {i : Instr} (h : i.wf = true) : decodeWord (encode i) = .ok i := by
  cases i with
  | sys nnn =>
    obtain ⟨hcls, hret⟩ := ne_of_sysOperandOk h
    have hword : formatAddr 0x0#4 nnn = .ofNat 16 nnn.toNat :=
      eq_ofNat_of_toNat ((formatAddr_toNat 0x0#4 nnn).trans (Nat.zero_add _))
    exact decodeWord_of_eq hword (decodeWord_0NNN hcls hret)
  | cls | ret => rfl
  | jp nnn => exact decodeWord_of_eq (formatAddr_eq rfl nnn) (decodeWord_1NNN nnn)
  | call nnn => exact decodeWord_of_eq (formatAddr_eq rfl nnn) (decodeWord_2NNN nnn)
  | ldI nnn => exact decodeWord_of_eq (formatAddr_eq rfl nnn) (decodeWord_ANNN nnn)
  | jpV0 nnn => exact decodeWord_of_eq (formatAddr_eq rfl nnn) (decodeWord_BNNN nnn)
  | seImm x nn => exact decodeWord_of_eq (formatRegImm_eq rfl x nn) (decodeWord_3XNN x nn)
  | sneImm x nn => exact decodeWord_of_eq (formatRegImm_eq rfl x nn) (decodeWord_4XNN x nn)
  | ldImm x nn => exact decodeWord_of_eq (formatRegImm_eq rfl x nn) (decodeWord_6XNN x nn)
  | addImm x nn => exact decodeWord_of_eq (formatRegImm_eq rfl x nn) (decodeWord_7XNN x nn)
  | rnd x nn => exact decodeWord_of_eq (formatRegImm_eq rfl x nn) (decodeWord_CXNN x nn)
  | seReg x y => exact decodeWord_of_eq (formatRegReg_eq rfl x y) (decodeWord_5XY0 x y)
  | ldReg x y => exact decodeWord_of_eq (formatRegReg_eq rfl x y) (decodeWord_8XY0 x y)
  | orReg x y => exact decodeWord_of_eq (formatRegReg_eq rfl x y) (decodeWord_8XY1 x y)
  | andReg x y => exact decodeWord_of_eq (formatRegReg_eq rfl x y) (decodeWord_8XY2 x y)
  | xorReg x y => exact decodeWord_of_eq (formatRegReg_eq rfl x y) (decodeWord_8XY3 x y)
  | addReg x y => exact decodeWord_of_eq (formatRegReg_eq rfl x y) (decodeWord_8XY4 x y)
  | sub x y => exact decodeWord_of_eq (formatRegReg_eq rfl x y) (decodeWord_8XY5 x y)
  | shr x y => exact decodeWord_of_eq (formatRegReg_eq rfl x y) (decodeWord_8XY6 x y)
  | subn x y => exact decodeWord_of_eq (formatRegReg_eq rfl x y) (decodeWord_8XY7 x y)
  | shl x y => exact decodeWord_of_eq (formatRegReg_eq rfl x y) (decodeWord_8XYE x y)
  | sneReg x y => exact decodeWord_of_eq (formatRegReg_eq rfl x y) (decodeWord_9XY0 x y)
  | drw x y n => exact decodeWord_of_eq (formatDraw_eq rfl x y n) (decodeWord_DXYN x y n)
  | skp x => exact decodeWord_of_eq (formatRegImm_eq_of_fixed rfl x) (decodeWord_EX9E x)
  | sknp x => exact decodeWord_of_eq (formatRegImm_eq_of_fixed rfl x) (decodeWord_EXA1 x)
  | ldVxDt x => exact decodeWord_of_eq (formatRegImm_eq_of_fixed rfl x) (decodeWord_FX07 x)
  | ldVxK x => exact decodeWord_of_eq (formatRegImm_eq_of_fixed rfl x) (decodeWord_FX0A x)
  | ldDtVx x => exact decodeWord_of_eq (formatRegImm_eq_of_fixed rfl x) (decodeWord_FX15 x)
  | ldStVx x => exact decodeWord_of_eq (formatRegImm_eq_of_fixed rfl x) (decodeWord_FX18 x)
  | addIVx x => exact decodeWord_of_eq (formatRegImm_eq_of_fixed rfl x) (decodeWord_FX1E x)
  | ldFVx x => exact decodeWord_of_eq (formatRegImm_eq_of_fixed rfl x) (decodeWord_FX29 x)
  | ldBVx x => exact decodeWord_of_eq (formatRegImm_eq_of_fixed rfl x) (decodeWord_FX33 x)
  | storeRegs x => exact decodeWord_of_eq (formatRegImm_eq_of_fixed rfl x) (decodeWord_FX55 x)
  | loadRegs x => exact decodeWord_of_eq (formatRegImm_eq_of_fixed rfl x) (decodeWord_FX65 x)

/-- The two bytes of a word, put together again. -/
theorem opcodeOf_bytes (op : Word) : opcodeOf (op.extractLsb' 8 8) (op.extractLsb' 0 8) = op := by
  apply BitVec.eq_of_toNat_eq
  simp only [opcodeOf, append_toNat, BitVec.extractLsb'_toNat, Nat.shiftRight_eq_div_pow]
  omega

/-! ### The word of a decoded instruction: the fields put together again (30_encoding.md R91, R92) -/

theorem formatAddr_fields {op : Word} {major : BitVec 4} (h : majorField op = major) :
    formatAddr major (nnnField op) = op := by
  apply BitVec.eq_of_toNat_eq
  rw [← h, formatAddr_toNat, majorField_toNat, nnnField_toNat]
  omega

theorem formatRegImm_fields {op : Word} {major : BitVec 4} (h : majorField op = major) :
    formatRegImm major (xField op) (nnField op) = op := by
  apply BitVec.eq_of_toNat_eq
  rw [← h, formatRegImm_toNat, majorField_toNat, xField_val, nnField_toNat]
  omega

theorem formatRegReg_fields {op : Word} {major : BitVec 4} (h : majorField op = major) :
    formatRegReg major (xField op) (yField op) (minorField op) = op := by
  apply BitVec.eq_of_toNat_eq
  rw [← h, formatRegReg_toNat, majorField_toNat, xField_val, yField_val, minorField_toNat]
  omega

/-- `i` is well-formed and its word is `op`. -/
def Instr.IsWordOf (i : Instr) (op : Word) : Prop := i.wf = true ∧ encode i = op

theorem decodeMajor0_isWordOf {op : Word} (hmajor : majorField op = 0x0#4) : (decodeMajor0 op).IsWordOf op := by
  have hword : formatAddr 0x0#4 (nnnField op) = op := formatAddr_fields hmajor
  unfold decodeMajor0
  split
  · exact ⟨rfl, .symm ‹_›⟩
  split
  · exact ⟨rfl, .symm ‹_›⟩
  · rename_i hcls hret
    refine ⟨?_, hword⟩
    have hne : ∀ a : Addr, op ≠ formatAddr 0x0#4 a → nnnField op ≠ a := fun a h e => h (e ▸ hword.symm)
    simp only [Instr.wf, sysOperandOk, Bool.and_eq_true, bne_iff_ne]
    exact ⟨hne 0x0E0#12 hcls, hne 0x0EE#12 hret⟩

theorem decodeMajor8_isWordOf {op : Word} {i : Instr} (hmajor : majorField op = 0x8#4)
    (h : decodeMajor8 op = .ok i) : i.IsWordOf op := by
  have hword := formatRegReg_fields hmajor
  unfold decodeMajor8 at h
  split at h <;> rename_i hminor <;> cases h
  all_goals
    rw [hminor] at hword
    exact ⟨rfl, hword⟩

theorem decodeMajorE_isWordOf {op : Word} {i : Instr} (hmajor : majorField op = 0xE#4)
    (h : decodeMajorE op = .ok i) : i.IsWordOf op := by
  have hword := formatRegImm_fields hmajor
  unfold decodeMajorE at h
  split at h <;> rename_i hnn <;> cases h
  all_goals
    rw [hnn] at hword
    exact ⟨rfl, hword⟩

theorem decodeMajorF_isWordOf {op : Word} {i : Instr} (hmajor : majorField op = 0xF#4)
    (h : decodeMajorF op = .ok i) : i.IsWordOf op := by
  have hword := formatRegImm_fields hmajor
  unfold decodeMajorF at h
  split at h <;> rename_i hnn <;> cases h
  all_goals
    rw [hnn] at hword
    exact ⟨rfl, hword⟩

/-- Majors `5` and `9` decode only where the minor field is 0, and then by format `reg_reg`. -/
theorem isWordOf_of_ite_minor {op : Word} {major : BitVec 4} {i j : Instr} {q : DecodeReject}
    (hmajor : majorField op = major)
    (h : (if minorField op = 0x0#4 then .ok j else .error q : Except DecodeReject Instr) = .ok i)
    (hwf : j.wf = true) (hj : encode j = formatRegReg major (xField op) (yField op) 0x0#4) : i.IsWordOf op := by
  split at h <;> cases h
  rename_i hminor
  exact ⟨hwf, hj.trans (hminor ▸ formatRegReg_fields hmajor)⟩

/-- No major opcode but `F` is left for the decoder's last arm. -/
theorem eq_F_of_not_mem {b : BitVec 4} (h : b ∉ [0x0#4, 0x1#4, 0x2#4, 0x3#4, 0x4#4, 0x5#4, 0x6#4, 0x7#4, 0x8#4, 0x9#4,
    0xA#4, 0xB#4, 0xC#4, 0xD#4, 0xE#4]) : b = 0xF#4 := by
  revert b
  decide

/-- By the major opcode; the last arm is `F`. -/
theorem decodeWord_isWordOf {op : Word} {i : Instr} (h : decodeWord op = .ok i) : i.IsWordOf op := by
  unfold decodeWord at h
  split at h <;> rename_i hmajor
  case h_1 => cases h; exact decodeMajor0_isWordOf hmajor
  case h_6 => exact isWordOf_of_ite_minor hmajor h rfl rfl
  case h_9 => exact decodeMajor8_isWordOf hmajor h
  case h_10 => exact isWordOf_of_ite_minor hmajor h rfl rfl
  case h_14 => cases h; exact ⟨rfl, formatRegReg_fields hmajor⟩
  case h_15 => exact decodeMajorE_isWordOf hmajor h
  case h_16 => exact decodeMajorF_isWordOf (eq_F_of_not_mem (by simp_all)) h
  case h_2 | h_3 | h_11 | h_12 => cases h; exact ⟨rfl, formatAddr_fields hmajor⟩
  case h_4 | h_5 | h_7 | h_8 | h_13 => cases h; exact ⟨rfl, formatRegImm_fields hmajor⟩

end Sys2Proof
end
section
/-! ### Which words are illegal, major by major (30_encoding.md R95) -/

namespace Sys2Proof

theorem decodeMajor8_isError_iff (op : Word) :
    (∃ r, decodeMajor8 op = .error r) ↔ op.toNat % 0x10 ∈ [0x8, 0x9, 0xA, 0xB, 0xC, 0xD, 0xF] := by
  rw [← minorField_toNat]
  unfold decodeMajor8
  split
  case h_10 =>
    refine iff_of_true ⟨_, rfl⟩ ?_
    generalize minorField op = b at *
    revert b
    decide
  all_goals simp [*]

theorem decodeMajorE_isError_iff (op : Word) :
    (∃ r, decodeMajorE op = .error r) ↔ op.toNat % 0x100 ∉ [0x9E, 0xA1] := by
  rw [← nnField_toNat]
  unfold decodeMajorE
  split
  case h_3 =>
    refine iff_of_true ⟨_, rfl⟩ ?_
    generalize nnField op = b at *
    revert b
    decide
  all_goals simp [*]

theorem decodeMajorF_isError_iff (op : Word) :
    (∃ r, decodeMajorF op = .error r) ↔
      op.toNat % 0x100 ∉ [0x07, 0x0A, 0x15, 0x18, 0x1E, 0x29, 0x33, 0x55, 0x65] := by
  rw [← nnField_toNat]
  unfold decodeMajorF
  split
  case h_10 =>
    refine iff_of_true ⟨_, rfl⟩ ?_
    generalize nnField op = b at *
    revert b
    decide
  all_goals simp [*]

/-- Majors `5` and `9` reject exactly the words whose minor field is not 0. -/
theorem ite_minor_isError_iff (op : Word) (i : Instr) (q : DecodeReject) :
    (∃ r, (if minorField op = 0x0#4 then .ok i else .error q : Except DecodeReject Instr) = .error r) ↔
      op.toNat % 0x10 ≠ 0 := by
  rw [← minorField_toNat]
  by_cases h : minorField op = 0x0#4
  · simp [h]
  · refine iff_of_true ⟨q, if_neg h⟩ fun e => h (BitVec.eq_of_toNat_eq e)

end Sys2Proof

namespace Sys2Proof.Proofs

/-- Settles O1: the two bytes make up the instruction's word, and `decodeWord_encode` reads it back form by form. -/
theorem decodeUndoesEncode : Obligations.DecodeUndoesEncode := by
  intro i rest hwf
  refine decode_of_decodeWord_ok ?_ rest
  rw [opcodeOf_bytes]
  exact decodeWord_encode hwf

/-- Settles O2: every word is its fields put together, whichever of them its form reads. -/
theorem encodeUndoesDecode : Obligations.EncodeUndoesDecode :=
  fun _ _ h => decodeWord_isWordOf h

/-- Settles O4, by the major opcode: `5`, `8`, `9`, `E` and `F` have illegal words, the other eleven have none. -/
theorem illegalWordsAreTheListedOnes : Obligations.IllegalWordsAreTheListedOnes := by
  intro op
  rw [← decodeMajor8_isError_iff, ← decodeMajorE_isError_iff, ← decodeMajorF_isError_iff, ← majorField_toNat]
  unfold decodeWord
  split <;> rename_i hmajor
  case h_6 | h_10 => simpa [hmajor] using ite_minor_isError_iff op _ _
  case h_16 =>
    have hF : majorField op = 0xF#4 := eq_F_of_not_mem (by simp_all)
    simp [hF]
  all_goals simp [hmajor]

/-- Settles O5: each word is a closed term that the decoder evaluates. -/
theorem specWordsDecode : Obligations.SpecWordsDecode := by
  unfold Obligations.SpecWordsDecode
  decide

end Sys2Proof.Proofs
end

section
/-! ### What an instruction can do: raise its own error, or complete (00_scope.md R12, 60_exceptions.md R303) -/

namespace Sys2Proof.Machine

theorem State.checkRange_of_le {s : State} {last : Nat} (h : s.idx.toNat + last ≤ 0xFFF) (f : State → Executed) :
    s.checkRange last f = f s := by
  obtain ⟨-, hgo⟩ | ⟨hlt, -⟩ := s.checkRange_cases last f
  · exact hgo
  · omega

theorem State.checkRange_of_lt {s : State} {last : Nat} (h : 0xFFF < s.idx.toNat + last) (f : State → Executed) :
    s.checkRange last f = .raised .memoryOutOfRange 0x1000 := by
  obtain ⟨hle, -⟩ | ⟨-, hraise⟩ := s.checkRange_cases last f
  · omega
  · exact hraise

theorem exec_sys (nnn : Addr) (s : State) :
    exec (.sys nnn) s = .next (s.raise .unknownOpcode (addrOperand nnn)) := rfl

theorem exec_call_of_over {s : State} (h : 16 < s.sp.toNat) (nnn : Addr) :
    exec (.call nnn) s = .fault .stackPointerOutOfRange := by
  obtain ⟨hfull, -⟩ | ⟨hlt, -⟩ | ⟨-, hstuck⟩ := s.advancePc.push_cases s.pc s.advancePc.pc
  · rw [State.advancePc_sp] at hfull
    omega
  · rw [State.advancePc_sp] at hlt
    omega
  · simp only [exec, execCall, hstuck]
    rfl

/-- Everything `RET` can do: underflow, take the top entry, or stop where `SP` is no number of entries. -/
theorem exec_ret_cases (s : State) :
    (s.sp.toNat = 0 ∧ exec .ret s = .next (s.raise .stackUnderflow s.pc)) ∨
      (s.sp.toNat ≠ 0 ∧ ∃ h : s.sp.toNat - 1 < 16, exec .ret s = .next (s.popEntry h)) ∨
      (16 < s.sp.toNat ∧ exec .ret s = .fault .stackPointerOutOfRange) := by
  obtain ⟨h, hpop⟩ | ⟨hne, h, hpop⟩ | ⟨h, hpop⟩ := s.advancePc.popToPc_cases s.pc
  · exact .inl ⟨h, by simp only [exec, execRet, hpop, Executed.outcome_raised]⟩
  · exact .inr (.inl ⟨hne, h, by simp only [exec, execRet, hpop]; rfl⟩)
  · exact .inr (.inr ⟨h, by simp only [exec, execRet, hpop]; rfl⟩)

theorem exec_ret_of_empty {s : State} (h : s.sp.toNat = 0) : exec .ret s = .next (s.raise .stackUnderflow s.pc) := by
  obtain ⟨-, he⟩ | ⟨hne, -⟩ | ⟨hover, -⟩ := exec_ret_cases s
  · exact he
  · omega
  · omega

theorem exec_ret_of_pos {s : State} (hne : s.sp.toNat ≠ 0) (h : s.sp.toNat - 1 < 16) :
    exec .ret s = .next (s.popEntry h) := by
  obtain ⟨h0, -⟩ | ⟨-, _, he⟩ | ⟨hover, -⟩ := exec_ret_cases s
  · omega
  · exact he
  · omega

theorem exec_ret_of_over {s : State} (h : 16 < s.sp.toNat) : exec .ret s = .fault .stackPointerOutOfRange := by
  obtain ⟨h0, -⟩ | ⟨-, hlt, -⟩ | ⟨-, he⟩ := exec_ret_cases s
  · omega
  · omega
  · exact he

/-- The state that a store of bytes at `I` leaves. -/
def State.afterStore (s : State) (bytes : List Byte) : State :=
  s.advancePc.setMem (s.mem.writeBytes (dataAddress s.idx 0) bytes)

/-- The state that a load of `V[0..x]` from `I` leaves. -/
def State.afterLoad (s : State) (x : Reg) : State :=
  s.advancePc.setRegs 0 (s.mem.readBytes (dataAddress s.idx 0) (x.val + 1))

theorem exec_ldBVx_of_le {s : State} (h : s.idx.toNat + 2 ≤ 0xFFF) (x : Reg) :
    exec (.ldBVx x) s = .next (s.afterStore (bcdDigits (s.reg x))) := by
  simp only [exec, execLdBVx, State.checkRange_of_le (s := s.advancePc) h]
  rfl

theorem exec_ldBVx_of_lt {s : State} (h : 0xFFF < s.idx.toNat + 2) (x : Reg) :
    exec (.ldBVx x) s = .next (s.raise .memoryOutOfRange 0x1000) := by
  simp only [exec, execLdBVx, State.checkRange_of_lt (s := s.advancePc) h, Executed.outcome_raised]

theorem exec_storeRegs_of_le {s : State} {x : Reg} (h : s.idx.toNat + x.val ≤ 0xFFF) :
    exec (.storeRegs x) s = .next (s.afterStore (s.regsUpTo x)) := by
  simp only [exec, execStoreRegs, State.checkRange_of_le (s := s.advancePc) h]
  rfl

theorem exec_storeRegs_of_lt {s : State} {x : Reg} (h : 0xFFF < s.idx.toNat + x.val) :
    exec (.storeRegs x) s = .next (s.raise .memoryOutOfRange 0x1000) := by
  simp only [exec, execStoreRegs, State.checkRange_of_lt (s := s.advancePc) h, Executed.outcome_raised]

theorem exec_loadRegs_of_le {s : State} {x : Reg} (h : s.idx.toNat + x.val ≤ 0xFFF) :
    exec (.loadRegs x) s = .next (s.afterLoad x) := by
  simp only [exec, execLoadRegs, State.checkRange_of_le (s := s.advancePc) h]
  rfl

theorem exec_loadRegs_of_lt {s : State} {x : Reg} (h : 0xFFF < s.idx.toNat + x.val) :
    exec (.loadRegs x) s = .next (s.raise .memoryOutOfRange 0x1000) := by
  simp only [exec, execLoadRegs, State.checkRange_of_lt (s := s.advancePc) h, Executed.outcome_raised]

/-- The state that a draw which is in range leaves. -/
def State.afterDraw (s : State) (x y : Reg) (n : Fin 16) : State := s.advancePc.draw x y n.val

theorem exec_drw_of_inRange {s : State} {n : Fin 16} (h : SpriteInRange s n) (x y : Reg) :
    exec (.drw x y n) s = .next (s.afterDraw x y n) := by
  by_cases hn : n = 0
  · subst hn
    rfl
  · have hle : s.idx.toNat + (n.val - 1) ≤ 0xFFF := h.resolve_left fun e => hn (Fin.ext e)
    simp only [exec, execDrw, if_neg hn, State.checkRange_of_le (s := s.advancePc) hle]
    rfl

/-- A sprite with rows that reaches above 0xFFF. -/
theorem sprite_outOfRange {s : State} {n : Fin 16} (h : ¬SpriteInRange s n) :
    n ≠ 0 ∧ 0xFFF < s.idx.toNat + (n.val - 1) := by
  obtain ⟨hn, hlt⟩ := not_or.mp h
  exact ⟨fun e => hn (congrArg Fin.val e), not_le.mp hlt⟩

theorem exec_drw_of_outOfRange {s : State} {n : Fin 16} (h : ¬SpriteInRange s n) (x y : Reg) :
    exec (.drw x y n) s = .next (s.raise .memoryOutOfRange 0x1000) := by
  obtain ⟨hn, hlt⟩ := sprite_outOfRange h
  simp only [exec, execDrw, if_neg hn, State.checkRange_of_lt (s := s.advancePc) hlt, Executed.outcome_raised]

/-- An access to `I + last` raises `MemoryOutOfRange` (20_memory.md R64). -/
def State.RangeError (s : State) (last : Nat) (code : ErrCode) (info : Word) : Prop :=
  0xFFF < s.idx.toNat + last ∧ code = .memoryOutOfRange ∧ info = 0x1000

end Sys2Proof.Machine

namespace Sys2Proof

open Machine

/-- The instruction raises this error in this state. -/
def Instr.Raises (i : Instr) (s : State) (code : ErrCode) (info : Word) : Prop :=
  match i with
  | .sys nnn => code = .unknownOpcode ∧ info = addrOperand nnn
  | .call _ => s.sp.toNat = 16 ∧ code = .stackOverflow ∧ info = s.pc
  | .ret => s.sp.toNat = 0 ∧ code = .stackUnderflow ∧ info = s.pc
  | .drw _ _ n => n ≠ 0 ∧ s.RangeError (n.val - 1) code info
  | .ldBVx _ => s.RangeError 2 code info
  | .storeRegs x | .loadRegs x => s.RangeError x.val code info
  | _ => False

/-- The instruction completes in `t`. Those that never raise are given by `exec` itself. -/
def Instr.Completes (i : Instr) (s t : State) : Prop :=
  match i with
  | .sys _ => False
  | .ret => s.sp.toNat ≠ 0 ∧ ∃ h : s.sp.toNat - 1 < 16, t = s.popEntry h
  | .call nnn => ∃ h : s.sp.toNat < 16, t = s.afterCall h nnn
  | .drw x y n => t = s.afterDraw x y n
  | .ldBVx x => s.idx.toNat + 2 ≤ 0xFFF ∧ t = s.afterStore (bcdDigits (s.reg x))
  | .storeRegs x => s.idx.toNat + x.val ≤ 0xFFF ∧ t = s.afterStore (s.regsUpTo x)
  | .loadRegs x => t = s.afterLoad x
  | i => exec i s = .next t

end Sys2Proof

namespace Sys2Proof.Machine

/-- The inversion of `exec`, by the instruction: seven forms can raise, two of them can stop instead. -/
theorem exec_cases {i : Instr} {s t : State} (h : exec i s = .next t) :
    i.Completes s t ∨ ∃ code info, i.Raises s code info ∧ t = s.raise code info := by
  cases i with
  | sys nnn =>
    cases h
    exact .inr ⟨_, _, ⟨rfl, rfl⟩, rfl⟩
  | ret =>
    obtain ⟨h0, he⟩ | ⟨hne, hlt, he⟩ | ⟨-, he⟩ := exec_ret_cases s <;> cases he.symm.trans h
    · exact .inr ⟨_, _, ⟨h0, rfl, rfl⟩, rfl⟩
    · exact .inl ⟨hne, hlt, rfl⟩
  | call nnn =>
    obtain hlt | hfull | hover := lt_trichotomy s.sp.toNat 16
    · cases (exec_call_of_lt hlt nnn).symm.trans h
      exact .inl ⟨hlt, rfl⟩
    · cases (exec_call_of_full hfull nnn).symm.trans h
      exact .inr ⟨_, _, ⟨hfull, rfl, rfl⟩, rfl⟩
    · cases (exec_call_of_over hover nnn).symm.trans h
  | drw x y n =>
    by_cases hin : SpriteInRange s n
    · cases (exec_drw_of_inRange hin x y).symm.trans h
      exact .inl rfl
    · cases (exec_drw_of_outOfRange hin x y).symm.trans h
      obtain ⟨hn, hlt⟩ := sprite_outOfRange hin
      exact .inr ⟨_, _, ⟨hn, hlt, rfl, rfl⟩, rfl⟩
  | ldBVx x =>
    obtain hle | hlt := le_or_gt (s.idx.toNat + 2) 0xFFF
    · cases (exec_ldBVx_of_le hle x).symm.trans h
      exact .inl ⟨hle, rfl⟩
    · cases (exec_ldBVx_of_lt hlt x).symm.trans h
      exact .inr ⟨_, _, ⟨hlt, rfl, rfl⟩, rfl⟩
  | storeRegs x =>
    obtain hle | hlt := le_or_gt (s.idx.toNat + x.val) 0xFFF
    · cases (exec_storeRegs_of_le hle).symm.trans h
      exact .inl ⟨hle, rfl⟩
    · cases (exec_storeRegs_of_lt hlt).symm.trans h
      exact .inr ⟨_, _, ⟨hlt, rfl, rfl⟩, rfl⟩
  | loadRegs x =>
    obtain hle | hlt := le_or_gt (s.idx.toNat + x.val) 0xFFF
    · cases (exec_loadRegs_of_le hle).symm.trans h
      exact .inl rfl
    · cases (exec_loadRegs_of_lt hlt).symm.trans h
      exact .inr ⟨_, _, ⟨hlt, rfl, rfl⟩, rfl⟩
  | _ => exact .inl h

/-- With `SP` a number of entries no instruction stops the model. -/
theorem exec_total (i : Instr) {s : State} (hsp : s.sp.toNat ≤ 16) : ∃ t, exec i s = .next t := by
  cases i with
  | ret =>
    obtain ⟨-, he⟩ | ⟨-, _, he⟩ | ⟨hover, -⟩ := exec_ret_cases s
    · exact ⟨_, he⟩
    · exact ⟨_, he⟩
    · omega
  | call nnn =>
    obtain hlt | hfull := lt_or_eq_of_le hsp
    · exact ⟨_, exec_call_of_lt hlt nnn⟩
    · exact ⟨_, exec_call_of_full hfull nnn⟩
  | drw x y n =>
    by_cases hin : SpriteInRange s n
    · exact ⟨_, exec_drw_of_inRange hin x y⟩
    · exact ⟨_, exec_drw_of_outOfRange hin x y⟩
  | ldBVx x =>
    obtain hle | hlt := le_or_gt (s.idx.toNat + 2) 0xFFF
    · exact ⟨_, exec_ldBVx_of_le hle x⟩
    · exact ⟨_, exec_ldBVx_of_lt hlt x⟩
  | storeRegs x =>
    obtain hle | hlt := le_or_gt (s.idx.toNat + x.val) 0xFFF
    · exact ⟨_, exec_storeRegs_of_le hle⟩
    · exact ⟨_, exec_storeRegs_of_lt hlt⟩
  | loadRegs x =>
    obtain hle | hlt := le_or_gt (s.idx.toNat + x.val) 0xFFF
    · exact ⟨_, exec_loadRegs_of_le hle⟩
    · exact ⟨_, exec_loadRegs_of_lt hlt⟩
  | _ => exact ⟨_, rfl⟩

end Sys2Proof.Machine
end

section
/-! ### Which parts and registers an instruction can write (10_state.md R20) -/

namespace Sys2Proof.Machine

theorem keepsAllBut_aluInstr {op : AluOp} {x y : Reg} {s t : State} (h : aluInstr op x y s = .next t) :
    KeepsAllBut [.registers, .counter] s t := by
  cases h
  intro p hp
  cases p with
  | registers | counter => simp at hp
  | _ => simp [Part.same]

theorem keepsAllBut_skipInstr {c : Bool} {s t : State} (h : skipInstr c s = .next t) : KeepsAllBut [.counter] s t := by
  cases h
  exact keepsAllBut_advancePc_skipIf s c

theorem keepsAllBut_setPc (s : State) (a : Word) : KeepsAllBut [.counter] s (s.setPc a) := by
  intro p hp
  cases p with
  | counter => simp at hp
  | _ => simp [Part.same]

theorem keepsAllBut_popEntry {s : State} (h : s.sp.toNat - 1 < 16) :
    KeepsAllBut [.counter, .callStack] s (s.popEntry h) := by
  intro p hp
  cases p with
  | counter | callStack => simp at hp
  | _ => simp [Part.same]

theorem keepsAllBut_clearScreen (s : State) :
    KeepsAllBut [.framebuffer, .dirty, .counter] s s.advancePc.clearScreen := by
  intro p hp
  cases p with
  | framebuffer | dirty | counter => simp at hp
  | _ => simp [Part.same]

theorem keepsAllBut_drawRandom (s : State) (x : Reg) (b : Byte) :
    KeepsAllBut [.registers, .randomStream, .counter] s (s.advancePc.advanceRng.setReg x b) := by
  intro p hp
  cases p with
  | registers | randomStream | counter => simp at hp
  | _ => simp [Part.same]

theorem keepsAllBut_setCanvas (s : State) (c : Canvas) :
    KeepsAllBut [.registers, .counter, .framebuffer, .dirty] s (s.advancePc.setCanvas c) := by
  intro p hp
  cases p with
  | registers | counter | framebuffer | dirty => simp at hp
  | _ => simp [Part.same]

theorem keepsAllBut_beginWait (s : State) (x : Reg) :
    KeepsAllBut [.keyEdge, .waitRegister, .run] s ((s.advancePc.clearEdges.beginWait x).setPc s.pc) := by
  intro p hp
  cases p with
  | keyEdge | waitRegister | run => simp at hp
  | _ => simp [Part.same]

theorem keepsAllBut_afterStore (s : State) (bytes : List Byte) :
    KeepsAllBut [.memory, .counter] s (s.afterStore bytes) := by
  intro p hp
  cases p with
  | memory | counter => simp at hp
  | _ => simp [Part.same, State.afterStore]

theorem keepsAllBut_afterLoad (s : State) (x : Reg) : KeepsAllBut [.registers, .counter] s (s.afterLoad x) := by
  intro p hp
  rw [State.afterLoad, State.setRegs_eq]
  cases p with
  | registers | counter => simp at hp
  | _ => simp [Part.same, State.byteAt]

end Sys2Proof.Machine

namespace Sys2Proof

open Machine

/-- The parts of the state that an instruction may change where it completes. -/
def Instr.writes : Instr → List Part
  | .sys _ => []
  | .cls => [.framebuffer, .dirty, .counter]
  | .ret | .call _ => [.counter, .callStack]
  | .jp _ | .jpV0 _ | .seImm _ _ | .sneImm _ _ | .seReg _ _ | .sneReg _ _ | .skp _ | .sknp _ => [.counter]
  | .ldImm _ _ | .addImm _ _ | .ldReg _ _ | .orReg _ _ | .andReg _ _ | .xorReg _ _ | .addReg _ _ | .sub _ _ | .shr _ _
  | .subn _ _ | .shl _ _ | .ldVxDt _ | .loadRegs _ => [.registers, .counter]
  | .ldI _ | .addIVx _ | .ldFVx _ => [.index, .counter]
  | .rnd _ _ => [.registers, .randomStream, .counter]
  | .drw _ _ _ => [.registers, .counter, .framebuffer, .dirty]
  | .ldVxK _ => [.keyEdge, .waitRegister, .run]
  | .ldDtVx _ => [.delayTimer, .counter]
  | .ldStVx _ => [.soundTimer, .counter]
  | .ldBVx _ | .storeRegs _ => [.memory, .counter]

/-- The frame of every instruction that completes, by the operation it shares with others of its shape. -/
theorem Instr.Completes.keepsAllBut {i : Instr} {s t : State} (h : i.Completes s t) : KeepsAllBut i.writes s t := by
  cases i with
  | sys => exact h.elim
  | ret =>
    obtain ⟨-, hlt, rfl⟩ := h
    exact keepsAllBut_popEntry hlt
  | call nnn =>
    obtain ⟨hlt, rfl⟩ := h
    exact keepsAllBut_afterCall hlt nnn
  | cls => cases h; exact keepsAllBut_clearScreen s
  | jp | jpV0 => cases h; exact keepsAllBut_setPc s _
  | seImm | sneImm | seReg | sneReg | skp | sknp => exact keepsAllBut_skipInstr h
  | ldImm | addImm | ldReg | ldVxDt => cases h; exact keepsAllBut_advancePc_setReg s _ _
  | orReg | andReg | xorReg | addReg | sub | shr | subn | shl => exact keepsAllBut_aluInstr h
  | ldI | addIVx | ldFVx => cases h; exact keepsAllBut_advancePc_setIdx s _
  | rnd => cases h; exact keepsAllBut_drawRandom s _ _
  | drw => cases h; exact keepsAllBut_setCanvas s _
  | ldVxK x => cases h; exact keepsAllBut_beginWait s x
  | ldDtVx => cases h; exact keepsAllBut_advancePc_setDt s _
  | ldStVx => cases h; exact keepsAllBut_advancePc_setSt s _
  | ldBVx | storeRegs =>
    obtain ⟨-, rfl⟩ := h
    exact keepsAllBut_afterStore s _
  | loadRegs x => cases h; exact keepsAllBut_afterLoad s x

end Sys2Proof

namespace Sys2Proof.Machine

/-- A part that no error touches and that the instruction does not write is as it was before it. -/
theorem exec_keeps {i : Instr} {s t : State} {p : Part} (h : exec i s = .next t)
    (hraise : p ∉ [Part.run, .errorLatch, .events]) (hp : p ∉ i.writes) : p.same s t := by
  obtain hdone | ⟨code, info, -, rfl⟩ := exec_cases h
  · exact hdone.keepsAllBut p hp
  · exact keepsAllBut_raise s code info p hraise

/-- A part that an instruction changed, other than those an error touches: it completed, and it writes that part. -/
theorem exec_changed {i : Instr} {s t : State} {p : Part} (h : exec i s = .next t)
    (hraise : p ∉ [Part.run, .errorLatch, .events]) (hp : ¬p.same s t) : p ∈ i.writes ∧ i.Completes s t := by
  obtain hdone | ⟨code, info, -, rfl⟩ := exec_cases h
  · exact ⟨not_not.mp (mt (hdone.keepsAllBut p) hp), hdone⟩
  · exact absurd (keepsAllBut_raise s code info p hraise) hp

end Sys2Proof.Machine
end

section
/-! ### The writers of each part, and the errors (10_state.md R20, 60_exceptions.md R303) -/

namespace Sys2Proof.Machine

theorem State.setAluResult_reg_flag (s : State) (x : Reg) (v : Byte) (f : Bool) :
    (s.setAluResult x ⟨v, some f⟩).reg 0xF = flagByte f :=
  State.setReg_reg_same _ flagReg _

/-- The result survives where its register is not the flag, which is written last (D10). -/
theorem State.setAluResult_reg_value (s : State) {x : Reg} (v : Byte) (f : Bool) (hx : x ≠ 0xF) :
    (s.setAluResult x ⟨v, some f⟩).reg x = v := by
  rw [State.setAluResult_reg]
  exact (if_neg hx).trans (if_pos rfl)

theorem keepsRegsBut_advancePc_setAluResult (s : State) (x : Reg) (r : AluResult) :
    KeepsRegsBut [x, 0xF] s (s.advancePc.setAluResult x r) := by
  intro q hq
  obtain ⟨hx, hf⟩ := not_or.mp (mt List.mem_pair.mpr hq)
  change ¬q = flagReg at hf
  rw [State.setAluResult_reg]
  cases r.flag <;> simp [hx, hf]

theorem keepsRegsBut_setCanvas (s : State) (c : Canvas) : KeepsRegsBut [0xF] s (s.advancePc.setCanvas c) := by
  intro q hq
  have hf : q ≠ flagReg := List.ne_of_not_mem_cons hq
  rw [State.setCanvas_reg, if_neg hf, State.advancePc_reg]

theorem State.popEntry_sp_toNat {s : State} (hne : s.sp.toNat ≠ 0) (h : s.sp.toNat - 1 < 16) :
    (s.popEntry h).sp.toNat + 1 = s.sp.toNat := by
  have hle : (1 : Byte) ≤ s.sp := Nat.pos_of_ne_zero hne
  rw [State.popEntry_sp, BitVec.toNat_sub_of_le hle]
  exact Nat.sub_add_cancel (Nat.pos_of_ne_zero hne)

/-- A load of `V[0..x]` reads one byte for each of these registers and leaves the others alone. -/
theorem State.afterLoad_reg (s : State) (x q : Reg) :
    (s.afterLoad x).reg q = if q ≤ x then s.byteAt (dataAddress s.idx q.val) else s.reg q := by
  rw [State.afterLoad, State.setRegs_reg, Memory.length_readBytes, State.advancePc_reg]
  by_cases hq : q ≤ x
  · have hlt : q.val < x.val + 1 := Nat.lt_succ_of_le hq
    rw [if_pos ⟨Nat.zero_le _, by omega⟩, if_pos hq, Nat.sub_zero, Memory.getD_readBytes _ _ _ _ hlt]
    rfl
  · have hgt : x.val < q.val := not_le.mp hq
    rw [if_neg hq, if_neg (by omega)]

end Sys2Proof.Machine

namespace Sys2Proof

open Machine

/-- The registers that an instruction may change where it completes: its destination and the flag. -/
def Instr.destinations : Instr → List Reg
  | .ldImm x _ | .addImm x _ | .ldReg x _ | .orReg x _ | .andReg x _ | .xorReg x _ | .rnd x _ | .ldVxDt x => [x]
  | .addReg x _ | .sub x _ | .shr x _ | .subn x _ | .shl x _ => [x, 0xF]
  | .drw _ _ _ => [0xF]
  | .loadRegs x => (List.finRange 16).filter (· ≤ x)
  | _ => []

theorem Instr.Completes.keepsRegsBut {i : Instr} {s t : State} (h : i.Completes s t) :
    KeepsRegsBut i.destinations s t := by
  cases i with
  | ldImm | addImm | ldReg | orReg | andReg | xorReg | ldVxDt => cases h; exact keepsRegsBut_advancePc_setReg s _ _
  | rnd => cases h; exact keepsRegsBut_advancePc_setReg s _ _
  | addReg | sub | shr | subn | shl => cases h; exact keepsRegsBut_advancePc_setAluResult s _ _
  | drw => cases h; exact keepsRegsBut_setCanvas s _
  | loadRegs x =>
    cases h
    intro q hq
    exact (State.afterLoad_reg s x q).trans (if_neg (by simpa [Instr.destinations] using hq))
  | _ => exact fun q _ => h.keepsAllBut .registers (by simp [Instr.writes]) q

/-- No instruction that completes halts the block. -/
theorem Instr.Completes.run {i : Instr} {s t : State} (h : i.Completes s t) : t.run = s.run ∨ t.run = .waiting := by
  cases i with
  | ldVxK => cases h; exact .inr rfl
  | _ => exact .inl (h.keepsAllBut .run (by simp [Instr.writes]))

theorem Instr.Completes.run_ne_halted {i : Instr} {s t : State} (h : i.Completes s t) (hs : s.run ≠ .halted) :
    t.run ≠ .halted := by
  obtain hrun | hrun := h.run
  · exact hrun ▸ hs
  · simp [hrun]

end Sys2Proof

namespace Sys2Proof.Machine

/-- An instruction that halts the block raised one of its own errors. -/
theorem exec_halts {i : Instr} {s t : State} (h : exec i s = .next t) (hs : s.run ≠ .halted) (ht : t.run = .halted) :
    ∃ code info, i.Raises s code info ∧ t = s.raise code info :=
  (exec_cases h).resolve_left fun hdone => hdone.run_ne_halted hs ht

/-- A register that an instruction changed is among its destinations. -/
theorem exec_changed_reg {i : Instr} {s t : State} {r : Reg} (h : exec i s = .next t) (hr : t.reg r ≠ s.reg r) :
    r ∈ i.destinations := by
  obtain ⟨-, hdone⟩ := exec_changed (p := .registers) h (by decide) (fun hsame => hr (hsame r))
  exact not_not.mp (mt (hdone.keepsRegsBut r) hr)

section
variable {i : Instr}

theorem writes_delayTimer (h : .delayTimer ∈ i.writes) : ∃ x, i = .ldDtVx x := by
  cases i <;> simp_all [Instr.writes]

theorem writes_soundTimer (h : .soundTimer ∈ i.writes) : ∃ x, i = .ldStVx x := by
  cases i <;> simp_all [Instr.writes]

theorem writes_keyEdge (h : .keyEdge ∈ i.writes) : ∃ x, i = .ldVxK x := by
  cases i <;> simp_all [Instr.writes]

theorem writes_waitRegister (h : .waitRegister ∈ i.writes) : ∃ x, i = .ldVxK x := by
  cases i <;> simp_all [Instr.writes]

theorem writes_randomStream (h : .randomStream ∈ i.writes) : ∃ x nn, i = .rnd x nn := by
  cases i <;> simp_all [Instr.writes]

theorem writes_framebuffer (h : .framebuffer ∈ i.writes) : i = .cls ∨ ∃ x y n, i = .drw x y n := by
  cases i <;> simp_all [Instr.writes]

theorem writes_dirty (h : .dirty ∈ i.writes) : i = .cls ∨ ∃ x y n, i = .drw x y n := by
  cases i <;> simp_all [Instr.writes]

end

theorem not_writes_times (i : Instr) : .times ∉ i.writes := by
  cases i <;> simp [Instr.writes]

theorem not_writes_errorLatch (i : Instr) : .errorLatch ∉ i.writes := by
  cases i <;> simp [Instr.writes]

theorem not_writes_events (i : Instr) : .events ∉ i.writes := by
  cases i <;> simp [Instr.writes]

theorem not_writes_keyDown (i : Instr) : .keyDown ∉ i.writes := by
  cases i <;> simp [Instr.writes]

/-- The stream moves by `CXNN` alone, and `CXNN` moves the position and not the seed. -/
theorem exec_rngSeed {i : Instr} {s t : State} (h : exec i s = .next t) : t.rngSeed = s.rngSeed := by
  by_cases hsame : Part.randomStream.same s t
  · exact hsame.2
  · obtain ⟨x, nn, rfl⟩ := writes_randomStream (exec_changed h (by decide) hsame).1
    cases h
    rfl

/-- `SYS` reports its own word (42_control_flow.md R150). -/
theorem addrOperand_eq_encode (nnn : Addr) : addrOperand nnn = encode (.sys nnn) := by
  apply BitVec.eq_of_toNat_eq
  rw [addrOperand_toNat, encode, formatAddr_toNat]
  exact (Nat.zero_add _).symm

end Sys2Proof.Machine

namespace Sys2Proof.Proofs

open Machine

/-- Settles O39: the three forms that write `I`, and the bound of the address each of them writes. -/
theorem onlyIndexInstructionsWriteI : Obligations.OnlyIndexInstructionsWriteI := by
  intro i s t h hne
  obtain ⟨hwrites, hdone⟩ := exec_changed (p := .index) h (by decide) hne
  cases i with
  | ldI nnn =>
    cases hdone
    refine ⟨?_, .inl ⟨nnn, rfl⟩⟩
    rw [State.setIdx_idx, addrOperand_toNat]
    exact nnn.isLt
  | addIVx x =>
    cases hdone
    refine ⟨?_, .inr (.inl ⟨x, rfl⟩)⟩
    rw [State.setIdx_idx, wrap12_toNat]
    exact Nat.mod_lt _ (by decide)
  | ldFVx x =>
    cases hdone
    refine ⟨?_, .inr (.inr ⟨x, rfl⟩)⟩
    rw [State.setIdx_idx, glyphAddress_toNat]
    omega
  | _ => simp [Instr.writes] at hwrites

/-- Settles O40: `CALL` and `RET` are the forms that write the call stack; a push counts `SP` up and a pop down. -/
theorem onlyCallAndReturnChangeStack : Obligations.OnlyCallAndReturnChangeStack := by
  intro i s t h hne
  obtain ⟨hwrites, hdone⟩ := exec_changed (p := .callStack) h (by decide)
    fun hsame => hne.elim (· hsame.1) (· hsame.2)
  cases i with
  | call nnn =>
    obtain ⟨hlt, rfl⟩ := hdone
    exact .inl ⟨nnn, rfl, State.afterCall_sp_toNat hlt nnn⟩
  | ret =>
    obtain ⟨hne0, hlt, rfl⟩ := hdone
    exact .inr ⟨rfl, State.popEntry_sp_toNat hne0 hlt⟩
  | _ => simp [Instr.writes] at hwrites

/-- Settles O41, by which forms write memory. -/
theorem onlyStoresChangeMemory : Obligations.OnlyStoresChangeMemory := by
  intro i s t h ⟨a, ha⟩
  obtain ⟨hwrites, -⟩ := exec_changed (p := .memory) h (by decide) fun hsame => ha (hsame a)
  cases i with
  | ldBVx x => exact .inl ⟨x, rfl⟩
  | storeRegs x => exact .inr ⟨x, rfl⟩
  | _ => simp [Instr.writes] at hwrites

/-- Settles O42: `VF` is a destination of the flag writers always, and of the others where it is the one they name. -/
theorem flagRegisterWriters : Obligations.FlagRegisterWriters := by
  intro i s t h hne
  have hdest := exec_changed_reg h hne
  cases i with
  | loadRegs x =>
    have hx : (15 : Reg) ≤ x := by simpa [Instr.destinations] using hdest
    obtain rfl : x = 15 := le_antisymm (Fin.le_last x) hx
    simp
  | _ => simp_all [Instr.destinations, eq_comm]

/-- Settles O43: each of these parts has one form that writes it, and the key states and the times have none. -/
theorem deviceStateWriters : Obligations.DeviceStateWriters := by
  intro i s t h
  exact ⟨fun hne => writes_delayTimer (exec_changed (p := .delayTimer) h (by decide) hne).1,
    fun hne => writes_soundTimer (exec_changed (p := .soundTimer) h (by decide) hne).1,
    fun hne => writes_keyEdge (exec_changed (p := .keyEdge) h (by decide) hne).1,
    fun hne => writes_waitRegister (exec_changed (p := .waitRegister) h (by decide) hne).1,
    fun hne => writes_randomStream (exec_changed (p := .randomStream) h (by decide) fun hsame => hne hsame.1).1,
    exec_rngSeed h, exec_keeps (p := .keyDown) h (by decide) (not_writes_keyDown i),
    exec_keeps (p := .times) h (by decide) (not_writes_times i)⟩

/-- Settles O45: an instruction that halts has raised, and `Instr.Raises` says where and with what. -/
theorem instructionsRaiseOnlyTheirOwnError : Obligations.InstructionsRaiseOnlyTheirOwnError := by
  intro i s t h hs ht
  obtain ⟨code, info, hraise, rfl⟩ := exec_halts h hs ht
  cases i with
  | sys nnn =>
    obtain ⟨rfl, rfl⟩ := hraise
    exact .inl ⟨nnn, rfl, rfl, addrOperand_eq_encode nnn⟩
  | call nnn =>
    obtain ⟨hsp, rfl, rfl⟩ := hraise
    exact .inr (.inl ⟨nnn, rfl, BitVec.eq_of_toNat_eq hsp, rfl, rfl⟩)
  | ret =>
    obtain ⟨hsp, rfl, rfl⟩ := hraise
    exact .inr (.inr (.inl ⟨rfl, BitVec.eq_of_toNat_eq hsp, rfl, rfl⟩))
  | drw x y n =>
    obtain ⟨hn, hlt, rfl, rfl⟩ := hraise
    exact .inr (.inr (.inr ⟨rfl, rfl, .inl ⟨x, y, n, rfl, hn, hlt⟩⟩))
  | ldBVx x =>
    obtain ⟨hlt, rfl, rfl⟩ := hraise
    exact .inr (.inr (.inr ⟨rfl, rfl, .inr (.inl ⟨x, rfl, hlt⟩)⟩))
  | storeRegs x =>
    obtain ⟨hlt, rfl, rfl⟩ := hraise
    exact .inr (.inr (.inr ⟨rfl, rfl, .inr (.inr ⟨x, .inl rfl, hlt⟩)⟩))
  | loadRegs x =>
    obtain ⟨hlt, rfl, rfl⟩ := hraise
    exact .inr (.inr (.inr ⟨rfl, rfl, .inr (.inr ⟨x, .inr rfl, hlt⟩)⟩))
  | _ => exact hraise.elim

end Sys2Proof.Proofs
end

section
/-! ### The ALU (41_arithmetic.md R123-R132) -/

namespace Sys2Proof.Machine

/-- The frame of an ALU instruction: it writes `V[X]` and perhaps the flag, and goes on to the next word. -/
theorem frame_advancePc_setAluResult (s : State) (x : Reg) (r : AluResult) :
    KeepsRegsBut [x, 0xF] s (s.advancePc.setAluResult x r) ∧
      (s.advancePc.setAluResult x r).pc.toNat = after s.pc ∧
      KeepsAllBut [.registers, .counter] s (s.advancePc.setAluResult x r) := by
  refine ⟨keepsRegsBut_advancePc_setAluResult s x r, ?_, ?_⟩
  · rw [State.setAluResult_pc, State.advancePc_pc_toNat]
  · intro p hp
    cases p with
    | registers | counter => simp at hp
    | _ => simp [Part.same]

/-- What an ALU instruction with a flag answers: the flag in `VF`, and the result where `X` is another register. -/
theorem aluInstr_answers {op : AluOp} {x y : Reg} {s : State} {v : Byte} {f : Bool}
    (hop : alu op (s.reg x) (s.reg y) = ⟨v, some f⟩) :
    ∃ t, aluInstr op x y s = .next t ∧ t.reg 0xF = flagByte f ∧ (x ≠ 0xF → t.reg x = v) ∧
      KeepsRegsBut [x, 0xF] s t ∧ t.pc.toNat = after s.pc ∧ KeepsAllBut [.registers, .counter] s t :=
  ⟨s.advancePc.setAluResult x ⟨v, some f⟩, by rw [aluInstr, hop], State.setAluResult_reg_flag _ x v f,
    State.setAluResult_reg_value _ v f, frame_advancePc_setAluResult s x _⟩

theorem flagByte_decide (p : Prop) [Decidable p] : flagByte (decide p) = if p then 1 else 0 := by
  simp only [flagByte, decide_eq_true_eq]

/-- The bit shifted out on the right is the remainder by 2. -/
theorem flagByte_lowBit_toNat (b : Byte) : (flagByte (b.getLsbD 0)).toNat = b.toNat % 2 := by
  obtain h | h := Nat.mod_two_eq_zero_or_one b.toNat <;>
    simp [flagByte, BitVec.getLsbD, Nat.testBit_zero, h]

/-- The bit shifted out on the left is the quotient by 128. -/
theorem flagByte_highBit_toNat (b : Byte) : (flagByte (b.getLsbD 7)).toNat = b.toNat / 128 := by
  have hlt := b.isLt
  have hbit : b.getLsbD 7 = decide (b.toNat / 128 = 1) := by
    rw [BitVec.getLsbD, Nat.testBit_eq_decide_div_mod_eq]
    congr 1
    simp only [eq_iff_iff]
    omega
  rw [hbit, flagByte_decide]
  split <;> simp <;> omega

theorem byte_sub_toNat (a b : Byte) : ((a - b).toNat : Int) = (a.toNat - b.toNat) % 256 := by
  rw [BitVec.toNat_sub]
  omega

end Sys2Proof.Machine

namespace Sys2Proof.Proofs

open Machine

/-- Settles O8: with no flag to write the three are writes of one register. -/
theorem logicWritesBitwiseResult : Obligations.LogicWritesBitwiseResult := by
  intro x y s
  refine ⟨⟨decodeWord_8XY1 x y, s.advancePc.setReg x (s.reg x ||| s.reg y), rfl, fun k => ?_,
      frame_advancePc_setReg s x _⟩,
    ⟨decodeWord_8XY2 x y, s.advancePc.setReg x (s.reg x &&& s.reg y), rfl, fun k => ?_, frame_advancePc_setReg s x _⟩,
    ⟨decodeWord_8XY3 x y, s.advancePc.setReg x (s.reg x ^^^ s.reg y), rfl, fun k => ?_, frame_advancePc_setReg s x _⟩⟩
  · rw [State.setReg_reg_same, BitVec.getLsbD_or]
  · rw [State.setReg_reg_same, BitVec.getLsbD_and]
  · rw [State.setReg_reg_same, BitVec.getLsbD_xor]

/-- Settles O9: the carry is the comparison of the exact sum. -/
theorem addWritesSumThenCarry : Obligations.AddWritesSumThenCarry := by
  intro x y s
  obtain ⟨t, he, hflag, hvalue, hframe⟩ := aluInstr_answers (op := .add) (x := x) (y := y) (s := s) rfl
  refine ⟨decodeWord_8XY4 x y, t, he, hflag.trans (flagByte_decide _), fun hx => ?_, hframe⟩
  rw [hvalue hx, BitVec.toNat_add]

/-- Settles O10: one subtraction, its operands in either order. -/
theorem subtractWritesDifferenceThenNotBorrow : Obligations.SubtractWritesDifferenceThenNotBorrow := by
  intro x y s
  constructor
  · obtain ⟨t, he, hflag, hvalue, hframe⟩ := aluInstr_answers (op := .sub) (x := x) (y := y) (s := s) rfl
    refine ⟨decodeWord_8XY5 x y, t, he, hflag.trans (flagByte_decide _), fun hx => ?_, hframe⟩
    rw [hvalue hx, byte_sub_toNat]
  · obtain ⟨t, he, hflag, hvalue, hframe⟩ := aluInstr_answers (op := .subn) (x := x) (y := y) (s := s) rfl
    refine ⟨decodeWord_8XY7 x y, t, he, hflag.trans (flagByte_decide _), fun hx => ?_, hframe⟩
    rw [hvalue hx, byte_sub_toNat]

/-- Settles O11: a shift by one is a division or a product by 2, and the bit it loses is the remainder or the carry. -/
theorem shiftWritesResultThenBitOut : Obligations.ShiftWritesResultThenBitOut := by
  intro x y s
  constructor
  · obtain ⟨t, he, hflag, hvalue, hframe⟩ := aluInstr_answers (op := .shr) (x := x) (y := y) (s := s) rfl
    refine ⟨decodeWord_8XY6 x y, t, he, ?_, fun hx => ?_, hframe⟩
    · rw [hflag, flagByte_lowBit_toNat]
    · rw [hvalue hx, BitVec.toNat_ushiftRight, Nat.shiftRight_eq_div_pow]
  · obtain ⟨t, he, hflag, hvalue, hframe⟩ := aluInstr_answers (op := .shl) (x := x) (y := y) (s := s) rfl
    refine ⟨decodeWord_8XYE x y, t, he, ?_, fun hx => ?_, hframe⟩
    · rw [hflag, flagByte_highBit_toNat]
    · rw [hvalue hx, BitVec.toNat_shiftLeft, Nat.shiftLeft_eq]

end Sys2Proof.Proofs
end

section
/-! ### Jumps, calls and returns (42_control_flow.md R150-R154) -/

namespace Sys2Proof.Machine

theorem exec_jp (nnn : Addr) (s : State) : exec (.jp nnn) s = .next (s.setPc (addrOperand nnn)) := rfl

theorem exec_jpV0 (nnn : Addr) (s : State) :
    exec (.jpV0 nnn) s = .next (s.setPc (offsetTarget nnn (s.reg 0))) := rfl

theorem keepsAllBut_trans {changed : List Part} {s t u : State} (h : KeepsAllBut changed s t)
    (h' : KeepsAllBut changed t u) : KeepsAllBut changed s u := by
  intro p hp
  have hst := h p hp
  have htu := h' p hp
  cases p with
  | memory | registers => exact fun a => (htu a).trans (hst a)
  | callStack | errorLatch | randomStream => exact ⟨htu.1.trans hst.1, htu.2.trans hst.2⟩
  | times => exact ⟨htu.1.trans hst.1, htu.2.1.trans hst.2.1, htu.2.2.trans hst.2.2⟩
  | _ => exact Eq.trans htu hst

/-- Calls in a row while the stack has room, whatever its depth is before them (R27, R153). -/
theorem execAll_calls (targets : List Addr) {s : State} (hroom : s.sp.toNat + targets.length ≤ 16) :
    ∃ t, execAll (targets.map .call) s = .next t ∧ t.sp.toNat = s.sp.toNat + targets.length ∧
      KeepsAllBut [.counter, .callStack] s t := by
  induction targets generalizing s with
  | nil => exact ⟨s, rfl, rfl, keepsAllBut_refl _ s⟩
  | cons nnn rest ih =>
    rw [List.length_cons] at hroom
    have hlt : s.sp.toNat < 16 := by omega
    have hsp := State.afterCall_sp_toNat hlt nnn
    obtain ⟨t, he, ht, hkeep⟩ := ih (s := s.afterCall hlt nnn) (by omega)
    refine ⟨t, ?_, ?_, keepsAllBut_trans (keepsAllBut_afterCall hlt nnn) hkeep⟩
    · rw [List.map_cons, execAll, exec_call_of_lt hlt]
      exact he
    · rw [ht, hsp, List.length_cons]
      omega

end Sys2Proof.Machine

namespace Sys2Proof.Proofs

open Machine

/-- Settles O12: `SYS` raises its own word, whose number is its operand. -/
theorem sysRaisesUnknownOpcode : Obligations.SysRaisesUnknownOpcode := by
  intro nnn s
  refine ⟨decodeWord_0NNN, s.raise .unknownOpcode (addrOperand nnn), exec_sys nnn s, ?_⟩
  rw [eq_ofNat_of_toNat (addrOperand_toNat nnn)]
  exact raisesFrom_raise s .unknownOpcode _

/-- Settles O13: the target takes the place of the advance. -/
theorem jumpsSetCounter : Obligations.JumpsSetCounter := by
  intro nnn s
  exact ⟨⟨decodeWord_1NNN nnn, _, exec_jp nnn s, addrOperand_toNat nnn, keepsAllBut_setPc s _⟩,
    ⟨decodeWord_BNNN nnn, _, exec_jpV0 nnn s, offsetTarget_toNat nnn _, keepsAllBut_setPc s _⟩⟩

/-- Settles O15, by whether the stack has an entry to take. -/
theorem returnPopsTopEntry : Obligations.ReturnPopsTopEntry := by
  intro s
  refine ⟨rfl, fun j hj => ?_, fun h0 => ?_⟩
  · have hne : s.sp.toNat ≠ 0 := by omega
    have hlt : s.sp.toNat - 1 < 16 := by omega
    have hsp := State.popEntry_sp_toNat hne hlt
    refine ⟨s.popEntry hlt, exec_ret_of_pos hne hlt, ?_, by omega, rfl, keepsAllBut_popEntry hlt⟩
    simp only [State.popEntry_pc, hj, Nat.add_sub_cancel]
  · exact ⟨_, exec_ret_of_empty h0, raisesFrom_raise s .stackUnderflow s.pc⟩

/-- Settles O17: the calls of an empty stack are calls in a row with room, and 16 of them fill it. -/
theorem sixteenNestedCallsThenOverflow : Obligations.SixteenNestedCallsThenOverflow := by
  intro targets nnn s hempty hlen
  obtain ⟨t, he, ht, hkeep⟩ := execAll_calls targets (s := s) (by omega)
  rw [hempty, Nat.zero_add] at ht
  refine ⟨t, he, ht, hkeep, fun hfull => ?_⟩
  exact ⟨_, exec_call_of_full (ht.trans hfull) nnn, raisesFrom_raise t .stackOverflow t.pc⟩

end Sys2Proof.Proofs
end

section
/-! ### `I`, stores and loads (43_memory_ops.md, 47_bcd_font.md, 20_memory.md R63, R64) -/

namespace Sys2Proof.Machine

theorem exec_addIVx (x : Reg) (s : State) :
    exec (.addIVx x) s = .next (s.advancePc.setIdx (wrap12 (s.idx + zext16 (s.reg x)))) := rfl

theorem exec_ldFVx (x : Reg) (s : State) :
    exec (.ldFVx x) s = .next (s.advancePc.setIdx (glyphAddress (s.reg x))) := rfl

/-- A store at `I` puts its bytes there, in order, and leaves every other byte alone. -/
theorem State.afterStore_byteAt {s : State} {bytes : List Byte} (hwf : s.mem.wf = true)
    (hlen : s.idx.toNat + bytes.length ≤ 0x1000) (a : Nat) :
    (s.afterStore bytes).byteAt a =
      if s.idx.toNat ≤ a ∧ a < s.idx.toNat + bytes.length then bytes.getD (a - s.idx.toNat) 0 else s.byteAt a :=
  Memory.read_writeBytes hwf hlen a

theorem State.afterStore_byteAt_inside {s : State} {bytes : List Byte} {k : Nat} (hwf : s.mem.wf = true)
    (hlen : s.idx.toNat + bytes.length ≤ 0x1000) (hk : k < bytes.length) :
    (s.afterStore bytes).byteAt (dataAddress s.idx k) = bytes.getD k 0 := by
  rw [State.afterStore_byteAt hwf hlen, dataAddress_eq, if_pos (by omega), Nat.add_sub_cancel_left]

theorem State.afterStore_byteAt_outside {s : State} {bytes : List Byte} {a last : Nat} (hwf : s.mem.wf = true)
    (hlen : s.idx.toNat + bytes.length ≤ 0x1000) (hlast : bytes.length = last + 1)
    (ha : a < dataAddress s.idx 0 ∨ dataAddress s.idx last < a) : (s.afterStore bytes).byteAt a = s.byteAt a := by
  simp only [dataAddress_eq] at ha
  rw [State.afterStore_byteAt hwf hlen, if_neg (by omega)]

theorem State.afterStore_pc_toNat (s : State) (bytes : List Byte) : (s.afterStore bytes).pc.toNat = after s.pc :=
  s.advancePc_pc_toNat

theorem State.afterLoad_pc_toNat (s : State) (x : Reg) : (s.afterLoad x).pc.toNat = after s.pc := by
  rw [State.afterLoad, State.setRegs_eq]
  exact s.advancePc_pc_toNat

theorem bcdDigits_hundreds_toNat (b : Byte) : ((bcdDigits b).getD 0 0).toNat = b.toNat / 100 :=
  BitVec.toNat_udiv

theorem bcdDigits_tens_toNat (b : Byte) : ((bcdDigits b).getD 1 0).toNat = b.toNat / 10 % 10 := by
  change (b / 10 % 10).toNat = _
  rw [BitVec.toNat_umod, BitVec.toNat_udiv]
  rfl

theorem bcdDigits_ones_toNat (b : Byte) : ((bcdDigits b).getD 2 0).toNat = b.toNat % 10 :=
  BitVec.toNat_umod

/-! ### Canonical memories (20_memory.md R60) -/

theorem Memory.find_cons_self (k : Nat) (b : Byte) (rest : Memory) : Memory.find ((k, b) :: rest) k = some b :=
  if_pos rfl

theorem Memory.find_cons_of_ne {k a : Nat} (h : k ≠ a) (b : Byte) (rest : Memory) :
    Memory.find ((k, b) :: rest) a = Memory.find rest a :=
  if_neg h

/-- The first address of a canonical memory is the lowest it lists. -/
theorem Memory.first_le_of_find {low k a : Nat} {b d : Byte} {rest : Memory}
    (h : Memory.wfFrom low ((k, b) :: rest) = true) (ha : Memory.find ((k, b) :: rest) a = some d) : k ≤ a := by
  obtain ⟨-, hk⟩ := (Memory.wfFrom_cons _ _ _ _).mp h
  exact (Memory.find_wf ((Memory.wfFrom_cons _ _ _ _).mpr ⟨le_refl k, hk⟩) ha).1

/-- Canonical memories that list alike are equal: they have the same first address, and so the same first byte. -/
theorem Memory.eq_of_find_eq {m m' : Memory} {low low' : Nat} (h : Memory.wfFrom low m = true)
    (h' : Memory.wfFrom low' m' = true) (hfind : ∀ a, m.find a = m'.find a) : m = m' := by
  induction m generalizing m' low low' with
  | nil =>
    cases m' with
    | nil => rfl
    | cons e' rest' => cases (hfind e'.1).trans (Memory.find_cons_self e'.1 e'.2 rest')
  | cons e rest ih =>
    obtain ⟨k, b⟩ := e
    have hself := Memory.find_cons_self k b rest
    cases m' with
    | nil => cases hself.symm.trans (hfind k)
    | cons e' rest' =>
      obtain ⟨k', b'⟩ := e'
      have hself' := Memory.find_cons_self k' b' rest'
      obtain rfl : k = k' := le_antisymm (Memory.first_le_of_find h ((hfind k').trans hself'))
        (Memory.first_le_of_find h' ((hfind k).symm.trans hself))
      obtain rfl : b = b' := Option.some.inj (hself.symm.trans ((hfind k).trans hself'))
      obtain ⟨-, -, -, hrest⟩ := (Memory.wfFrom_cons _ _ _ _).mp h
      obtain ⟨-, -, -, hrest'⟩ := (Memory.wfFrom_cons _ _ _ _).mp h'
      refine congrArg (List.cons (k, b)) (ih hrest hrest' fun a => ?_)
      by_cases ha : k = a
      · rw [Memory.find_below hrest (by omega), Memory.find_below hrest' (by omega)]
      · rw [← Memory.find_cons_of_ne ha b rest, hfind a, Memory.find_cons_of_ne ha]

theorem Memory.read_of_find_some {m : Memory} {a : Nat} {b : Byte} (h : m.find a = some b) : m.read a = b := by
  rw [Memory.read, h, Option.getD_some]

theorem Memory.read_of_find_none {m : Memory} {a : Nat} (h : m.find a = none) : m.read a = blank a := by
  rw [Memory.read, h, Option.getD_none]

/-- An address that a canonical memory lists does not read as one that a memory does not list. -/
theorem Memory.read_ne_of_find_some {m m' : Memory} {a : Nat} {b : Byte} (h : m.wf = true) (hb : m.find a = some b)
    (hnone : m'.find a = none) : a < 0x1000 ∧ m.read a ≠ m'.read a := by
  obtain ⟨-, ha, hne⟩ := Memory.find_wf h hb
  rw [Memory.read_of_find_some hb, Memory.read_of_find_none hnone]
  exact ⟨ha, hne⟩

theorem Memory.find_eq_of_read_eq {m m' : Memory} (h : m.wf = true) (h' : m'.wf = true)
    (hread : ∀ a : Nat, a < 0x1000 → m.read a = m'.read a) (a : Nat) : m.find a = m'.find a := by
  cases hm : m.find a with
  | none =>
    cases hm' : m'.find a with
    | none => rfl
    | some b' =>
      obtain ⟨ha, hne⟩ := Memory.read_ne_of_find_some h' hm' hm
      exact absurd (hread a ha).symm hne
  | some b =>
    cases hm' : m'.find a with
    | none =>
      obtain ⟨ha, hne⟩ := Memory.read_ne_of_find_some h hm hm'
      exact absurd (hread a ha) hne
    | some b' =>
      obtain ⟨-, ha, -⟩ := Memory.find_wf h hm
      rw [← Memory.read_of_find_some hm, ← Memory.read_of_find_some hm', hread a ha]

end Sys2Proof.Machine

namespace Sys2Proof.Proofs

open Machine

/-- Settles O19: a sum below 2^16 taken modulo 4096, and the address of a glyph, which needs no wrap. -/
theorem indexArithmeticWraps : Obligations.IndexArithmeticWraps := by
  intro x s
  refine ⟨⟨decodeWord_FX1E x, _, exec_addIVx x s, ?_, s.advancePc_pc_toNat, keepsAllBut_advancePc_setIdx s _⟩,
    ⟨decodeWord_FX29 x, _, exec_ldFVx x s, glyphAddress_toNat _, s.advancePc_pc_toNat,
      keepsAllBut_advancePc_setIdx s _⟩⟩
  rw [State.setIdx_idx, wrap12_toNat, BitVec.toNat_add, zext16_toNat]
  omega

/-- Settles O20, by the range check; the bytes stored are those of `V[0..X]`. -/
theorem storeRegistersWritesRange : Obligations.StoreRegistersWritesRange := by
  intro x s
  refine ⟨decodeWord_FX55 x, fun hwf hle => ?_, fun hlt => ?_⟩
  · rw [dataAddress_eq] at hle
    have hlen : s.idx.toNat + (s.regsUpTo x).length ≤ 0x1000 := by
      rw [State.length_regsUpTo]
      omega
    refine ⟨_, exec_storeRegs_of_le hle, fun k hk => ?_, fun a ha => ?_, State.afterStore_pc_toNat s _,
      keepsAllBut_afterStore s _⟩
    · have hk' : k.val < (s.regsUpTo x).length := by
        rw [State.length_regsUpTo]
        exact Nat.lt_succ_of_le hk
      rw [State.afterStore_byteAt_inside hwf hlen hk', State.getD_regsUpTo s x k hk]
    · exact State.afterStore_byteAt_outside hwf hlen (State.length_regsUpTo s x) ha
  · exact ⟨_, exec_storeRegs_of_lt hlt, raisesFrom_raise s .memoryOutOfRange 0x1000⟩

/-- Settles O21, by the range check. -/
theorem loadRegistersReadsRange : Obligations.LoadRegistersReadsRange := by
  intro x s
  refine ⟨decodeWord_FX65 x, fun hle => ?_, fun hlt => ?_⟩
  · refine ⟨_, exec_loadRegs_of_le hle, fun k hk => ?_, fun k hk => ?_, State.afterLoad_pc_toNat s x,
      keepsAllBut_afterLoad s x⟩
    · rw [State.afterLoad_reg, if_pos hk]
    · rw [State.afterLoad_reg, if_neg (not_le.mpr hk)]
  · exact ⟨_, exec_loadRegs_of_lt hlt, raisesFrom_raise s .memoryOutOfRange 0x1000⟩

/-- Settles O22, by the range check; the bytes stored are the three digits. -/
theorem bcdStoresThreeDigits : Obligations.BcdStoresThreeDigits := by
  intro x s
  refine ⟨decodeWord_FX33 x, fun hwf hle => ?_, fun hlt => ?_⟩
  · have hlen : s.idx.toNat + (bcdDigits (s.reg x)).length ≤ 0x1000 := Nat.succ_le_succ hle
    refine ⟨_, exec_ldBVx_of_le hle x, ?_, ?_, ?_, fun a ha => ?_, State.afterStore_pc_toNat s _,
      keepsAllBut_afterStore s _⟩
    · rw [State.afterStore_byteAt_inside hwf hlen (by simp), bcdDigits_hundreds_toNat]
    · rw [State.afterStore_byteAt_inside hwf hlen (by simp), bcdDigits_tens_toNat]
    · rw [State.afterStore_byteAt_inside hwf hlen (by simp), bcdDigits_ones_toNat]
    · exact State.afterStore_byteAt_outside hwf hlen (length_bcdDigits _) ha
  · exact ⟨_, exec_ldBVx_of_lt hlt x, raisesFrom_raise s .memoryOutOfRange 0x1000⟩

/-- Settles O23: what a canonical memory lists can be read off it, and what it lists determines it. -/
theorem canonicalMemoriesReadAlikeAreEqual : Obligations.CanonicalMemoriesReadAlikeAreEqual :=
  fun _ _ h h' hread => Memory.eq_of_find_eq h h' (Memory.find_eq_of_read_eq h h' hread)

end Sys2Proof.Proofs
end

section
/-! ### Keys, the screen, ticks and the random byte (44_input.md, 45_display.md R220, 46_timer.md, 48_random.md) -/

namespace Sys2Proof.Machine

theorem exec_ldVxK (x : Reg) (s : State) :
    exec (.ldVxK x) s = .next ((s.advancePc.clearEdges.beginWait x).setPc s.pc) := rfl

theorem exec_cls (s : State) : exec .cls s = .next s.advancePc.clearScreen := rfl

theorem exec_skp (x : Reg) (s : State) :
    exec (.skp x) s = .next (s.advancePc.skipIf (s.keyIsDown (s.reg x))) := rfl

theorem exec_sknp (x : Reg) (s : State) :
    exec (.sknp x) s = .next (s.advancePc.skipIf (!s.keyIsDown (s.reg x))) := rfl

theorem exec_rnd (x : Reg) (nn : Byte) (s : State) :
    exec (.rnd x nn) s = .next (s.advancePc.advanceRng.setReg x (s.randomByte &&& nn)) := rfl

theorem State.clearEdges_edge (s : State) (k : Fin 16) : s.clearEdges.keyEdge[k.val] = false := by
  simp only [State.clearEdges_keyEdge, Vector.getElem_replicate]

end Sys2Proof.Machine

namespace Sys2Proof.Proofs

open Machine

/-- Settles O24: the wait puts `PC` back to where the advance took it from. -/
theorem waitForKeyHoldsCounter : Obligations.WaitForKeyHoldsCounter := by
  intro x s
  exact ⟨decodeWord_FX0A x, _, exec_ldVxK x s, State.clearEdges_edge s, rfl, rfl, rfl, keepsAllBut_beginWait s x⟩

/-- Settles O26: both forms test the one key that `V[X]` names, and are skips on opposite conditions. -/
theorem keySkipsReadKeyDown : Obligations.KeySkipsReadKeyDown := by
  intro x s
  have hskp := s.advancePc_skipIf_pc_toNat (s.keyIsDown (s.reg x))
  have hsknp := s.advancePc_skipIf_pc_toNat (!s.keyIsDown (s.reg x))
  refine ⟨decodeWord_EX9E x, decodeWord_EXA1 x, _, _, exec_skp x s, exec_sknp x s, ?_, ?_,
    keepsAllBut_advancePc_skipIf s _, keepsAllBut_advancePc_skipIf s _⟩ <;> rw [← State.keyIsDown_iff]
  · intro hdown
    rw [hdown] at hskp hsknp ⊢
    exact ⟨hskp, hsknp⟩
  · intro hup
    rw [Bool.not_eq_true] at hup
    rw [hup] at hskp hsknp ⊢
    exact ⟨hskp, hsknp⟩

/-- Settles O30: the framebuffer is replaced, not looked at. -/
theorem clearScreenClearsEveryPixel : Obligations.ClearScreenClearsEveryPixel := by
  intro s
  exact ⟨rfl, _, exec_cls s, Framebuffer.pixel_clear, rfl, s.advancePc_pc_toNat, keepsAllBut_clearScreen s⟩

/-- Settles O38: the byte drawn is the one at the stream's position, which moves on whatever the mask is. -/
theorem randomDrawsOneMaskedByte : Obligations.RandomDrawsOneMaskedByte := by
  intro x nn s
  refine ⟨decodeWord_CXNN x nn, _, exec_rnd x nn s, fun k => ?_, rfl, rfl, keepsRegsBut_advancePc_setReg s x _,
    s.advancePc_pc_toNat, keepsAllBut_drawRandom s x _⟩
  rw [State.setReg_reg_same, BitVec.getLsbD_and, State.randomByte]

end Sys2Proof.Proofs
end

section
/-! ### The draw: a set of pixels, each inverted once (45_display.md R221) -/

namespace Sys2Proof.Machine

/-- `c'` is `c` with the pixels of `covered` inverted, the collision and the change noted. -/
structure Canvas.Inverts (covered : Fin 64 → Fin 32 → Prop) (c c' : Canvas) : Prop where
  inside : ∀ px py, covered px py → c'.fb.pixel px py = !c.fb.pixel px py
  outside : ∀ px py, ¬covered px py → c'.fb.pixel px py = c.fb.pixel px py
  collision : c'.collision = true ↔ c.collision = true ∨ ∃ px py, covered px py ∧ c.fb.pixel px py = true
  changed : c'.changed = true ↔ c.changed = true ∨ ∃ px py, covered px py

theorem Canvas.inverts_none {covered : Fin 64 → Fin 32 → Prop} (h : ∀ px py, ¬covered px py) (c : Canvas) :
    c.Inverts covered c where
  inside px py hc := absurd hc (h px py)
  outside _ _ _ := rfl
  collision := by simp [h]
  changed := by simp [h]

/-- One set bit inverts the one pixel under it. -/
theorem Canvas.inverts_flip {covered : Fin 64 → Fin 32 → Prop} {x y : Nat}
    (h : ∀ px py, covered px py ↔ px = .ofNat 64 x ∧ py = .ofNat 32 y) (c : Canvas) :
    c.Inverts covered (c.flip x y) where
  inside px py hc := by
    obtain ⟨rfl, rfl⟩ := (h px py).mp hc
    exact (Framebuffer.pixel_flip _ _ _ _ _).trans (if_pos ⟨rfl, rfl⟩)
  outside px py hc := (Framebuffer.pixel_flip _ _ _ _ _).trans (if_neg (mt (h px py).mpr hc))
  collision := by simp [Canvas.flip, h]
  changed := by simp [Canvas.flip, h]

/-- One set of pixels after another that it does not meet: their union, and the second finds its pixels as they were
before the first. -/
theorem Canvas.Inverts.trans {first second both : Fin 64 → Fin 32 → Prop} {c c' c'' : Canvas}
    (h : c.Inverts first c') (h' : c'.Inverts second c'') (hboth : ∀ px py, both px py ↔ first px py ∨ second px py)
    (hdisjoint : ∀ px py, first px py → ¬second px py) : c.Inverts both c'' where
  inside px py hc := by
    obtain hf | hs := (hboth px py).mp hc
    · rw [h'.outside px py (hdisjoint px py hf), h.inside px py hf]
    · rw [h'.inside px py hs, h.outside px py fun hf => hdisjoint px py hf hs]
  outside px py hc := by
    obtain ⟨hf, hs⟩ := not_or.mp (mt (hboth px py).mpr hc)
    rw [h'.outside px py hs, h.outside px py hf]
  collision := by
    have hkept : ∀ px py, second px py → (c'.fb.pixel px py = true ↔ c.fb.pixel px py = true) := fun px py hs => by
      rw [h.outside px py fun hf => hdisjoint px py hf hs]
    rw [h'.collision, h.collision, or_assoc]
    refine or_congr_right ?_
    constructor
    · rintro (⟨px, py, hf, hset⟩ | ⟨px, py, hs, hset⟩)
      · exact ⟨px, py, (hboth px py).mpr (.inl hf), hset⟩
      · exact ⟨px, py, (hboth px py).mpr (.inr hs), (hkept px py hs).mp hset⟩
    · rintro ⟨px, py, hc, hset⟩
      obtain hf | hs := (hboth px py).mp hc
      · exact .inl ⟨px, py, hf, hset⟩
      · exact .inr ⟨px, py, hs, (hkept px py hs).mpr hset⟩
  changed := by
    simp only [h'.changed, h.changed, hboth, exists_or, or_assoc]

/-- The pixels under the set bits of columns `c .. c + count - 1` of a sprite row whose column 0 is at `x`, in row
`y`. -/
def BitsCover (row : Byte) (x y c count : Nat) (px : Fin 64) (py : Fin 32) : Prop :=
  ∃ k : Nat, k < count ∧ (x + (c + k)) % 64 = px.val ∧ y % 32 = py.val ∧ spriteBit row (c + k) = true

/-- The pixels under the set bits of sprite rows, from row `y` down. -/
def RowsCover (rows : List Byte) (x y : Nat) (px : Fin 64) (py : Fin 32) : Prop :=
  ∃ r : Nat, r < rows.length ∧ BitsCover (rows.getD r 0) x (y + r) 0 8 px py

/-- A split of the columns: the first of them, and those after it. -/
theorem bitsCover_succ (row : Byte) (x y c n : Nat) (px : Fin 64) (py : Fin 32) :
    BitsCover row x y c (n + 1) px py ↔ BitsCover row x y c 1 px py ∨ BitsCover row x y (c + 1) n px py := by
  constructor
  · rintro ⟨k, hk, hx, hy, hbit⟩
    cases k with
    | zero => exact .inl ⟨0, by omega, hx, hy, hbit⟩
    | succ k =>
      rw [show c + (k + 1) = c + 1 + k by omega] at hx hbit
      exact .inr ⟨k, by omega, hx, hy, hbit⟩
  · rintro (⟨k, hk, hx, hy, hbit⟩ | ⟨k, hk, hx, hy, hbit⟩)
    · exact ⟨k, by omega, hx, hy, hbit⟩
    · rw [show c + 1 + k = c + (k + 1) by omega] at hx hbit
      exact ⟨k + 1, by omega, hx, hy, hbit⟩

/-- No two of at most 64 columns meet on the screen, though it wraps. -/
theorem bitsCover_disjoint {row : Byte} {x y c n : Nat} (hn : n < 64) {px : Fin 64} {py : Fin 32}
    (h : BitsCover row x y c 1 px py) : ¬BitsCover row x y (c + 1) n px py := by
  obtain ⟨k, hk, hx, -⟩ := h
  rintro ⟨k', hk', hx', -⟩
  omega

theorem bitsCover_one (row : Byte) (x y c : Nat) (px : Fin 64) (py : Fin 32) :
    BitsCover row x y c 1 px py ↔ spriteBit row c = true ∧ px = .ofNat 64 (x + c) ∧ py = .ofNat 32 y := by
  simp only [BitsCover, Fin.ext_iff, Fin.val_ofNat]
  constructor
  · rintro ⟨k, hk, hx, hy, hbit⟩
    obtain rfl : k = 0 := by omega
    exact ⟨hbit, hx.symm, hy.symm⟩
  · rintro ⟨hbit, hx, hy⟩
    exact ⟨0, by omega, hx.symm, hy.symm, hbit⟩

theorem Canvas.inverts_drawBits (row : Byte) (x y : Nat) {c n : Nat} (hn : n ≤ 64) (canvas : Canvas) :
    canvas.Inverts (BitsCover row x y c n) (canvas.drawBits row x y c n) := by
  induction n generalizing c canvas with
  | zero => exact Canvas.inverts_none (by rintro px py ⟨k, hk, -⟩; omega) canvas
  | succ n ih =>
    refine Canvas.Inverts.trans (first := BitsCover row x y c 1) ?_ (ih (by omega) _)
      (bitsCover_succ row x y c n) fun px py => bitsCover_disjoint (by omega)
    by_cases hbit : spriteBit row c = true
    · rw [if_pos hbit]
      exact Canvas.inverts_flip (fun px py => (bitsCover_one row x y c px py).trans (and_iff_right hbit)) canvas
    · rw [if_neg hbit]
      exact Canvas.inverts_none (fun px py hc => hbit ((bitsCover_one row x y c px py).mp hc).1) canvas

/-- A split of the rows: the first of them, and those below it. -/
theorem rowsCover_cons (row : Byte) (rest : List Byte) (x y : Nat) (px : Fin 64) (py : Fin 32) :
    RowsCover (row :: rest) x y px py ↔ BitsCover row x y 0 8 px py ∨ RowsCover rest x (y + 1) px py := by
  constructor
  · rintro ⟨r, hr, hc⟩
    cases r with
    | zero => exact .inl hc
    | succ r =>
      rw [show y + (r + 1) = y + 1 + r by omega, List.getD_cons_succ] at hc
      exact .inr ⟨r, Nat.lt_of_succ_lt_succ hr, hc⟩
  · rintro (hc | ⟨r, hr, hc⟩)
    · exact ⟨0, Nat.succ_pos _, hc⟩
    · rw [show y + 1 + r = y + (r + 1) by omega] at hc
      exact ⟨r + 1, Nat.succ_lt_succ hr, hc⟩

/-- No two of at most 32 rows meet on the screen, though it wraps. -/
theorem rowsCover_disjoint {row : Byte} {rest : List Byte} {x y : Nat} (hlen : rest.length < 32) {px : Fin 64}
    {py : Fin 32} (h : BitsCover row x y 0 8 px py) : ¬RowsCover rest x (y + 1) px py := by
  obtain ⟨-, -, -, hy, -⟩ := h
  rintro ⟨r, hr, -, -, -, hy', -⟩
  omega

theorem Canvas.inverts_drawRows (x : Nat) {y : Nat} {rows : List Byte} (hlen : rows.length ≤ 32) (canvas : Canvas) :
    canvas.Inverts (RowsCover rows x y) (canvas.drawRows x y rows) := by
  induction rows generalizing y canvas with
  | nil => exact Canvas.inverts_none (by rintro px py ⟨r, hr, -⟩; exact absurd hr (Nat.not_lt_zero r)) canvas
  | cons row rest ih =>
    rw [List.length_cons] at hlen
    exact Canvas.Inverts.trans (Canvas.inverts_drawBits row x y (by decide) canvas) (ih (by omega) _)
      (rowsCover_cons row rest x y) fun px py => rowsCover_disjoint (by omega)

/-- The rows that a draw reads from memory cover what the sprite covers. -/
theorem rowsCover_readBytes (s : State) (x y : Reg) (n : Nat) (px : Fin 64) (py : Fin 32) :
    RowsCover (s.mem.readBytes (dataAddress s.idx 0) n) (s.reg x).toNat (s.reg y).toNat px py ↔
      SpriteCovers s x y n px py := by
  simp only [RowsCover, BitsCover, SpriteCovers, Memory.length_readBytes, Nat.zero_add, spriteBit]
  constructor
  · rintro ⟨r, hr, c, hc, hx, hy, hbit⟩
    rw [Memory.getD_readBytes _ _ _ _ hr] at hbit
    exact ⟨r, c, hr, hc, hx, hy, hbit⟩
  · rintro ⟨r, c, hr, hc, hx, hy, hbit⟩
    refine ⟨r, hr, c, hc, hx, hy, ?_⟩
    rw [Memory.getD_readBytes _ _ _ _ hr]
    exact hbit

/-- The canvas of a draw before its first bit. -/
def State.blankCanvas (s : State) : Canvas := ⟨s.fb, false, false⟩

/-- What a draw leaves: its sprite's pixels inverted, `VF` the collision, `DIRTY` the change. -/
theorem State.afterDraw_eq (s : State) (x y : Reg) (n : Fin 16) :
    ∃ c : Canvas, s.blankCanvas.Inverts (SpriteCovers s x y n.val) c ∧ s.afterDraw x y n = s.advancePc.setCanvas c := by
  refine ⟨_, ?_, rfl⟩
  have hrows := Canvas.inverts_drawRows (s.reg x).toNat (y := (s.reg y).toNat)
    (rows := s.mem.readBytes (dataAddress s.idx 0) n.val) (by rw [Memory.length_readBytes]; omega) s.blankCanvas
  rwa [funext fun px => funext fun py => propext (rowsCover_readBytes s x y n.val px py)] at hrows

end Sys2Proof.Machine
end

section
/-! ### One draw and a second one (45_display.md R221, R223) -/

namespace Sys2Proof.Machine

/-- Every answer of a draw that is in range, said of the pixels the sprite covers. -/
structure Draws (s : State) (x y : Reg) (n : Fin 16) (t : State) : Prop where
  inside : ∀ px py, SpriteCovers s x y n.val px py → t.fb.pixel px py = !s.fb.pixel px py
  outside : ∀ px py, ¬SpriteCovers s x y n.val px py → t.fb.pixel px py = s.fb.pixel px py
  flag : t.reg 0xF = 1 ↔ ∃ px py, SpriteCovers s x y n.val px py ∧ s.fb.pixel px py = true
  flagClear : t.reg 0xF ≠ 1 → t.reg 0xF = 0
  dirty : t.dirty = true ↔ s.dirty = true ∨ ∃ px py, SpriteCovers s x y n.val px py
  registers : KeepsRegsBut [0xF] s t
  counter : t.pc.toNat = after s.pc
  frame : KeepsAllBut [.registers, .counter, .framebuffer, .dirty] s t

theorem flagByte_eq_one (f : Bool) : flagByte f = 1 ↔ f = true := by
  cases f <;> simp [flagByte]

theorem flagByte_eq_zero (f : Bool) : flagByte f = 0 ↔ f = false := by
  cases f <;> simp [flagByte]

theorem draws_afterDraw (s : State) (x y : Reg) (n : Fin 16) : Draws s x y n (s.afterDraw x y n) := by
  obtain ⟨c, hc, he⟩ := s.afterDraw_eq x y n
  rw [he]
  have hflag : (s.advancePc.setCanvas c).reg 0xF = flagByte c.collision := State.setReg_reg_same _ flagReg _
  refine ⟨hc.inside, hc.outside, ?_, fun hne => ?_, ?_, keepsRegsBut_setCanvas s c, s.advancePc_pc_toNat,
    keepsAllBut_setCanvas s c⟩
  · rw [hflag, flagByte_eq_one, hc.collision]
    exact or_iff_right Bool.false_ne_true
  · rw [hflag, Ne, flagByte_eq_one, Bool.not_eq_true] at hne
    rw [hflag, flagByte_eq_zero, hne]
  · rw [State.setCanvas_dirty, State.advancePc_dirty, Bool.or_eq_true, hc.changed]
    exact or_congr_right (or_iff_right Bool.false_ne_true)

/-- A row of a sprite that is not zero has a set bit among its eight columns. -/
theorem byte_ne_zero_iff (b : Byte) : b ≠ 0 ↔ ∃ c : Nat, c < 8 ∧ b.getLsbD (7 - c) = true := by
  constructor
  · intro hne
    by_contra hno
    push Not at hno
    refine hne (BitVec.eq_of_getLsbD_eq fun k hk => ?_)
    have hbit := hno (7 - k) (by omega)
    rw [show 7 - (7 - k) = k by omega] at hbit
    simpa using hbit
  · rintro ⟨c, -, hbit⟩ rfl
    simp at hbit

/-- A sprite covers some pixel exactly where one of its rows is not zero: no set bit falls off the screen. -/
theorem exists_spriteCovers_iff (s : State) (x y : Reg) (n : Nat) :
    (∃ px py, SpriteCovers s x y n px py) ↔ ∃ r : Nat, r < n ∧ s.byteAt (dataAddress s.idx r) ≠ 0 := by
  simp only [byte_ne_zero_iff]
  constructor
  · rintro ⟨px, py, r, c, hr, hc, -, -, hbit⟩
    exact ⟨r, hr, c, hc, hbit⟩
  · rintro ⟨r, hr, c, hc, hbit⟩
    exact ⟨.ofNat 64 ((s.reg x).toNat + c), .ofNat 32 ((s.reg y).toNat + r), r, c, hr, hc, rfl, rfl, hbit⟩

/-- After a draw that left its own coordinates alone, the same sprite covers the same pixels. -/
theorem Draws.spriteCovers_iff {s t : State} {x y : Reg} {n : Fin 16} (h : Draws s x y n t)
    (hx : t.reg x = s.reg x) (hy : t.reg y = s.reg y) (px : Fin 64) (py : Fin 32) :
    SpriteCovers t x y n.val px py ↔ SpriteCovers s x y n.val px py := by
  have hmem : ∀ a, t.byteAt a = s.byteAt a := h.frame .memory (by decide)
  have hidx : t.idx = s.idx := h.frame .index (by decide)
  simp only [SpriteCovers, hx, hy, hidx, hmem]

/-- Two draws over the same pixels: each of them is inverted twice. -/
theorem Draws.fb_of_twice {s t u : State} {x y : Reg} {n : Fin 16} (h : Draws s x y n t) (h' : Draws t x y n u)
    (hcovers : ∀ px py, SpriteCovers t x y n.val px py ↔ SpriteCovers s x y n.val px py) : u.fb = s.fb := by
  refine Framebuffer.ext_pixel fun px py => ?_
  by_cases hc : SpriteCovers s x y n.val px py
  · rw [h'.inside px py ((hcovers px py).mpr hc), h.inside px py hc, Bool.not_not]
  · rw [h'.outside px py (mt (hcovers px py).mp hc), h.outside px py hc]

/-- The flag of the second draw: a covered pixel was clear before the first, which set it. -/
theorem Draws.flag_of_twice {s t u : State} {x y : Reg} {n : Fin 16} (h : Draws s x y n t) (h' : Draws t x y n u)
    (hcovers : ∀ px py, SpriteCovers t x y n.val px py ↔ SpriteCovers s x y n.val px py) :
    u.reg 0xF = 1 ↔ ∃ px py, SpriteCovers s x y n.val px py ∧ s.fb.pixel px py = false := by
  rw [h'.flag]
  refine exists_congr fun px => exists_congr fun py => ?_
  rw [hcovers, and_congr_right_iff]
  intro hc
  rw [h.inside px py hc, Bool.not_eq_true']

end Sys2Proof.Machine

namespace Sys2Proof.Proofs

open Machine

/-- Settles O31, by the range check: in range the draw inverts the set of pixels that the sprite covers. -/
theorem drawInvertsSpritePixels : Obligations.DrawInvertsSpritePixels := by
  intro x y n s
  refine ⟨decodeWord_DXYN x y n, fun hin => ?_, fun hout => ?_⟩
  · have h := draws_afterDraw s x y n
    refine ⟨_, exec_drw_of_inRange hin x y, fun px py => ⟨h.inside px py, h.outside px py⟩, h.flag.mpr,
      fun hno => h.flagClear (mt h.flag.mp hno), fun hc => h.dirty.mpr (.inr hc), fun hno => ?_, h.registers, h.counter,
      h.frame⟩
    exact Bool.eq_iff_iff.mpr (h.dirty.trans (or_iff_left hno))
  · exact ⟨_, exec_drw_of_outOfRange hout x y, raisesFrom_raise s .memoryOutOfRange 0x1000⟩

/-- Settles O32: the second draw covers the pixels of the first and inverts each of them back. -/
theorem drawingTwiceRestoresFramebuffer : Obligations.DrawingTwiceRestoresFramebuffer := by
  intro x y n s t hin he hx hy
  have h := draws_afterDraw s x y n
  cases (exec_drw_of_inRange hin x y).symm.trans he
  have hcovers := h.spriteCovers_iff hx hy
  have hidx : (s.afterDraw x y n).idx = s.idx := h.frame .index (by decide)
  have hin' : SpriteInRange (s.afterDraw x y n) n := by rwa [SpriteInRange, hidx]
  have h' := draws_afterDraw (s.afterDraw x y n) x y n
  have hflag := h.flag_of_twice h' hcovers
  refine ⟨_, exec_drw_of_inRange hin' x y, h.fb_of_twice h' hcovers, hflag.mpr,
    fun hno => h'.flagClear (mt hflag.mp hno), fun hclear => ?_, fun hone => ?_⟩
  · rw [hflag, ← exists_spriteCovers_iff s x y]
    exact exists_congr fun px => exists_congr fun py => (and_iff_left_of_imp (hclear px py)).symm
  · obtain ⟨px, py, hc, -⟩ := hflag.mp hone
    exact (exists_spriteCovers_iff s x y n.val).mp ⟨px, py, hc⟩

end Sys2Proof.Proofs
end

section
/-! ### The end of a step, and what a step of `RUNNING` can do (10_state.md R24, R39, 60_exceptions.md R303, R331) -/

namespace Sys2Proof.Machine

theorem keepsAllBut_endStep (s : State) : KeepsAllBut [.dirty, .events, .stepResult] s s.endStep := by
  intro p hp
  cases p with
  | dirty | events | stepResult => simp at hp
  | _ => simp [Part.same]

theorem keepsAllBut_beginTransaction (s : State) : KeepsAllBut [.events, .stepResult] s s.beginTransaction := by
  intro p hp
  cases p with
  | events | stepResult => simp at hp
  | _ => simp [Part.same]

theorem keepsAllBut_mono {changed changed' : List Part} (hsub : changed ⊆ changed') {s t : State}
    (h : KeepsAllBut changed s t) : KeepsAllBut changed' s t :=
  fun p hp => h p (mt (@hsub p) hp)

/-- A step that raised renders nothing, whatever `DIRTY` is, and returns the error it latched. -/
theorem State.endStep_of_halted {s : State} (h : s.run = .halted) :
    s.endStep = { s with stepResult := some ⟨false, false, some (s.errCode, s.errInfo)⟩ } := by
  simp [State.endStep, State.renderIfDirty, State.resultOfStep, h]

theorem State.resultOfStep_of_ne_halted {s : State} (h : s.run ≠ .halted) :
    s.resultOfStep = ⟨s.dirty, decide (s.run = .waiting), none⟩ := by
  rw [State.resultOfStep, if_neg h, beq_eq_decide]

theorem State.endStep_events_of_ne_halted {s : State} (h : s.run ≠ .halted) :
    s.endStep.events = s.events ++ if s.dirty then [.render s.fb] else [] := by
  rw [State.endStep_events, bne_iff_ne.mpr h, Bool.and_true]
  split <;> simp

/-- The errors that a step latches (R301, R302). -/
def ErrCode.Fatal (code : ErrCode) : Prop := code ≠ .noError ∧ code ≠ .invalidKeyCode

theorem fatal_of_raises {i : Instr} {s : State} {code : ErrCode} {info : Word} (h : i.Raises s code info) :
    code.Fatal := by
  cases i with
  | sys =>
    obtain ⟨rfl, -⟩ := h
    exact ⟨by decide, by decide⟩
  | call | ret =>
    obtain ⟨-, rfl, -⟩ := h
    exact ⟨by decide, by decide⟩
  | drw =>
    obtain ⟨-, -, rfl, -⟩ := h
    exact ⟨by decide, by decide⟩
  | ldBVx | storeRegs | loadRegs =>
    obtain ⟨-, rfl, -⟩ := h
    exact ⟨by decide, by decide⟩
  | _ => exact h.elim

/-- The inversion of a step of `RUNNING`: it raises a fatal error, or completes the instruction that it decoded. -/
theorem stepOnce_running_cases {s t : State} (hrun : s.run = .running) (h : stepOnce s = .next t) :
    (∃ code info, code.Fatal ∧ t = (s.raise code info).endStep) ∨
      ∃ i u, s.pc.toNat ≤ 0xFFE ∧ decodeWord s.opcode = .ok i ∧ exec i s = .next u ∧ i.Completes s u ∧
        t = u.endStep := by
  rw [stepOnce_running hrun] at h
  obtain ⟨u, hu, rfl⟩ := mapNext_next h
  obtain ⟨-, he⟩ | ⟨-, -, he⟩ | ⟨hpc, i, hdecode, he⟩ := instructionStep_cases s
  · cases he.symm.trans hu
    exact .inl ⟨_, _, ⟨by decide, by decide⟩, rfl⟩
  · cases he.symm.trans hu
    exact .inl ⟨_, _, ⟨by decide, by decide⟩, rfl⟩
  · have hexec := he.symm.trans hu
    obtain hdone | ⟨code, info, hraise, rfl⟩ := exec_cases hexec
    · exact .inr ⟨i, u, hpc, hdecode, hexec, hdone, rfl⟩
    · exact .inl ⟨code, info, fatal_of_raises hraise, rfl⟩

/-- A step that raised: the latch, the `Error` event and the result say so, and all else is as before it. -/
theorem raise_endStep_frame (s : State) (code : ErrCode) (info : Word) :
    KeepsAllBut [.run, .errorLatch, .events, .stepResult] s (s.raise code info).endStep := by
  rw [State.endStep_of_halted (State.raise_run s code info)]
  intro p hp
  cases p with
  | run | errorLatch | events | stepResult => simp at hp
  | _ => simp [Part.same, State.reg, State.byteAt]

/-- The outputs of a step that raised name the error it latched, once each. -/
theorem raise_endStep_outputs {s t : State} {code : ErrCode} {info : Word} (ht : t = (s.raise code info).endStep) :
    t.events = s.events ++ [.error t.errCode t.errInfo] ∧
      t.stepResult = some ⟨false, false, some (t.errCode, t.errInfo)⟩ := by
  rw [State.endStep_of_halted (State.raise_run s code info)] at ht
  subst ht
  exact ⟨rfl, rfl⟩

/-- An instruction that completes with another framebuffer has set `DIRTY`. -/
theorem dirty_of_fb_changed {i : Instr} {s u : State} (h : i.Completes s u) (hfb : u.fb ≠ s.fb) : u.dirty = true := by
  obtain rfl | ⟨x, y, n, rfl⟩ := writes_framebuffer (not_not.mp (mt (h.keepsAllBut .framebuffer) hfb))
  · cases h
    rfl
  · cases h
    have hdraws := draws_afterDraw s x y n
    refine hdraws.dirty.mpr (.inr ?_)
    by_contra hnone
    exact hfb (Framebuffer.ext_pixel fun px py => hdraws.outside px py fun hc => hnone ⟨px, py, hc⟩)

end Sys2Proof.Machine

namespace Sys2Proof.Proofs

open Machine

/-- Settles O44: a completed instruction does not halt, so the step raised, on the state before the instruction. -/
theorem errorsArePrecise : Obligations.ErrorsArePrecise := by
  intro s t hrun h hhalt
  obtain ⟨code, info, hfatal, ht⟩ | ⟨i, u, -, -, -, hdone, rfl⟩ :=
    stepOnce_running_cases (s := s.beginTransaction) hrun h
  · obtain ⟨hevents, hresult⟩ := raise_endStep_outputs ht
    subst ht
    exact ⟨by simpa using hfatal.1, hevents, hresult,
      keepsAllBut_trans (keepsAllBut_mono (by simp) (keepsAllBut_beginTransaction s))
        (raise_endStep_frame s.beginTransaction code info)⟩
  · rw [State.endStep_run] at hhalt
    exact absurd hhalt (hdone.run_ne_halted (by simp [hrun]))

/-- Settles O34, by whether the step raised; where it did not, the end of the step looks at the `DIRTY` that the
instruction left. -/
theorem stepRendersOnceWhenDirty : Obligations.StepRendersOnceWhenDirty := by
  intro s t hrun hclean h
  obtain ⟨code, info, -, ht⟩ | ⟨i, u, hpc, hdecode, hexec, hdone, rfl⟩ :=
    stepOnce_running_cases (s := s.beginTransaction) hrun h
  · obtain ⟨hevents, hresult⟩ := raise_endStep_outputs ht
    subst ht
    have hdirty : (s.beginTransaction.raise code info).endStep.dirty = false := by
      simp [State.endStep_dirty, hclean]
    exact ⟨hdirty, .inl ⟨by simp, by simp, hevents, hresult⟩⟩
  · have hne : u.run ≠ .halted := hdone.run_ne_halted (by simp [hrun])
    have hevents : u.events = [] := hdone.keepsAllBut .events (not_writes_events i)
    have hrender := State.endStep_events_of_ne_halted hne
    rw [hevents, List.nil_append] at hrender
    refine ⟨?_, .inr ⟨i, u, hpc, hdecode, hexec, hne, ?_, hrender, dirty_of_fb_changed (s := s.beginTransaction) hdone,
      ?_, keepsAllBut_endStep u⟩⟩
    · simp [State.endStep_dirty, hne]
    · rw [State.endStep_stepResult, State.resultOfStep_of_ne_halted hne]
    · rintro rfl
      cases hexec
      exact hrender

end Sys2Proof.Proofs
end

section
/-! ### Transactions on the latch, ticks and an idle block (44_input.md R200, 60_exceptions.md R304, R324, R344) -/

namespace Sys2Proof.Machine

/-- The latch after a press of key `k` (R200). -/
def State.pressKey (s : State) (k : Fin 16) : State :=
  { s.beginTransaction with
    keyEdge := s.keyEdge.set k.val (s.keyEdge[k.val] || !s.keyDown[k.val])
    keyDown := s.keyDown.set k.val true }

/-- The latch after a release of key `k` (R200). -/
def State.releaseKey (s : State) (k : Fin 16) : State :=
  { s.beginTransaction with keyDown := s.keyDown.set k.val false }

theorem keyDown_of_code {key : Byte} {k : Fin 16} (h : key.toNat = k.val) (s : State) :
    keyDown key s = s.pressKey k := by
  rw [keyDown, keyOf_eq_some.mpr h]
  rfl

theorem keyUp_of_code {key : Byte} {k : Fin 16} (h : key.toNat = k.val) (s : State) :
    keyUp key s = s.releaseKey k := by
  rw [keyUp, keyOf_eq_some.mpr h]
  rfl

theorem keyDown_of_noCode {key : Byte} (h : 16 ≤ key.toNat) (s : State) :
    keyDown key s = s.beginTransaction.emit (.invalidKeyCode key) := by
  rw [keyDown, keyOf_eq_none.mpr h]

theorem keyUp_of_noCode {key : Byte} (h : 16 ≤ key.toNat) (s : State) :
    keyUp key s = s.beginTransaction.emit (.invalidKeyCode key) := by
  rw [keyUp, keyOf_eq_none.mpr h]

theorem code_cases (key : Byte) : (∃ k : Fin 16, key.toNat = k.val) ∨ 16 ≤ key.toNat := by
  obtain h | h := lt_or_ge key.toNat 16
  · exact .inl ⟨⟨key.toNat, h⟩, rfl⟩
  · exact .inr h

theorem getElem_set_of_ne {α : Type} {v : Vector α 16} {j k : Fin 16} (h : j ≠ k) (a : α) :
    (v.set k.val a)[j.val] = v[j.val] :=
  Vector.getElem_set_ne k.isLt j.isLt fun e => h (Fin.ext e.symm)

theorem State.pressKey_pressKey (s : State) (k : Fin 16) : (s.pressKey k).pressKey k = s.pressKey k := by
  simp [State.pressKey, State.beginTransaction]

theorem State.releaseKey_releaseKey (s : State) (k : Fin 16) : (s.releaseKey k).releaseKey k = s.releaseKey k := by
  simp [State.releaseKey, State.beginTransaction]

theorem keepsAllBut_pressKey (s : State) (k : Fin 16) :
    KeepsAllBut [.keyDown, .keyEdge, .events, .stepResult] s (s.pressKey k) := by
  intro p hp
  cases p with
  | keyDown | keyEdge | events | stepResult => simp at hp
  | _ => simp [Part.same, State.pressKey, State.reg, State.byteAt]

theorem keepsAllBut_releaseKey (s : State) (k : Fin 16) :
    KeepsAllBut [.keyDown, .events, .stepResult] s (s.releaseKey k) := by
  intro p hp
  cases p with
  | keyDown | events | stepResult => simp at hp
  | _ => simp [Part.same, State.releaseKey, State.reg, State.byteAt]

theorem keepsAllBut_beginTransaction_emit (s : State) (ev : Event) :
    KeepsAllBut [.events, .stepResult] s (s.beginTransaction.emit ev) := by
  intro p hp
  cases p with
  | events | stepResult => simp at hp
  | _ => simp [Part.same]

theorem keepsAllBut_keyDown (key : Byte) (s : State) :
    KeepsAllBut [.keyDown, .keyEdge, .events, .stepResult] s (keyDown key s) := by
  obtain ⟨k, hk⟩ | hno := code_cases key
  · rw [keyDown_of_code hk]
    exact keepsAllBut_pressKey s k
  · rw [keyDown_of_noCode hno]
    exact keepsAllBut_mono (by simp) (keepsAllBut_beginTransaction_emit s _)

theorem keepsAllBut_keyUp (key : Byte) (s : State) :
    KeepsAllBut [.keyDown, .keyEdge, .events, .stepResult] s (keyUp key s) := by
  obtain ⟨k, hk⟩ | hno := code_cases key
  · rw [keyUp_of_code hk]
    exact keepsAllBut_mono (by simp) (keepsAllBut_releaseKey s k)
  · rw [keyUp_of_noCode hno]
    exact keepsAllBut_mono (by simp) (keepsAllBut_beginTransaction_emit s _)

@[simp] theorem keyDown_stepResult (key : Byte) (s : State) : (keyDown key s).stepResult = none := by
  obtain ⟨k, hk⟩ | hno := code_cases key
  · rw [keyDown_of_code hk]
    rfl
  · rw [keyDown_of_noCode hno]
    rfl

@[simp] theorem keyUp_stepResult (key : Byte) (s : State) : (keyUp key s).stepResult = none := by
  obtain ⟨k, hk⟩ | hno := code_cases key
  · rw [keyUp_of_code hk]
    rfl
  · rw [keyUp_of_noCode hno]
    rfl

theorem State.idle_iff (s : State) : s.idle = true ↔ s.run = .stopped ∨ s.run = .halted := by
  simp [State.idle]

theorem State.not_idle_iff (s : State) : s.idle = false ↔ s.run = .running ∨ s.run = .waiting := by
  cases h : s.run <;> simp [State.idle, h]

theorem keepsAllBut_stop (s : State) : KeepsAllBut [.run, .events, .stepResult] s (stop s) := by
  intro p hp
  cases p with
  | run | events | stepResult => simp at hp
  | _ => simp [Part.same, stop, State.reg, State.byteAt]

theorem tick_of_idle {s : State} (h : s.idle = true) : tick s = s.beginTransaction := if_pos h

theorem tick_of_not_idle {s : State} (h : s.idle = false) : tick s = s.beginTransaction.timerTick :=
  if_neg (Bool.not_eq_true _ ▸ h)

theorem cycle_of_idle {s : State} (h : s.idle = true) : cycle s = .next s.beginTransaction :=
  stepOnce_idle (s := s.beginTransaction) h

theorem keepsAllBut_beginTransaction_timerTick (s : State) :
    KeepsAllBut [.delayTimer, .soundTimer, .events, .stepResult] s s.beginTransaction.timerTick := by
  intro p hp
  cases p with
  | delayTimer | soundTimer | events | stepResult => simp at hp
  | _ => simp [Part.same]

theorem keepsAllBut_tick (s : State) : KeepsAllBut [.delayTimer, .soundTimer, .events, .stepResult] s (tick s) := by
  cases hi : s.idle with
  | true =>
    rw [tick_of_idle hi]
    exact keepsAllBut_mono (by simp) (keepsAllBut_beginTransaction s)
  | false =>
    rw [tick_of_not_idle hi]
    exact keepsAllBut_beginTransaction_timerTick s

/-- In an idle block a step, a tick and an advance only end the outputs of the transaction before (R304, R344). -/
theorem transact_of_idle (p : Params) (dt : Duration) {s : State} (h : s.idle = true) :
    ∀ tr ∈ [Transaction.cycle, .tick, .advance dt], transact p tr s = .next s.beginTransaction := by
  intro tr htr
  simp only [List.mem_cons, List.not_mem_nil, or_false] at htr
  obtain rfl | rfl | rfl := htr
  · exact cycle_of_idle h
  · exact congrArg Host.Outcome.next (tick_of_idle h)
  · exact advance_idle p dt h

/-- What a transaction other than `Start` does to an idle block: `Stop` stops it, the others leave its run state. -/
theorem transact_idle_cases {p : Params} {tr : Transaction} {s t : State} (hi : s.idle = true)
    (h : transact p tr s = .next t) (hstart : ∀ program seed, tr ≠ .start program seed) :
    t.stepResult = none ∧ KeepsAllBut [.run, .keyDown, .keyEdge, .events, .stepResult] s t ∧
      (tr = .stop → t.run = .stopped) ∧ (tr ≠ .stop → t.run = s.run) := by
  have hidle : t = s.beginTransaction → tr ≠ .stop → t.stepResult = none ∧
      KeepsAllBut [.run, .keyDown, .keyEdge, .events, .stepResult] s t ∧ (tr = .stop → t.run = .stopped) ∧
        (tr ≠ .stop → t.run = s.run) := by
    rintro rfl hne
    exact ⟨rfl, keepsAllBut_mono (by simp) (keepsAllBut_beginTransaction s), fun e => absurd e hne, fun _ => rfl⟩
  cases tr with
  | start program seed => exact absurd rfl (hstart program seed)
  | stop =>
    cases h
    exact ⟨rfl, keepsAllBut_mono (by simp) (keepsAllBut_stop s), fun _ => rfl, fun e => absurd rfl e⟩
  | advance dt =>
    cases (advance_idle p dt hi).symm.trans h
    exact hidle rfl (by simp)
  | cycle =>
    cases (cycle_of_idle hi).symm.trans h
    exact hidle rfl (by simp)
  | tick =>
    cases h
    exact hidle (tick_of_idle hi) (by simp)
  | keyDown key =>
    cases h
    exact ⟨keyDown_stepResult key s, keepsAllBut_mono (by simp) (keepsAllBut_keyDown key s), by simp,
      fun _ => keepsAllBut_keyDown key s .run (by decide)⟩
  | keyUp key =>
    cases h
    exact ⟨keyUp_stepResult key s, keepsAllBut_mono (by simp) (keepsAllBut_keyUp key s), by simp,
      fun _ => keepsAllBut_keyUp key s .run (by decide)⟩

end Sys2Proof.Machine

namespace Sys2Proof.Proofs

open Machine

/-- Settles O27, by whether the code names a key. -/
theorem keyTransactionsUpdateLatch : Obligations.KeyTransactionsUpdateLatch := by
  intro key s
  refine ⟨fun k hk => ?_, fun hno => ?_⟩
  · simp only [keyDown_of_code hk, keyUp_of_code hk]
    exact ⟨Vector.getElem_set_self k.isLt, Vector.getElem_set_self k.isLt,
      fun j hj => ⟨getElem_set_of_ne hj _, getElem_set_of_ne hj _⟩, rfl, keepsAllBut_pressKey s k,
      s.pressKey_pressKey k, Vector.getElem_set_self k.isLt, fun j hj => getElem_set_of_ne hj _, rfl,
      keepsAllBut_releaseKey s k, s.releaseKey_releaseKey k⟩
  · rw [keyDown_of_noCode hno, keyUp_of_noCode hno]
    exact ⟨rfl, keepsAllBut_beginTransaction_emit s _, rfl, keepsAllBut_beginTransaction_emit s _⟩

/-- Settles O33: by which instructions write the framebuffer and `DIRTY`, and by what the host's other transactions
write. -/
theorem onlyDisplayInstructionsChangeFramebuffer : Obligations.OnlyDisplayInstructionsChangeFramebuffer := by
  refine ⟨fun i s t h hne => ?_, fun p tr s t h hne => ?_⟩
  · obtain hfb | hdirty := hne
    · exact writes_framebuffer (exec_changed (p := .framebuffer) h (by decide) hfb).1
    · exact writes_dirty (exec_changed (p := .dirty) h (by decide) hdirty).1
  · have hkept {changed : List Part} (hkeep : KeepsAllBut changed s t) (hfb : .framebuffer ∉ changed)
        (hdirty : .dirty ∉ changed) : False :=
      hne.elim (· (hkeep .framebuffer hfb)) (· (hkeep .dirty hdirty))
    cases tr with
    | start program seed => exact .inl ⟨program, seed, rfl⟩
    | cycle => exact .inr (.inl rfl)
    | advance dt => exact .inr (.inr ⟨dt, rfl⟩)
    | stop => cases h; exact (hkept (keepsAllBut_stop s) (by decide) (by decide)).elim
    | tick => cases h; exact (hkept (keepsAllBut_tick s) (by decide) (by decide)).elim
    | keyDown key => cases h; exact (hkept (keepsAllBut_keyDown key s) (by decide) (by decide)).elim
    | keyUp key => cases h; exact (hkept (keepsAllBut_keyUp key s) (by decide) (by decide)).elim

/-- Settles O37, by whether the block is idle. -/
theorem tickDecrementsTimers : Obligations.TickDecrementsTimers := by
  intro s
  refine ⟨fun hrun => ?_, fun hidle => ?_⟩
  · rw [tick_of_not_idle (s.not_idle_iff.mpr hrun)]
    refine ⟨countDown_toNat s.dt, countDown_toNat s.st, ?_, keepsAllBut_beginTransaction_timerTick s⟩
    exact State.timerTick_events s.beginTransaction
  · rw [tick_of_idle (s.idle_iff.mpr hidle)]
    exact ⟨rfl, keepsAllBut_beginTransaction s⟩

/-- Settles O46: idle transactions end the outputs before them and do nothing else; only `Start` and `Stop` write the
run state of an idle block. -/
theorem idleBlockStandsStill : Obligations.IdleBlockStandsStill := by
  refine ⟨fun p dt s hs tr htr => ?_, fun s => ⟨rfl, rfl, keepsAllBut_stop s⟩, fun p tr s t hs h hstart => ?_⟩
  · exact ⟨_, transact_of_idle p dt (s.idle_iff.mpr hs) tr htr, rfl, rfl, keepsAllBut_beginTransaction s⟩
  · obtain ⟨-, -, hstop, hother⟩ := transact_idle_cases (s.idle_iff.mpr (.inl hs)) h hstart
    by_cases htr : tr = .stop
    · exact hstop htr
    · exact (hother htr).trans hs

/-- Settles O47: a halted block is an idle one, and `Start` of a program that fits leaves a fresh session. -/
theorem haltedUntilStartOrStop : Obligations.HaltedUntilStartOrStop := by
  intro p s hs
  refine ⟨fun tr t h hstart => ?_, fun program seed hlen => ?_⟩
  · obtain ⟨hresult, hkeep, hstop, hother⟩ := transact_idle_cases (s.idle_iff.mpr (.inr hs)) h hstart
    obtain ⟨hcode, hinfo⟩ : Part.errorLatch.same s t := hkeep .errorLatch (by decide)
    exact ⟨hcode, hinfo, hresult, hkeep, hstop, fun htr => (hother htr).trans hs⟩
  · exact ⟨_, congrArg Host.Outcome.next (start_fits p program seed s hlen), rfl, rfl, rfl⟩

end Sys2Proof.Proofs
end

section
/-! ### A wait whose key comes (44_input.md R202) -/

namespace Sys2Proof.Machine

/-- The lowest edge is the one below which there is none. -/
theorem State.lowestEdge_eq_some {s : State} {k : Fin 16} (hk : s.keyEdge[k.val] = true)
    (hleast : ∀ j : Fin 16, j < k → s.keyEdge[j.val] = false) : s.lowestEdge = some k := by
  cases h : s.lowestEdge with
  | none => exact absurd ((s.lowestEdge_none.mp h) k) (by simp [hk])
  | some k' =>
    obtain hlt | rfl | hgt := lt_trichotomy k' k
    · exact absurd (hleast k' hlt) (by simp [State.lowestEdge_edge h])
    · rfl
    · exact absurd (State.lowestEdge_least h hgt) (by simp [hk])

/-- The state after the step that takes key `k` (R202). -/
def State.awake (s : State) (k : Fin 16) : State :=
  { (s.beginTransaction.setReg s.waitX (.ofNat 8 k.val)).clearEdges.advancePc.endWait with
    stepResult := some ⟨false, false, none⟩ }

theorem cycle_of_waiting_edge {s : State} {k : Fin 16} (hrun : s.run = .waiting) (hdirty : s.dirty = false)
    (hk : s.lowestEdge = some k) : cycle s = .next (s.awake k) := by
  have hpoll : s.beginTransaction.pollKeys =
      (s.beginTransaction.setReg s.waitX (.ofNat 8 k.val)).clearEdges.advancePc.endWait := by
    rw [State.pollKeys, show s.beginTransaction.lowestEdge = some k from hk]
    rfl
  rw [cycle, stepOnce_waiting (s := s.beginTransaction) hrun, State.endStep_of_clean (by simpa using hdirty), hpoll]
  simp [State.awake, State.resultOfStep, hdirty]

theorem State.awake_reg_waitX (s : State) (k : Fin 16) : ((s.awake k).reg s.waitX).toNat = k.val := by
  have hreg : (s.awake k).reg s.waitX = .ofNat 8 k.val := State.setReg_reg_same s.beginTransaction s.waitX _
  rw [hreg, BitVec.toNat_ofNat]
  omega

theorem State.awake_edge (s : State) (k j : Fin 16) : (s.awake k).keyEdge[j.val] = false :=
  State.clearEdges_edge (s.beginTransaction.setReg s.waitX (.ofNat 8 k.val)) j

theorem State.awake_pc_toNat (s : State) (k : Fin 16) : (s.awake k).pc.toNat = after s.pc :=
  nextWord_toNat s.pc

theorem keepsRegsBut_awake (s : State) (k : Fin 16) : KeepsRegsBut [s.waitX] s (s.awake k) := fun r hr =>
  (State.setReg_reg s.beginTransaction s.waitX r _).trans (if_neg (List.ne_of_not_mem_cons hr))

theorem keepsAllBut_awake (s : State) (k : Fin 16) :
    KeepsAllBut [.registers, .keyEdge, .counter, .run, .events, .stepResult] s (s.awake k) := by
  intro p hp
  cases p with
  | registers | keyEdge | counter | run | events | stepResult => simp at hp
  | _ => simp [Part.same, State.awake, State.byteAt]

/-- Polls of a wait with no edge leave the state, or what a poll leaves of it. -/
theorem transactAll_cycles_of_waiting_noEdge (p : Params) (n : Nat) {s : State} (hrun : s.run = .waiting)
    (hdirty : s.dirty = false) (hedge : ∀ j : Fin 16, s.keyEdge[j.val] = false) :
    ∃ t, transactAll p (List.replicate n .cycle) s = .next t ∧ (t = s ∨ t = s.stillWaiting) := by
  cases n with
  | zero => exact ⟨s, rfl, .inl rfl⟩
  | succ n => exact ⟨_, transactAll_cycle_of_waiting_noEdge p n hrun hdirty hedge, .inr rfl⟩

/-- A press of a key that is up, in a latch with no edge, makes the only edge. -/
theorem State.pressKey_lowestEdge {s : State} {k : Fin 16} (hedge : ∀ j : Fin 16, s.keyEdge[j.val] = false)
    (hup : s.keyDown[k.val] = false) : (s.pressKey k).lowestEdge = some k := by
  refine State.lowestEdge_eq_some ?_ fun j hj => ?_
  · simp [State.pressKey, hup]
  · exact (getElem_set_of_ne (ne_of_lt hj) _).trans (hedge j)

end Sys2Proof.Machine

namespace Sys2Proof.Proofs

open Machine

/-- Settles O25, by whether there is an edge. -/
theorem waitingPollTakesLowestEdge : Obligations.WaitingPollTakesLowestEdge := by
  intro s hrun hdirty
  refine ⟨fun hedge => ?_, fun k hk hleast => ?_⟩
  · exact ⟨_, cycle_of_waiting_noEdge hrun hdirty hedge, rfl, rfl, keepsAllBut_stillWaiting s⟩
  · exact ⟨_, cycle_of_waiting_edge hrun hdirty (State.lowestEdge_eq_some hk hleast), s.awake_reg_waitX k,
      keepsRegsBut_awake s k, s.awake_edge k, s.awake_pc_toNat k, rfl, rfl, rfl, keepsAllBut_awake s k⟩

/-- Settles O28: a press begins a transaction, so it finds the same state whether or not there were polls before it, and
the poll after it takes the key it pressed. -/
theorem waitEndsOneStepAfterPress : Obligations.WaitEndsOneStepAfterPress := by
  intro p n key k s hrun hdirty hedge hkey hup
  obtain ⟨t, ht, hcases⟩ := transactAll_cycles_of_waiting_noEdge p n hrun hdirty hedge
  have hpress : keyDown key t = s.pressKey k := by
    obtain rfl | rfl := hcases <;> exact keyDown_of_code hkey _
  have hcycle := cycle_of_waiting_edge (s := s.pressKey k) hrun hdirty (State.pressKey_lowestEdge hedge hup)
  have hrest : transactAll p [.keyDown key, .cycle] t = .next ((s.pressKey k).awake k) := by
    simp only [transactAll, transact, bindNext, hpress, hcycle]
  refine ⟨t, ht, ?_, ?_, _, hrest, rfl, (s.pressKey k).awake_reg_waitX k, keepsRegsBut_awake (s.pressKey k) k,
    (s.pressKey k).awake_pc_toNat k, Vector.getElem_set_self k.isLt, fun j hj => getElem_set_of_ne hj _,
    (s.pressKey k).awake_edge k, rfl, rfl, ?_⟩
  · obtain rfl | rfl := hcases <;> rfl
  · obtain rfl | rfl := hcases <;> exact hrun
  · exact keepsAllBut_trans (keepsAllBut_mono (by simp) (keepsAllBut_pressKey s k))
      (keepsAllBut_mono (by simp) (keepsAllBut_awake (s.pressKey k) k))

end Sys2Proof.Proofs
end

section
/-! ### `Start` (70_reset_and_hazards.md R380-R382, 10_state.md R41) -/

namespace Sys2Proof.Machine

theorem blank_of_ge {a : Nat} (h : 80 ≤ a) : blank a = 0 :=
  List.getD_eq_default _ _ h

/-- What the loader leaves: the program at 0x200, the font below 0x050, and zeros (R381). -/
theorem Memory.read_load (font : Vector Byte 80) {program : List Byte} (h : program.length ≤ 3584) (a : Nat) :
    (Memory.load font program).read a =
      if 0x200 ≤ a ∧ a < 0x200 + program.length then program.getD (a - 0x200) 0
      else if a < 80 then font.toList.getD a 0 else blank a := by
  have hfont : (Memory.writeBytes [] 0x000 font.toList).wf = true := Memory.wf_writeBytes rfl (by simp)
  rw [Memory.load, Memory.read_writeBytes hfont (by omega), Memory.read_writeBytes rfl (by simp)]
  simp only [Vector.length_toList, Nat.zero_le, true_and, Nat.zero_add, Nat.sub_zero]
  rfl

theorem Memory.read_load_program (font : Vector Byte 80) {program : List Byte} (h : program.length ≤ 3584) {k : Nat}
    (hk : k < program.length) : (Memory.load font program).read (0x200 + k) = program.getD k 0 := by
  rw [Memory.read_load font h, if_pos (by omega), Nat.add_sub_cancel_left]

theorem Memory.read_load_font (font : Vector Byte 80) {program : List Byte} (h : program.length ≤ 3584) (k : Fin 80) :
    (Memory.load font program).read k.val = font[k.val] := by
  rw [Memory.read_load font h, if_neg (by omega), if_pos k.isLt]
  simp [List.getD_eq_getElem?_getD]

theorem Memory.read_load_zero (font : Vector Byte 80) {program : List Byte} (h : program.length ≤ 3584) {a : Nat}
    (hfont : 0x50 ≤ a) (hprogram : ¬(0x200 ≤ a ∧ a < 0x200 + program.length)) :
    (Memory.load font program).read a = 0 := by
  rw [Memory.read_load font h, if_neg hprogram, if_neg (by omega), blank_of_ge hfont]

/-- An unlisted byte reads as what the loader leaves of the default font, so loading it lists nothing (assumption 7). -/
theorem load_defaultFont : Memory.load defaultParams.font [] = [] := by decide

theorem freshSession_default : freshSession defaultParams [] 0 = State.reset := by
  rw [freshSession, load_defaultFont]
  rfl

theorem reset_reg (r : Reg) : State.reset.reg r = 0 := Vector.getElem_replicate r.isLt

theorem reset_stack (j : Fin 16) : State.reset.stack[j.val] = 0 := Vector.getElem_replicate j.isLt

theorem reset_keyDown (k : Fin 16) : State.reset.keyDown[k.val] = false := Vector.getElem_replicate k.isLt

theorem reset_keyEdge (k : Fin 16) : State.reset.keyEdge[k.val] = false := Vector.getElem_replicate k.isLt

theorem sessionInv_freshSession (p : Params) {program : List Byte} (seed : Nat) (h : program.length ≤ 3584) :
    SessionInv (freshSession p program seed) where
  memory := Memory.wf_load p.font program h
  index := (by decide : State.reset.idx.toNat < 0x1000)
  counter := (by decide : State.reset.pc.toNat < 0x1000)
  depth := (by decide : State.reset.sp.toNat ≤ 16)
  entries j := lt_of_eq_of_lt (congrArg BitVec.toNat (reset_stack j)) (by decide)
  clean := rfl
  noError _ := ⟨rfl, rfl⟩
  latched hrun := by cases hrun
  fatalOnly := (by decide : ErrCode.noError ≠ .invalidKeyCode)
  timeNonneg := le_refl 0
  stepDue := one_div_nonneg.mpr p.cpuHz_pos.le
  tickDue := (by decide +kernel : (0 : Rat) ≤ 1 / Config.timerHz)

theorem keepsAllBut_start_tooLong (s : State) :
    KeepsAllBut [.run, .errorLatch, .events, .stepResult] s (s.beginTransaction.raise .romTooLarge 0) :=
  keepsAllBut_trans (keepsAllBut_mono (by simp) (keepsAllBut_beginTransaction s))
    (keepsAllBut_mono (by simp) (keepsAllBut_raise s.beginTransaction .romTooLarge 0))

end Sys2Proof.Machine

namespace Sys2Proof.Proofs

open Machine

/-- Settles O48, by the length of the program. -/
theorem tooLongProgramIsNotLoaded : Obligations.TooLongProgramIsNotLoaded := by
  intro p program seed s
  refine ⟨fun hlen => ?_, fun hlen => ?_⟩
  · rw [start_tooLong p program seed s hlen]
    exact ⟨rfl, rfl, rfl, rfl, keepsAllBut_start_tooLong s⟩
  · rw [start_fits p program seed s hlen]
    exact ⟨rfl, rfl⟩

/-- Settles O49: memory by the laws of the loader, the rest by the fresh session's fields. -/
theorem startLoadsFontAndProgram : Obligations.StartLoadsFontAndProgram := by
  rintro p program seed s t hlen rfl
  rw [start_fits p program seed s hlen]
  exact ⟨Memory.read_load_font p.font hlen, fun a hfont ha => Memory.read_load_zero p.font hlen hfont (by omega),
    fun k hk => Memory.read_load_program p.font hlen hk,
    fun a ha _ => Memory.read_load_zero p.font hlen (by omega) (by omega),
    reset_reg, rfl, rfl, rfl, reset_stack, rfl, rfl, Framebuffer.pixel_clear, rfl, reset_keyDown, reset_keyEdge, rfl,
    rfl, rfl, rfl, rfl, rfl, rfl, rfl, rfl⟩

/-- Settles O50: a program that fits leaves the fresh session, in which nothing of the state before occurs. -/
theorem startForgetsEarlierState : Obligations.StartForgetsEarlierState := by
  refine ⟨fun p program seed s s' hlen => ?_, fun s => ?_⟩
  · rw [transact, transact, start_fits p program seed s hlen, start_fits p program seed s' hlen]
  · rw [transact, start_fits defaultParams [] 0 s (by decide), freshSession_default]

/-- Settles O55: a program that fits leaves a fresh session, whose memory the loader leaves canonical. -/
theorem startEstablishesSessionInv : Obligations.StartEstablishesSessionInv := by
  intro p program seed s hlen
  rw [start_fits p program seed s hlen]
  exact sessionInv_freshSession p seed hlen

/-- Settles O54: reset is a fresh session. -/
theorem sessionInvAtReset : Obligations.SessionInvAtReset := by
  rw [Obligations.SessionInvAtReset, ← freshSession_default]
  exact sessionInv_freshSession defaultParams 0 (by decide)

end Sys2Proof.Proofs
end

section
/-! ### Power-on: what is unspecified stays hidden until a `Start` replaces it (70_reset_and_hazards.md R383) -/

namespace Sys2Proof.Machine

/-- The host cannot tell the two states apart, and only an idle block may differ in the rest. -/
structure Alike (s s' : State) : Prop where
  events : s'.events = s.events
  stepResult : s'.stepResult = s.stepResult
  run : s'.run = s.run
  rest : s.idle = true ∨ s' = s

theorem Alike.refl (s : State) : Alike s s := ⟨rfl, rfl, rfl, .inr rfl⟩

theorem Alike.idle {s s' : State} (h : Alike s s') (hi : s.idle = true) : s'.idle = true := by
  rw [State.idle_iff, h.run]
  exact s.idle_iff.mp hi

theorem Alike.beginTransaction {s s' : State} (h : Alike s s') (hi : s.idle = true) :
    Alike s.beginTransaction s'.beginTransaction :=
  ⟨rfl, rfl, h.run, .inl hi⟩

theorem Alike.keyDown {s s' : State} (h : Alike s s') (hi : s.idle = true) (key : Byte) :
    Alike (keyDown key s) (keyDown key s') := by
  obtain ⟨k, hk⟩ | hno := code_cases key
  · rw [keyDown_of_code hk, keyDown_of_code hk]
    exact ⟨rfl, rfl, h.run, .inl hi⟩
  · rw [keyDown_of_noCode hno, keyDown_of_noCode hno]
    exact ⟨rfl, rfl, h.run, .inl hi⟩

theorem Alike.keyUp {s s' : State} (h : Alike s s') (hi : s.idle = true) (key : Byte) :
    Alike (keyUp key s) (keyUp key s') := by
  obtain ⟨k, hk⟩ | hno := code_cases key
  · rw [keyUp_of_code hk, keyUp_of_code hk]
    exact ⟨rfl, rfl, h.run, .inl hi⟩
  · rw [keyUp_of_noCode hno, keyUp_of_noCode hno]
    exact ⟨rfl, rfl, h.run, .inl hi⟩

/-- `Start` refuses the program or makes the states equal. -/
theorem Alike.start (p : Params) (program : List Byte) (seed : Nat) (s s' : State) :
    Alike (start p program seed s) (start p program seed s') := by
  obtain hlen | hlen := le_or_gt program.length 3584
  · rw [start_fits p program seed s hlen, start_fits p program seed s' hlen]
    exact .refl _
  · rw [start_tooLong p program seed s hlen, start_tooLong p program seed s' hlen]
    exact ⟨rfl, rfl, rfl, .inl rfl⟩

/-- No transaction tells alike states apart. -/
theorem Alike.transact {p : Params} {tr : Transaction} {s s' t : State} (h : Alike s s')
    (ht : transact p tr s = .next t) : ∃ t', transact p tr s' = .next t' ∧ Alike t t' := by
  obtain hi | rfl := h.rest
  · have hi' := h.idle hi
    cases tr with
    | start program seed => cases ht; exact ⟨_, rfl, .start p program seed s s'⟩
    | stop => cases ht; exact ⟨_, rfl, rfl, rfl, rfl, .inl rfl⟩
    | advance dt =>
      cases (advance_idle p dt hi).symm.trans ht
      exact ⟨_, advance_idle p dt hi', h.beginTransaction hi⟩
    | cycle =>
      cases (cycle_of_idle hi).symm.trans ht
      exact ⟨_, cycle_of_idle hi', h.beginTransaction hi⟩
    | tick =>
      cases ht
      refine ⟨_, rfl, ?_⟩
      rw [tick_of_idle hi, tick_of_idle hi']
      exact h.beginTransaction hi
    | keyDown key => cases ht; exact ⟨_, rfl, h.keyDown hi key⟩
    | keyUp key => cases ht; exact ⟨_, rfl, h.keyUp hi key⟩
  · exact ⟨t, ht, .refl t⟩

theorem Alike.transactAll {p : Params} {trs : List Transaction} {s s' t : State} (h : Alike s s')
    (ht : transactAll p trs s = .next t) : ∃ t', transactAll p trs s' = .next t' ∧ Alike t t' := by
  induction trs generalizing s s' with
  | nil => cases ht; exact ⟨s', rfl, h⟩
  | cons tr rest ih =>
    obtain ⟨a, ha, hrest⟩ := bindNext_next ht
    obtain ⟨a', ha', halike⟩ := h.transact ha
    obtain ⟨t', ht', hout⟩ := ih halike hrest
    refine ⟨t', ?_, hout⟩
    rw [Machine.transactAll, ha']
    exact ht'

theorem alike_powerOn (rest rest' : State) : Alike rest.powerOn rest'.powerOn := ⟨rfl, rfl, rfl, .inl rfl⟩

theorem keepsAllBut_powerOn (rest : State) : KeepsAllBut [.run, .events, .stepResult] rest rest.powerOn := by
  intro p hp
  cases p with
  | run | events | stepResult => simp at hp
  | _ => simp [Part.same]

end Sys2Proof.Machine

namespace Sys2Proof.Proofs

open Machine

/-- Settles O59: power-on states are alike, and no transaction tells alike states apart. -/
theorem powerOnShowsInNoEventOrResult : Obligations.PowerOnShowsInNoEventOrResult := by
  refine ⟨fun rest => ⟨rfl, keepsAllBut_powerOn rest⟩, fun p dt rest => transact_of_idle p dt rfl,
    fun p program seed rest hlen => congrArg Host.Outcome.next (start_fits p program seed _ hlen),
    fun p trs rest rest' t ht => ?_⟩
  obtain ⟨t', ht', halike⟩ := (alike_powerOn rest rest').transactAll ht
  exact ⟨t', ht', halike.events, halike.stepResult, halike.run⟩

end Sys2Proof.Proofs
end

section
/-! ### Every step keeps the invariant of a session (10_state.md R23-R27, R34, R36, R37) -/

namespace Sys2Proof.Machine

theorem after_lt (a : Word) : after a < 0x1000 := Nat.mod_lt _ (by decide)

theorem afterStore_mem_wf {s : State} {bytes : List Byte} (h : s.mem.wf = true)
    (hlen : s.idx.toNat + bytes.length ≤ 0x1000) : (s.afterStore bytes).mem.wf = true :=
  Memory.wf_writeBytes h hlen

/-- Every entry after a push is one of before, or the entry pushed. -/
theorem afterCall_entries_lt {s : State} (h : ∀ j : Fin 16, s.stack[j.val].toNat < 0x1000) (hlt : s.sp.toNat < 16)
    (nnn : Addr) (j : Fin 16) : (s.afterCall hlt nnn).stack[j.val].toNat < 0x1000 := by
  rw [State.afterCall_stack_getElem]
  split
  · exact lt_of_eq_of_lt (nextWord_toNat s.pc) (after_lt s.pc)
  · exact h j

end Sys2Proof.Machine

namespace Sys2Proof

open Machine

/-- Memory stays canonical: a store runs up to 0xFFF at most, and nothing else writes memory. -/
theorem Instr.Completes.mem_wf {i : Instr} {s t : State} (h : i.Completes s t) (hs : s.mem.wf = true) :
    t.mem.wf = true := by
  cases i with
  | sys => exact h.elim
  | ret =>
    obtain ⟨-, hlt, rfl⟩ := h
    exact hs
  | call nnn =>
    obtain ⟨hlt, rfl⟩ := h
    exact hs
  | ldBVx x =>
    obtain ⟨hle, rfl⟩ := h
    exact afterStore_mem_wf hs (Nat.succ_le_succ hle)
  | storeRegs x =>
    obtain ⟨hle, rfl⟩ := h
    exact afterStore_mem_wf hs (by rw [State.length_regsUpTo]; omega)
  | loadRegs x =>
    cases h
    rw [State.afterLoad, State.setRegs_eq]
    exact hs
  | seImm | sneImm | seReg | sneReg | skp | sknp =>
    cases h
    rw [State.skipIf_mem]
    exact hs
  | _ => cases h; exact hs

/-- `PC` stays below 0x1000: it is the next word, a target, an entry of the stack, or held where it was. -/
theorem Instr.Completes.pc_lt {i : Instr} {s t : State} (h : i.Completes s t) (hpc : s.pc.toNat < 0x1000)
    (hentries : ∀ j : Fin 16, s.stack[j.val].toNat < 0x1000) : t.pc.toNat < 0x1000 := by
  cases i with
  | sys => exact h.elim
  | ret =>
    obtain ⟨-, hlt, rfl⟩ := h
    exact hentries ⟨_, hlt⟩
  | call nnn =>
    obtain ⟨hlt, rfl⟩ := h
    exact lt_of_eq_of_lt (State.afterCall_pc_toNat hlt nnn) nnn.isLt
  | jp nnn =>
    cases h
    exact lt_of_eq_of_lt (addrOperand_toNat nnn) nnn.isLt
  | jpV0 nnn =>
    cases h
    exact lt_of_eq_of_lt (offsetTarget_toNat nnn _) (Nat.mod_lt _ (by decide))
  | seImm | sneImm | seReg | sneReg | skp | sknp =>
    cases h
    rw [State.advancePc_skipIf_pc_toNat]
    exact Nat.mod_lt _ (by decide)
  | ldVxK => cases h; exact hpc
  | ldBVx | storeRegs =>
    obtain ⟨-, rfl⟩ := h
    exact lt_of_eq_of_lt (State.afterStore_pc_toNat s _) (after_lt s.pc)
  | loadRegs x =>
    cases h
    exact lt_of_eq_of_lt (State.afterLoad_pc_toNat s x) (after_lt s.pc)
  | _ =>
    cases h
    exact lt_of_eq_of_lt s.advancePc_pc_toNat (after_lt s.pc)

/-- The stack keeps its bounds: `CALL` counts `SP` up to 16 at most, and pushes the address of a next word. -/
theorem Instr.Completes.callStack_bounds {i : Instr} {s t : State} (h : i.Completes s t) (hsp : s.sp.toNat ≤ 16)
    (hentries : ∀ j : Fin 16, s.stack[j.val].toNat < 0x1000) :
    t.sp.toNat ≤ 16 ∧ ∀ j : Fin 16, t.stack[j.val].toNat < 0x1000 := by
  cases i with
  | ret =>
    obtain ⟨hne, hlt, rfl⟩ := h
    have hpop := State.popEntry_sp_toNat hne hlt
    exact ⟨by omega, hentries⟩
  | call nnn =>
    obtain ⟨hlt, rfl⟩ := h
    exact ⟨by rw [State.afterCall_sp_toNat]; omega, afterCall_entries_lt hentries hlt nnn⟩
  | _ =>
    obtain ⟨hsame, hstack⟩ : Part.callStack.same s t := h.keepsAllBut .callStack (by simp [Instr.writes])
    rw [hsame, hstack]
    exact ⟨hsp, hentries⟩

end Sys2Proof

namespace Sys2Proof.Machine

/-- `I` stays below 0x1000, since what is written to it is. -/
theorem exec_idx_lt {i : Instr} {s t : State} (h : exec i s = .next t) (hs : s.idx.toNat < 0x1000) :
    t.idx.toNat < 0x1000 := by
  by_cases hsame : t.idx = s.idx
  · exact hsame ▸ hs
  · exact (Proofs.onlyIndexInstructionsWriteI i s t h hsame).1

/-- An instruction that completes keeps the invariant but for `DIRTY`, which the end of the step clears. -/
theorem sessionInv_of_completes {i : Instr} {s t : State} (h : i.Completes s t) (hexec : exec i s = .next t)
    (hs : SessionInv s) (hrun : s.run = .running) : SessionInv { t with dirty := false } := by
  obtain ⟨hcode, hinfo⟩ : Part.errorLatch.same s t := h.keepsAllBut .errorLatch (not_writes_errorLatch i)
  obtain ⟨hnow, hstep, htick⟩ : Part.times.same s t := h.keepsAllBut .times (not_writes_times i)
  obtain ⟨hdepth, hentries⟩ := h.callStack_bounds hs.depth hs.entries
  exact {
    memory := h.mem_wf hs.memory
    index := exec_idx_lt (t := t) hexec hs.index
    counter := h.pc_lt hs.counter hs.entries
    depth := hdepth
    entries := hentries
    clean := rfl
    noError := fun _ => ⟨hcode.trans (hs.noError (.inl hrun)).1, hinfo.trans (hs.noError (.inl hrun)).2⟩
    latched := fun hhalt => absurd hhalt (h.run_ne_halted (by simp [hrun]))
    fatalOnly := fun e => hs.fatalOnly (hcode.symm.trans e)
    timeNonneg := hnow ▸ hs.timeNonneg
    stepDue := hnow ▸ hstep ▸ hs.stepDue
    tickDue := hnow ▸ htick ▸ hs.tickDue }

theorem sessionInv_raise {s : State} {code : ErrCode} (info : Word) (hs : SessionInv s) (hcode : code.Fatal) :
    SessionInv (s.raise code info) :=
  { hs with
    noError := fun hrun => by cases hrun <;> contradiction
    latched := fun _ => hcode.1
    fatalOnly := hcode.2 }

/-- A poll takes the lowest edge and runs on, or leaves all as it was. -/
theorem sessionInv_pollKeys {s : State} (hs : SessionInv s) (hrun : s.run = .waiting) : SessionInv s.pollKeys := by
  cases hedge : s.lowestEdge with
  | none => rwa [State.pollKeys, hedge]
  | some k =>
    rw [State.pollKeys, hedge]
    exact { hs with
      counter := lt_of_eq_of_lt (nextWord_toNat s.pc) (after_lt s.pc)
      noError := fun _ => hs.noError (.inr hrun)
      latched := fun hhalt => by cases hhalt }

/-- The end of a step changes `DIRTY` and the outputs alone; a raise leaves `DIRTY` as it was, and so must find it
clear. -/
theorem sessionInv_endStep {s : State} (hs : SessionInv { s with dirty := false })
    (hdirty : s.run = .halted → s.dirty = false) : SessionInv s.endStep where
  memory := by simpa using hs.memory
  index := by simpa using hs.index
  counter := by simpa using hs.counter
  depth := by simpa using hs.depth
  entries := by simpa using hs.entries
  clean := by
    rw [State.endStep_dirty, Bool.and_eq_false_imp]
    intro hd
    by_contra hhalt
    simp_all
  noError := by simpa using hs.noError
  latched := by simpa using hs.latched
  fatalOnly := by simpa using hs.fatalOnly
  timeNonneg := by simpa using hs.timeNonneg
  stepDue := by simpa using hs.stepDue
  tickDue := by simpa using hs.tickDue

/-- The invariant reads neither `DIRTY`, where it is clear, nor the outputs. -/
theorem sessionInv_endStep_of_clean {s : State} (hs : SessionInv s) : SessionInv s.endStep :=
  sessionInv_endStep { hs with clean := rfl } fun _ => hs.clean

theorem stepOnce_keeps_sessionInv {s t : State} (hs : SessionInv s) (h : stepOnce s = .next t) : SessionInv t := by
  cases hrun : s.run with
  | stopped | halted =>
    cases (stepOnce_idle (s.idle_iff.mpr (by simp [hrun]))).symm.trans h
    exact hs
  | waiting =>
    cases (stepOnce_waiting hrun).symm.trans h
    exact sessionInv_endStep_of_clean (sessionInv_pollKeys hs hrun)
  | running =>
    obtain ⟨code, info, hfatal, rfl⟩ | ⟨i, u, -, -, hexec, hdone, rfl⟩ := stepOnce_running_cases hrun h
    · exact sessionInv_endStep_of_clean (sessionInv_raise info hs hfatal)
    · exact sessionInv_endStep (sessionInv_of_completes hdone hexec hs hrun)
        fun hhalt => absurd hhalt (hdone.run_ne_halted (by simp [hrun]))

theorem sessionInv_beginTransaction {s : State} (hs : SessionInv s) : SessionInv s.beginTransaction :=
  { hs with }

/-- With `SP` a number of entries no step stops the model. -/
theorem stepOnce_total {s : State} (hsp : s.sp.toNat ≤ 16) : ∃ t, stepOnce s = .next t := by
  cases hrun : s.run with
  | stopped | halted => exact ⟨s, stepOnce_idle (s.idle_iff.mpr (by simp [hrun]))⟩
  | waiting => exact ⟨_, stepOnce_waiting hrun⟩
  | running =>
    rw [stepOnce_running hrun]
    obtain ⟨-, he⟩ | ⟨-, -, he⟩ | ⟨-, i, -, he⟩ := instructionStep_cases s
    · exact ⟨_, congrArg (mapNext · State.endStep) he⟩
    · exact ⟨_, congrArg (mapNext · State.endStep) he⟩
    · obtain ⟨u, hu⟩ := exec_total i hsp
      exact ⟨u.endStep, by rw [he, hu]; rfl⟩

end Sys2Proof.Machine

namespace Sys2Proof.Proofs

open Machine

/-- Settles O56, by the run state the step finds (`stepOnce_keeps_sessionInv`); the invariant reads no output of the
transaction before. -/
theorem stepKeepsSessionInv : Obligations.StepKeepsSessionInv :=
  fun _ _ hs h => stepOnce_keeps_sessionInv (sessionInv_beginTransaction hs) h

end Sys2Proof.Proofs
end

section
/-! ### How many events are due (60_exceptions.md R320) -/

namespace Sys2Proof.Machine

theorem eventsDue_of_lt {target due rate : Rat} (hrate : 0 < rate) (h : target < due) :
    eventsDue target due rate = 0 := by
  have hneg : ⌊(target - due) * rate⌋ < 0 :=
    Int.floor_lt.mpr (by exact_mod_cast mul_neg_of_neg_of_pos (sub_neg.mpr h) hrate)
  exact Int.toNat_of_nonpos (Int.add_one_le_iff.mpr hneg)

/-- The event at `due` is one of those that are due, and the others are those due from one period later on. -/
theorem eventsDue_of_le {target due rate : Rat} (hrate : 0 < rate) (h : due ≤ target) :
    eventsDue target due rate = eventsDue target (due + 1 / rate) rate + 1 := by
  have hfloor : 0 ≤ ⌊(target - due) * rate⌋ := Int.floor_nonneg.mpr (mul_nonneg (sub_nonneg.mpr h) hrate.le)
  have hnext : (target - (due + 1 / rate)) * rate = (target - due) * rate - 1 := by
    field_simp
    ring
  have hlater : ⌊(target - (due + 1 / rate)) * rate⌋ = ⌊(target - due) * rate⌋ - 1 := by
    rw [hnext, Int.floor_sub_one]
  change (⌊(target - due) * rate⌋ + 1).toNat = (⌊(target - (due + 1 / rate)) * rate⌋ + 1).toNat + 1
  omega

/-- From a first event one period after the start, as many are due as the rate gives by the target. -/
theorem eventsDue_first {target rate : Rat} (hrate : 0 < rate) (h : 0 ≤ target) :
    (eventsDue target (1 / rate) rate : Int) = (target * rate).floor := by
  have hfloor : 0 ≤ ⌊target * rate⌋ := Int.floor_nonneg.mpr (mul_nonneg h hrate.le)
  have hnext : (target - 1 / rate) * rate = target * rate - 1 := by
    field_simp
  have hlater : ⌊(target - 1 / rate) * rate⌋ = ⌊target * rate⌋ - 1 := by rw [hnext, Int.floor_sub_one]
  change (((⌊(target - 1 / rate) * rate⌋ + 1).toNat : Nat) : Int) = ⌊target * rate⌋
  omega

theorem timerHz_pos : 0 < Config.timerHz := by decide +kernel

end Sys2Proof.Machine
end

section
/-! ### The scheduler without its bound: the loop of R320 as it is written (60_exceptions.md R320, assumption 12) -/

namespace Sys2Proof.Machine

/-- The steps and ticks due by the target, the bound that `advance` gives its loop. -/
def State.dueCount (s : State) (p : Params) (target : Rat) : Nat :=
  eventsDue target s.tStep p.cpuHz + eventsDue target s.tTick Config.timerHz

/-- The loop of R320 up to a target, with as much fuel as it needs. -/
def advanceRun (p : Params) (target : Rat) (s : State) : Host.Outcome State Fault Refusal :=
  advanceLoop p target (s.dueCount p target) s

theorem stepOnce_times {s t : State} (h : stepOnce s = .next t) : Part.times.same s t := by
  cases hrun : s.run with
  | stopped | halted =>
    cases (stepOnce_idle (s.idle_iff.mpr (by simp [hrun]))).symm.trans h
    exact ⟨rfl, rfl, rfl⟩
  | waiting =>
    cases (stepOnce_waiting hrun).symm.trans h
    simp [Part.same]
  | running =>
    obtain ⟨code, info, -, rfl⟩ | ⟨i, u, -, -, -, hdone, rfl⟩ := stepOnce_running_cases hrun h
    · exact raise_endStep_frame s code info .times (by decide)
    · have hkeep := hdone.keepsAllBut .times (not_writes_times i)
      simpa [Part.same] using hkeep

/-- A due step happens at its due time and puts the next one a period later; it leaves the tick where it was. -/
theorem dueStep_times {p : Params} {s t : State} (h : dueStep p s = .next t) :
    t.tNow = s.tStep ∧ t.tStep = s.tStep + 1 / p.cpuHz ∧ t.tTick = s.tTick := by
  obtain ⟨u, hu, rfl⟩ := mapNext_next h
  obtain ⟨hnow, hstep, htick⟩ : Part.times.same { s with tNow := s.tStep } u := stepOnce_times hu
  exact ⟨hnow, congrArg (· + 1 / p.cpuHz) hstep, htick⟩

theorem dueTick_times (s : State) :
    (dueTick s).tNow = s.tTick ∧ (dueTick s).tStep = s.tStep ∧ (dueTick s).tTick = s.tTick + 1 / Config.timerHz :=
  ⟨State.timerTick_tNow _, State.timerTick_tStep _, rfl⟩

theorem dueStep_dueCount {p : Params} {target : Rat} {s t : State} (h : dueStep p s = .next t)
    (hdue : s.tStep ≤ target) : s.dueCount p target = t.dueCount p target + 1 := by
  obtain ⟨-, hstep, htick⟩ := dueStep_times h
  rw [State.dueCount, State.dueCount, hstep, htick, eventsDue_of_le p.cpuHz_pos hdue, Nat.add_right_comm]

theorem dueTick_dueCount (p : Params) {target : Rat} {s : State} (hdue : s.tTick ≤ target) :
    s.dueCount p target = (dueTick s).dueCount p target + 1 := by
  obtain ⟨-, hstep, htick⟩ := dueTick_times s
  rw [State.dueCount, State.dueCount, hstep, htick, eventsDue_of_le timerHz_pos hdue, Nat.add_assoc]

section
variable (p : Params) {target : Rat} {s : State}

theorem advanceRun_idle (target : Rat) (hi : s.idle = true) : advanceRun p target s = .next s :=
  advanceLoop_idle p target _ hi

theorem advanceRun_nothingDue (hstep : target < s.tStep) (htick : target < s.tTick) :
    advanceRun p target s = .next s :=
  advanceLoop_nothingDue p target _ hstep htick

/-- The loop goes around once for a step that is due no later than the next tick, and has fuel for the rest. -/
theorem advanceRun_step (hi : s.idle = false) (hdue : s.tStep ≤ target) (hfirst : s.tStep ≤ s.tTick) :
    advanceRun p target s = bindNext (dueStep p s) (advanceRun p target) := by
  have hfuel : s.dueCount p target =
      eventsDue target (s.tStep + 1 / p.cpuHz) p.cpuHz + eventsDue target s.tTick Config.timerHz + 1 := by
    rw [State.dueCount, eventsDue_of_le p.cpuHz_pos hdue, Nat.add_right_comm]
  rw [advanceRun, hfuel, advanceLoop_step p target _ hi hdue hfirst]
  cases hs : dueStep p s with
  | next t =>
    obtain ⟨-, hstep, htick⟩ := dueStep_times hs
    rw [← hstep, ← htick]
    rfl
  | fault r => rfl
  | refused r => rfl

/-- The loop goes around once for a tick that is due before the next step, and has fuel for the rest. -/
theorem advanceRun_tick (hi : s.idle = false) (hdue : s.tTick ≤ target) (hfirst : s.tTick < s.tStep) :
    advanceRun p target s = advanceRun p target (dueTick s) := by
  rw [advanceRun, dueTick_dueCount p hdue, advanceLoop_tick p target _ hi hdue hfirst, advanceRun]

end

/-- What is due next in a block that is not idle: nothing by the target, a step, or a tick. -/
theorem due_cases (target : Rat) (s : State) :
    (target < s.tStep ∧ target < s.tTick) ∨ (s.tStep ≤ target ∧ s.tStep ≤ s.tTick) ∨
      (s.tTick ≤ target ∧ s.tTick < s.tStep) := by
  obtain hstep | hstep := lt_or_ge target s.tStep
  · obtain htick | htick := lt_or_ge target s.tTick
    · exact .inl ⟨hstep, htick⟩
    · exact .inr (.inr ⟨htick, lt_of_le_of_lt htick hstep⟩)
  · obtain hfirst | hfirst := le_or_gt s.tStep s.tTick
    · exact .inr (.inl ⟨hstep, hfirst⟩)
    · exact .inr (.inr ⟨le_trans hfirst.le hstep, hfirst⟩)

/-- Induction along the loop of R320, which ends since each step and each tick is one of those due. -/
theorem advanceRun_induction (p : Params) (target : Rat) {motive : State → Prop}
    (idle : ∀ s : State, s.idle = true → motive s)
    (nothingDue : ∀ s : State, s.idle = false → target < s.tStep → target < s.tTick → motive s)
    (step : ∀ s : State, s.idle = false → s.tStep ≤ target → s.tStep ≤ s.tTick →
      (∀ a, dueStep p s = .next a → motive a) → motive s)
    (tick : ∀ s : State, s.idle = false → s.tTick ≤ target → s.tTick < s.tStep → motive (dueTick s) → motive s)
    (s : State) : motive s := by
  induction hn : s.dueCount p target generalizing s with
  | zero =>
    cases hi : s.idle with
    | true => exact idle s hi
    | false =>
      obtain ⟨hstep, htick⟩ | ⟨hdue, -⟩ | ⟨hdue, -⟩ := due_cases target s
      · exact nothingDue s hi hstep htick
      · rw [State.dueCount, eventsDue_of_le p.cpuHz_pos hdue] at hn
        omega
      · rw [dueTick_dueCount p hdue] at hn
        omega
  | succ n ih =>
    cases hi : s.idle with
    | true => exact idle s hi
    | false =>
      obtain ⟨hstep, htick⟩ | ⟨hdue, hfirst⟩ | ⟨hdue, hfirst⟩ := due_cases target s
      · exact nothingDue s hi hstep htick
      · exact step s hi hdue hfirst fun a ha => ih a (by have := dueStep_dueCount ha hdue; omega)
      · exact tick s hi hdue hfirst (ih _ (by have := dueTick_dueCount p hdue; omega))

theorem endAdvance_idle (target : Rat) {s : State} (h : s.idle = true) :
    endAdvance target s = { s with stepResult := none } := if_pos h

theorem endAdvance_not_idle (target : Rat) {s : State} (h : s.idle = false) :
    endAdvance target s = { s with tNow := target, stepResult := none } :=
  if_neg (Bool.not_eq_true _ ▸ h)

/-- `Advance` in every run state: the loop from the beginning of the transaction, and its end. -/
theorem advance_eq (p : Params) (dt : Duration) (s : State) :
    advance p dt s =
      mapNext (advanceRun p (s.tNow + dt.seconds) s.beginTransaction) (endAdvance (s.tNow + dt.seconds)) := by
  cases hi : s.idle with
  | true =>
    rw [advance_idle p dt hi, advanceRun_idle p _ (s := s.beginTransaction) hi, mapNext,
      endAdvance_idle _ (s := s.beginTransaction) hi]
    rfl
  | false =>
    rw [advance, if_neg (Bool.not_eq_true _ ▸ hi)]
    rfl

/-! ### The invariant along the loop and every transaction -/

theorem dueStep_keeps_sessionInv (p : Params) {s : State} (hs : SessionInv s) (hfirst : s.tStep ≤ s.tTick) :
    ∃ t, dueStep p s = .next t ∧ SessionInv t := by
  have hat : SessionInv { s with tNow := s.tStep } :=
    { hs with timeNonneg := le_trans hs.timeNonneg hs.stepDue, stepDue := le_refl s.tStep, tickDue := hfirst }
  obtain ⟨u, hu⟩ := stepOnce_total (s := { s with tNow := s.tStep }) hs.depth
  have hkeep := stepOnce_keeps_sessionInv hat hu
  refine ⟨_, congrArg (mapNext · _) hu, { hkeep with stepDue := ?_ }⟩
  exact le_trans hkeep.stepDue (le_add_of_nonneg_right (one_div_nonneg.mpr p.cpuHz_pos.le))

theorem sessionInv_timerTick {s : State} (hs : SessionInv s) : SessionInv s.timerTick where
  memory := by simpa using hs.memory
  index := by simpa using hs.index
  counter := by simpa using hs.counter
  depth := by simpa using hs.depth
  entries := by simpa using hs.entries
  clean := by simpa using hs.clean
  noError := by simpa using hs.noError
  latched := by simpa using hs.latched
  fatalOnly := by simpa using hs.fatalOnly
  timeNonneg := by simpa using hs.timeNonneg
  stepDue := by simpa using hs.stepDue
  tickDue := by simpa using hs.tickDue

theorem dueTick_keeps_sessionInv {s : State} (hs : SessionInv s) (hfirst : s.tTick < s.tStep) :
    SessionInv (dueTick s) := by
  have hat : SessionInv { s with tNow := s.tTick } :=
    { hs with timeNonneg := le_trans hs.timeNonneg hs.tickDue, stepDue := hfirst.le, tickDue := le_refl s.tTick }
  have hkeep := sessionInv_timerTick hat
  obtain ⟨hnow, -, htick⟩ := dueTick_times s
  refine { hkeep with tickDue := ?_ }
  rw [hnow, htick]
  exact le_add_of_nonneg_right (one_div_nonneg.mpr timerHz_pos.le)

/-- The loop ends in an idle block, or with nothing due by the target. -/
theorem advanceRun_end {p : Params} {target : Rat} {s t : State} (h : advanceRun p target s = .next t) :
    t.idle = true ∨ (target < t.tStep ∧ target < t.tTick) := by
  induction s using advanceRun_induction p target with
  | idle s hi =>
    cases (advanceRun_idle p target hi).symm.trans h
    exact .inl hi
  | nothingDue s hi hstep htick =>
    cases (advanceRun_nothingDue p hstep htick).symm.trans h
    exact .inr ⟨hstep, htick⟩
  | step s hi hdue hfirst ih =>
    rw [advanceRun_step p hi hdue hfirst] at h
    obtain ⟨a, ha, hrest⟩ := bindNext_next h
    exact ih a ha hrest
  | tick s hi hdue hfirst ih =>
    rw [advanceRun_tick p hi hdue hfirst] at h
    exact ih h

theorem advanceRun_keeps_sessionInv (p : Params) (target : Rat) {s : State} (hs : SessionInv s) :
    ∃ t, advanceRun p target s = .next t ∧ SessionInv t := by
  induction s using advanceRun_induction p target with
  | idle s hi => exact ⟨s, advanceRun_idle p target hi, hs⟩
  | nothingDue s hi hstep htick => exact ⟨s, advanceRun_nothingDue p hstep htick, hs⟩
  | step s hi hdue hfirst ih =>
    obtain ⟨a, ha, hkeep⟩ := dueStep_keeps_sessionInv p hs hfirst
    obtain ⟨t, ht, hend⟩ := ih a ha hkeep
    exact ⟨t, by rw [advanceRun_step p hi hdue hfirst, ha]; exact ht, hend⟩
  | tick s hi hdue hfirst ih =>
    obtain ⟨t, ht, hend⟩ := ih (dueTick_keeps_sessionInv hs hfirst)
    exact ⟨t, by rw [advanceRun_tick p hi hdue hfirst]; exact ht, hend⟩

/-- The end of an advance moves `T_NOW` to the target where nothing due by it is left. -/
theorem endAdvance_keeps_sessionInv {target : Rat} {s : State} (hs : SessionInv s) (htarget : 0 ≤ target)
    (hend : s.idle = true ∨ (target < s.tStep ∧ target < s.tTick)) : SessionInv (endAdvance target s) := by
  cases hi : s.idle with
  | true =>
    rw [endAdvance_idle target hi]
    exact { hs with }
  | false =>
    obtain ⟨hstep, htick⟩ := hend.resolve_left (by simp [hi])
    rw [endAdvance_not_idle target hi]
    exact { hs with timeNonneg := htarget, stepDue := hstep.le, tickDue := htick.le }

theorem advance_keeps_sessionInv (p : Params) (dt : Duration) {s : State} (hs : SessionInv s) :
    ∃ t, advance p dt s = .next t ∧ SessionInv t := by
  obtain ⟨a, ha, hkeep⟩ :=
    advanceRun_keeps_sessionInv p (s.tNow + dt.seconds) (sessionInv_beginTransaction hs)
  refine ⟨_, by rw [advance_eq, ha]; rfl, ?_⟩
  exact endAdvance_keeps_sessionInv hkeep (add_nonneg hs.timeNonneg dt.nonneg) (advanceRun_end ha)

theorem start_keeps_sessionInv (p : Params) (program : List Byte) (seed : Nat) {s : State} (hs : SessionInv s) :
    SessionInv (start p program seed s) := by
  obtain hlen | hlen := le_or_gt program.length 3584
  · rw [start_fits p program seed s hlen]
    exact sessionInv_freshSession p seed hlen
  · rw [start_tooLong p program seed s hlen]
    exact sessionInv_raise 0 (sessionInv_beginTransaction hs) ⟨by decide, by decide⟩

theorem tick_keeps_sessionInv {s : State} (hs : SessionInv s) : SessionInv (tick s) := by
  cases hi : s.idle with
  | true =>
    rw [tick_of_idle hi]
    exact sessionInv_beginTransaction hs
  | false =>
    rw [tick_of_not_idle hi]
    exact sessionInv_timerTick (sessionInv_beginTransaction hs)

theorem keyDown_keeps_sessionInv (key : Byte) {s : State} (hs : SessionInv s) : SessionInv (keyDown key s) := by
  obtain ⟨k, hk⟩ | hno := code_cases key
  · rw [keyDown_of_code hk]
    exact { hs with }
  · rw [keyDown_of_noCode hno]
    exact { hs with }

theorem keyUp_keeps_sessionInv (key : Byte) {s : State} (hs : SessionInv s) : SessionInv (keyUp key s) := by
  obtain ⟨k, hk⟩ | hno := code_cases key
  · rw [keyUp_of_code hk]
    exact { hs with }
  · rw [keyUp_of_noCode hno]
    exact { hs with }

/-- `Stop` leaves neither a running block nor a halted one. -/
theorem stop_keeps_sessionInv {s : State} (hs : SessionInv s) : SessionInv (stop s) :=
  { hs with
    noError := fun hrun => by cases hrun <;> contradiction
    latched := fun hhalt => by cases hhalt }

/-- Every transaction completes and keeps the invariant. -/
theorem transact_keeps_sessionInv (p : Params) (tr : Transaction) {s : State} (hs : SessionInv s) :
    ∃ t, transact p tr s = .next t ∧ SessionInv t := by
  cases tr with
  | start program seed => exact ⟨_, rfl, start_keeps_sessionInv p program seed hs⟩
  | stop => exact ⟨_, rfl, stop_keeps_sessionInv hs⟩
  | advance dt => exact advance_keeps_sessionInv p dt hs
  | cycle =>
    have hbegin := sessionInv_beginTransaction hs
    obtain ⟨t, ht⟩ := stepOnce_total hbegin.depth
    exact ⟨t, ht, stepOnce_keeps_sessionInv hbegin ht⟩
  | tick => exact ⟨_, rfl, tick_keeps_sessionInv hs⟩
  | keyDown key => exact ⟨_, rfl, keyDown_keeps_sessionInv key hs⟩
  | keyUp key => exact ⟨_, rfl, keyUp_keeps_sessionInv key hs⟩

/-- Every sequence of transactions completes and keeps the invariant. -/
theorem transactAll_keeps_sessionInv (p : Params) (trs : List Transaction) {s : State} (hs : SessionInv s) :
    ∃ t, transactAll p trs s = .next t ∧ SessionInv t := by
  induction trs generalizing s with
  | nil => exact ⟨s, rfl, hs⟩
  | cons tr rest ih =>
    obtain ⟨a, ha, hkeep⟩ := transact_keeps_sessionInv p tr hs
    obtain ⟨t, ht, hend⟩ := ih hkeep
    exact ⟨t, by rw [transactAll, ha]; exact ht, hend⟩

end Sys2Proof.Machine

namespace Sys2Proof.Proofs

open Machine

/-- Settles O57: every sequence of transactions has one answer, and it meets the invariant. -/
theorem transactionsKeepSessionInv : Obligations.TransactionsKeepSessionInv := by
  intro p trs s t hs h
  obtain ⟨t', ht', hkeep⟩ := transactAll_keeps_sessionInv p trs hs
  cases ht'.symm.trans h
  exact hkeep

/-- Settles O58: a fault needs `SP` above 16, which the invariant rules out along every sequence. -/
theorem nothingStopsTheBlock : Obligations.NothingStopsTheBlock := by
  refine ⟨fun i s hsp => exec_total i hsp, fun p trs s hs => ?_⟩
  obtain ⟨t, ht, -⟩ := transactAll_keeps_sessionInv p trs hs
  exact ⟨t, ht⟩

end Sys2Proof.Proofs
end

section
/-! ### Outputs already emitted change nothing of what follows (60_exceptions.md R340, assumption 3) -/

namespace Sys2Proof.Machine

/-- The state with other outputs: events emitted before its own, and another step result. -/
def State.withOutputs (s : State) (earlier : List Event) (r : Option StepResult) : State :=
  { s with events := earlier ++ s.events, stepResult := r }

/-- The state with events emitted before its own. -/
def State.addEvents (s : State) (earlier : List Event) : State := { s with events := earlier ++ s.events }

theorem State.raise_withOutputs (s : State) (earlier : List Event) (r : Option StepResult) (code : ErrCode)
    (info : Word) : (s.withOutputs earlier r).raise code info = (s.raise code info).withOutputs earlier r := by
  simp [State.raise, State.emit, State.withOutputs]

theorem State.skipIf_withOutputs (s : State) (earlier : List Event) (r : Option StepResult) (c : Bool) :
    (s.withOutputs earlier r).skipIf c = (s.skipIf c).withOutputs earlier r := by
  cases c <;> rfl

theorem State.setRegs_withOutputs (s : State) (earlier : List Event) (r : Option StepResult) (first : Nat)
    (bytes : List Byte) :
    (s.withOutputs earlier r).setRegs first bytes = (s.setRegs first bytes).withOutputs earlier r := by
  induction bytes generalizing s first with
  | nil => rfl
  | cons b rest ih =>
    simp only [State.setRegs]
    split
    · exact ih (s.setReg ⟨first, ‹_›⟩ b) (first + 1)
    · exact ih s (first + 1)

/-- No instruction reads the outputs; a raise appends to the events whatever they are. -/
theorem exec_withOutputs (i : Instr) (s : State) (earlier : List Event) (r : Option StepResult) :
    exec i (s.withOutputs earlier r) = mapNext (exec i s) (·.withOutputs earlier r) := by
  have hraise {code : ErrCode} {info : Word} (h : exec i s = .next (s.raise code info))
      (h' : exec i (s.withOutputs earlier r) = .next ((s.withOutputs earlier r).raise code info)) :
      exec i (s.withOutputs earlier r) = mapNext (exec i s) (·.withOutputs earlier r) := by
    rw [h, h', State.raise_withOutputs]
    rfl
  cases i with
  | sys nnn => exact hraise (exec_sys nnn s) (exec_sys nnn _)
  | ret =>
    obtain ⟨h, he⟩ | ⟨hne, h, he⟩ | ⟨h, he⟩ := exec_ret_cases s
    · exact hraise he (exec_ret_of_empty (s := s.withOutputs earlier r) h)
    · rw [he, exec_ret_of_pos (s := s.withOutputs earlier r) hne h]
      rfl
    · rw [he, exec_ret_of_over (s := s.withOutputs earlier r) h]
      rfl
  | call nnn =>
    obtain h | h | h := lt_trichotomy s.sp.toNat 16
    · rw [exec_call_of_lt h, exec_call_of_lt (s := s.withOutputs earlier r) h]
      rfl
    · exact hraise (exec_call_of_full h nnn) (exec_call_of_full (s := s.withOutputs earlier r) h nnn)
    · rw [exec_call_of_over h, exec_call_of_over (s := s.withOutputs earlier r) h]
      rfl
  | drw x y n =>
    by_cases h : SpriteInRange s n
    · rw [exec_drw_of_inRange h, exec_drw_of_inRange (s := s.withOutputs earlier r) h]
      rfl
    · exact hraise (exec_drw_of_outOfRange h x y) (exec_drw_of_outOfRange (s := s.withOutputs earlier r) h x y)
  | ldBVx x =>
    obtain h | h := le_or_gt (s.idx.toNat + 2) 0xFFF
    · rw [exec_ldBVx_of_le h, exec_ldBVx_of_le (s := s.withOutputs earlier r) h]
      rfl
    · exact hraise (exec_ldBVx_of_lt h x) (exec_ldBVx_of_lt (s := s.withOutputs earlier r) h x)
  | storeRegs x =>
    obtain h | h := le_or_gt (s.idx.toNat + x.val) 0xFFF
    · rw [exec_storeRegs_of_le h, exec_storeRegs_of_le (s := s.withOutputs earlier r) h]
      rfl
    · exact hraise (exec_storeRegs_of_lt h) (exec_storeRegs_of_lt (s := s.withOutputs earlier r) h)
  | loadRegs x =>
    obtain h | h := le_or_gt (s.idx.toNat + x.val) 0xFFF
    · rw [exec_loadRegs_of_le h, exec_loadRegs_of_le (s := s.withOutputs earlier r) h]
      exact congrArg Host.Outcome.next (State.setRegs_withOutputs s.advancePc earlier r 0 _)
    · exact hraise (exec_loadRegs_of_lt h) (exec_loadRegs_of_lt (s := s.withOutputs earlier r) h)
  | seImm | sneImm | seReg | sneReg | skp | sknp =>
    exact congrArg Host.Outcome.next (State.skipIf_withOutputs s.advancePc earlier r _)
  | _ => rfl

theorem instructionStep_withOutputs (s : State) (earlier : List Event) (r : Option StepResult) :
    instructionStep (s.withOutputs earlier r) = mapNext (instructionStep s) (·.withOutputs earlier r) := by
  obtain hpc | hpc := le_or_gt s.pc.toNat 0xFFE
  · rw [instructionStep_of_pc_inRange hpc, instructionStep_of_pc_inRange (s := s.withOutputs earlier r) hpc,
      show (s.withOutputs earlier r).opcode = s.opcode from rfl]
    cases hdecode : decodeWord s.opcode with
    | ok i => rw [executeWord_of_decode_ok hdecode, executeWord_of_decode_ok hdecode, exec_withOutputs]
    | error q =>
      rw [executeWord_of_decode_error hdecode, executeWord_of_decode_error hdecode, State.raise_withOutputs]
      rfl
  · rw [instructionStep_of_pc_outOfRange hpc, instructionStep_of_pc_outOfRange (s := s.withOutputs earlier r) hpc,
      State.raise_withOutputs]
    rfl

theorem State.pollKeys_withOutputs (s : State) (earlier : List Event) (r : Option StepResult) :
    (s.withOutputs earlier r).pollKeys = s.pollKeys.withOutputs earlier r := by
  rw [State.pollKeys, State.pollKeys, show (s.withOutputs earlier r).lowestEdge = s.lowestEdge from rfl]
  cases s.lowestEdge <;> rfl

/-- The end of a step writes the step result, whatever it was. -/
theorem State.endStep_withOutputs (s : State) (earlier : List Event) (r : Option StepResult) :
    (s.withOutputs earlier r).endStep = s.endStep.addEvents earlier := by
  have hrender : (s.withOutputs earlier r).renderIfDirty = s.renderIfDirty.withOutputs earlier r := by
    have hdirty : (s.withOutputs earlier r).dirty = s.dirty := rfl
    have hrun : (s.withOutputs earlier r).run = s.run := rfl
    rw [State.renderIfDirty, State.renderIfDirty, hdirty, hrun]
    split
    · simp [State.emit, State.withOutputs]
    · rfl
  rw [State.endStep, hrender]
  rfl

theorem mapNext_mapNext (o : Host.Outcome State Fault Refusal) (f g : State → State) :
    mapNext (mapNext o f) g = mapNext o fun s => g (f s) := by
  cases o <;> rfl

theorem bindNext_bindNext (o : Host.Outcome State Fault Refusal) (f g : State → Host.Outcome State Fault Refusal) :
    bindNext (bindNext o f) g = bindNext o fun s => bindNext (f s) g := by
  cases o <;> rfl

/-- A step that runs finds the earlier events in place and overwrites the step result. -/
theorem stepOnce_withOutputs {s : State} (hi : s.idle = false) (earlier : List Event) (r : Option StepResult) :
    stepOnce (s.withOutputs earlier r) = mapNext (stepOnce s) (·.addEvents earlier) := by
  obtain hrun | hrun := s.not_idle_iff.mp hi
  · rw [stepOnce_running hrun, stepOnce_running (s := s.withOutputs earlier r) hrun, instructionStep_withOutputs,
      mapNext_mapNext, mapNext_mapNext]
    simp only [State.endStep_withOutputs]
  · rw [stepOnce_waiting hrun, stepOnce_waiting (s := s.withOutputs earlier r) hrun, State.pollKeys_withOutputs,
      State.endStep_withOutputs]
    rfl

theorem dueStep_withOutputs (p : Params) {s : State} (hi : s.idle = false) (earlier : List Event)
    (r : Option StepResult) :
    dueStep p (s.withOutputs earlier r) = mapNext (dueStep p s) (·.addEvents earlier) := by
  rw [dueStep, dueStep, mapNext_mapNext]
  rw [show { s.withOutputs earlier r with tNow := (s.withOutputs earlier r).tStep } =
      State.withOutputs { s with tNow := s.tStep } earlier r from rfl,
    stepOnce_withOutputs (s := { s with tNow := s.tStep }) hi, mapNext_mapNext]
  rfl

theorem State.timerTick_withOutputs (s : State) (earlier : List Event) (r : Option StepResult) :
    (s.withOutputs earlier r).timerTick = s.timerTick.withOutputs earlier r := by
  have hbeep : (s.withOutputs earlier r).beepIfSounding = s.beepIfSounding.withOutputs earlier r := by
    have hst : (s.withOutputs earlier r).st = s.st := rfl
    rw [State.beepIfSounding, State.beepIfSounding, hst]
    split
    · rfl
    · simp [State.emit, State.withOutputs]
  rw [State.timerTick, hbeep]
  rfl

theorem dueTick_withOutputs (s : State) (earlier : List Event) (r : Option StepResult) :
    dueTick (s.withOutputs earlier r) = (dueTick s).withOutputs earlier r := by
  rw [dueTick, show { s.withOutputs earlier r with tNow := (s.withOutputs earlier r).tTick } =
    State.withOutputs { s with tNow := s.tTick } earlier r from rfl, State.timerTick_withOutputs]
  rfl

theorem endAdvance_withOutputs (target : Rat) (s : State) (earlier : List Event) (r : Option StepResult) :
    endAdvance target (s.withOutputs earlier r) = (endAdvance target s).addEvents earlier := by
  cases hi : s.idle with
  | true =>
    rw [endAdvance_idle target hi, endAdvance_idle target (s := s.withOutputs earlier r) hi]
    rfl
  | false =>
    rw [endAdvance_not_idle target hi, endAdvance_not_idle target (s := s.withOutputs earlier r) hi]
    rfl

/-- The loop of R320 and its end, from a state with other outputs: the same state with the earlier events before its
own. -/
theorem advanceRun_withOutputs (p : Params) (target : Rat) (s : State) (earlier : List Event)
    (r : Option StepResult) :
    mapNext (advanceRun p target (s.withOutputs earlier r)) (endAdvance target) =
      mapNext (mapNext (advanceRun p target s) (endAdvance target)) (·.addEvents earlier) := by
  induction s using advanceRun_induction p target generalizing r with
  | idle s hi =>
    rw [advanceRun_idle p target hi, advanceRun_idle p target (s := s.withOutputs earlier r) hi]
    exact congrArg Host.Outcome.next (endAdvance_withOutputs target s earlier r)
  | nothingDue s hi hstep htick =>
    rw [advanceRun_nothingDue p hstep htick, advanceRun_nothingDue p (s := s.withOutputs earlier r) hstep htick]
    exact congrArg Host.Outcome.next (endAdvance_withOutputs target s earlier r)
  | step s hi hdue hfirst ih =>
    rw [advanceRun_step p hi hdue hfirst, advanceRun_step p (s := s.withOutputs earlier r) hi hdue hfirst,
      dueStep_withOutputs p hi]
    cases ha : dueStep p s with
    | next a => exact ih a ha a.stepResult
    | fault | refused => rfl
  | tick s hi hdue hfirst ih =>
    rw [advanceRun_tick p hi hdue hfirst, advanceRun_tick p (s := s.withOutputs earlier r) hi hdue hfirst,
      dueTick_withOutputs]
    exact ih r

end Sys2Proof.Machine
end

section
/-! ### `Advance` goes on from where it is (60_exceptions.md R320, D23) -/

namespace Sys2Proof.Machine

theorem State.beginTransaction_withOutputs (s : State) : s.beginTransaction.withOutputs s.events s.stepResult = s := by
  simp [State.withOutputs, State.beginTransaction]

/-- The loop from a state on its way to the target is `Advance` by the time that is left, with the events emitted on the
way before those it emits. -/
theorem advanceRun_eq_advance (p : Params) {target : Rat} {left : Duration} {s : State}
    (h : s.tNow + left.seconds = target) :
    mapNext (advanceRun p target s) (endAdvance target) = mapNext (advance p left s) (·.addEvents s.events) := by
  conv_lhs => rw [← s.beginTransaction_withOutputs]
  rw [advanceRun_withOutputs, advance_eq, h]

/-- A target on the way makes no difference to what runs. -/
theorem advanceRun_split (p : Params) {target target' : Rat} (h : target ≤ target') (s : State) :
    advanceRun p target' s = bindNext (advanceRun p target s) (advanceRun p target') := by
  induction s using advanceRun_induction p target with
  | idle s hi => rw [advanceRun_idle p target hi, bindNext]
  | nothingDue s hi hstep htick => rw [advanceRun_nothingDue p hstep htick, bindNext]
  | step s hi hdue hfirst ih =>
    rw [advanceRun_step p hi hdue hfirst, advanceRun_step p hi (le_trans hdue h) hfirst, bindNext_bindNext]
    cases ha : dueStep p s with
    | next a => exact ih a ha
    | fault | refused => rfl
  | tick s hi hdue hfirst ih =>
    rw [advanceRun_tick p hi hdue hfirst, advanceRun_tick p hi (le_trans hdue h) hfirst]
    exact ih

/-- In a block that is not idle `T_NOW` is overwritten, by the next event or at the end. -/
theorem advanceRun_tNow (p : Params) (target now : Rat) {s : State} (hi : s.idle = false) :
    mapNext (advanceRun p target { s with tNow := now }) (endAdvance target) =
      mapNext (advanceRun p target s) (endAdvance target) := by
  obtain ⟨hstep, htick⟩ | ⟨hdue, hfirst⟩ | ⟨hdue, hfirst⟩ := due_cases target s
  · rw [advanceRun_nothingDue p hstep htick, advanceRun_nothingDue p (s := { s with tNow := now }) hstep htick, mapNext,
      mapNext, endAdvance_not_idle target hi, endAdvance_not_idle target (s := { s with tNow := now }) hi]
  · rw [advanceRun_step p hi hdue hfirst, advanceRun_step p (s := { s with tNow := now }) hi hdue hfirst]
    rfl
  · rw [advanceRun_tick p hi hdue hfirst, advanceRun_tick p (s := { s with tNow := now }) hi hdue hfirst]
    rfl

/-- The end of an advance is a beginning like any other: going on from it to a later target is going on from before
it. -/
theorem advanceRun_endAdvance (p : Params) (target target' : Rat) {s : State} (hi : s.idle = false) :
    mapNext (advanceRun p target' (endAdvance target s)) (endAdvance target') =
      mapNext (advanceRun p target' s) (endAdvance target') := by
  have hout : { s with stepResult := none } = s.withOutputs [] none := rfl
  rw [endAdvance_not_idle target hi, advanceRun_tNow p target' target (s := { s with stepResult := none }) hi, hout,
    advanceRun_withOutputs, mapNext_mapNext]
  rfl

theorem dueStep_of_stepOnce (p : Params) {s a : State} (h : stepOnce { s with tNow := s.tStep } = .next a) :
    dueStep p s = .next { a with tStep := s.tStep + 1 / p.cpuHz } := by
  obtain ⟨-, hstep, -⟩ : Part.times.same { s with tNow := s.tStep } a := stepOnce_times h
  rw [dueStep, h, mapNext, hstep]

section
variable {p : Params} {dt left : Duration} {s t : State}

/-- With a step due first, `Advance` is that step and `Advance` by the time that is left. -/
theorem advance_of_step {a : State} (hi : s.idle = false) (hfirst : s.tStep ≤ s.tTick)
    (hleft : s.tStep + left.seconds = s.tNow + dt.seconds) (ha : dueStep p s.beginTransaction = .next a)
    (ht : advance p left a = .next t) : advance p dt s = .next (t.addEvents a.events) := by
  have hdue : s.tStep ≤ s.tNow + dt.seconds := hleft ▸ le_add_of_nonneg_right left.nonneg
  have hnow : a.tNow + left.seconds = s.tNow + dt.seconds :=
    (congrArg (· + left.seconds) (dueStep_times ha).1).trans hleft
  rw [advance_eq, advanceRun_step p (s := s.beginTransaction) hi hdue hfirst, ha, bindNext,
    advanceRun_eq_advance p hnow, ht]
  rfl

/-- With a tick due first, `Advance` is that tick and `Advance` by the time that is left. -/
theorem advance_of_tick (hi : s.idle = false) (hfirst : s.tTick < s.tStep)
    (hleft : s.tTick + left.seconds = s.tNow + dt.seconds)
    (ht : advance p left (dueTick s.beginTransaction) = .next t) :
    advance p dt s = .next (t.addEvents (dueTick s.beginTransaction).events) := by
  have hdue : s.tTick ≤ s.tNow + dt.seconds := hleft ▸ le_add_of_nonneg_right left.nonneg
  have hnow : (dueTick s.beginTransaction).tNow + left.seconds = s.tNow + dt.seconds :=
    (congrArg (· + left.seconds) (dueTick_times s.beginTransaction).1).trans hleft
  rw [advance_eq, advanceRun_tick p (s := s.beginTransaction) hi hdue hfirst, advanceRun_eq_advance p hnow, ht]
  rfl

end

end Sys2Proof.Machine

namespace Sys2Proof.Proofs

open Machine

/-- Settles O51: the three branches of the loop, each going on as `Advance` by the time that is left, and its end. -/
theorem advanceRunsEverythingDue : Obligations.AdvanceRunsEverythingDue := by
  intro p dt s hi
  refine ⟨fun hstep htick => ?_, fun left a t hfirst hleft ha ht => ?_, fun left a t hfirst hleft ha ht => ?_,
    fun t ht => ?_⟩
  · rw [advance_eq, advanceRun_nothingDue p (s := s.beginTransaction) hstep htick, mapNext,
      endAdvance_not_idle _ (s := s.beginTransaction) hi]
    rfl
  · exact advance_of_step (a := { a with tStep := s.tStep + 1 / p.cpuHz }) hi hfirst hleft
      (dueStep_of_stepOnce p (s := s.beginTransaction) ha) ht
  · subst ha
    exact advance_of_tick hi hfirst hleft ht
  · rw [advance_eq] at ht
    obtain ⟨u, hu, rfl⟩ := mapNext_next ht
    cases hidle : u.idle with
    | true =>
      rw [endAdvance_idle _ hidle]
      exact .inl hidle
    | false =>
      rw [endAdvance_not_idle _ hidle]
      exact .inr ⟨rfl, (advanceRun_end hu).resolve_left (by simp [hidle])⟩

/-- Settles O52: the loop to the later target runs through the earlier one, and goes on from its end. -/
theorem advanceDoesNotDependOnCadence : Obligations.AdvanceDoesNotDependOnCadence := by
  intro p a b c s t u hc ht hu
  have hlater : s.tNow + a.seconds ≤ s.tNow + c.seconds := by
    rw [hc, ← add_assoc]
    exact le_add_of_nonneg_right b.nonneg
  rw [advance_eq] at ht
  obtain ⟨x, hx, rfl⟩ := mapNext_next ht
  rw [advance_eq, advanceRun_split p hlater, hx, bindNext]
  cases hi : x.idle with
  | true =>
    rw [endAdvance_idle _ hi] at hu ⊢
    cases (advance_idle p b (s := { x with stepResult := none }) hi).symm.trans hu
    rw [advanceRun_idle p _ hi, mapNext, endAdvance_idle _ hi]
    simp [State.beginTransaction]
  | false =>
    have hnow : (endAdvance (s.tNow + a.seconds) x).tNow + b.seconds = s.tNow + c.seconds := by
      rw [endAdvance_not_idle _ hi, hc, add_assoc]
    rw [← advanceRun_endAdvance p (s.tNow + a.seconds) _ hi, advanceRun_eq_advance p hnow, hu]
    rfl

end Sys2Proof.Proofs
end

section
/-! ### How many steps and ticks an advance runs (60_exceptions.md R320) -/

namespace Sys2Proof.Machine

/-- What the loop of R320 runs up to a target it reaches: as many steps and ticks as are due, each one period after the
one before. -/
structure Ran (p : Params) (target : Rat) (es : List DueEvent) (s t : State) : Prop where
  run : runDue p es s = .next t
  steps : es.count .step = eventsDue target s.tStep p.cpuHz
  ticks : es.count .tick = eventsDue target s.tTick Config.timerHz
  tStep : t.tStep = s.tStep + es.count .step / p.cpuHz
  tTick : t.tTick = s.tTick + es.count .tick / Config.timerHz

theorem ran_nothing (p : Params) {target : Rat} {s : State} (hstep : target < s.tStep) (htick : target < s.tTick) :
    Ran p target [] s s where
  run := rfl
  steps := (eventsDue_of_lt p.cpuHz_pos hstep).symm
  ticks := (eventsDue_of_lt timerHz_pos htick).symm
  tStep := by simp
  tTick := by simp

theorem Ran.step {p : Params} {target : Rat} {es : List DueEvent} {s a t : State} (h : Ran p target es a t)
    (ha : dueStep p s = .next a) (hdue : s.tStep ≤ target) : Ran p target (.step :: es) s t := by
  obtain ⟨-, hstep, htick⟩ := dueStep_times ha
  refine ⟨?_, ?_, ?_, ?_, ?_⟩
  · rw [runDue, ha]
    exact h.run
  · rw [List.count_cons_self, h.steps, hstep, ← eventsDue_of_le p.cpuHz_pos hdue]
  · rw [List.count_cons_of_ne (by decide), h.ticks, htick]
  · rw [List.count_cons_self, h.tStep, hstep]
    push_cast
    ring
  · rw [List.count_cons_of_ne (by decide), h.tTick, htick]

theorem Ran.tick {p : Params} {target : Rat} {es : List DueEvent} {s t : State} (h : Ran p target es (dueTick s) t)
    (hdue : s.tTick ≤ target) : Ran p target (.tick :: es) s t := by
  obtain ⟨-, hstep, htick⟩ := dueTick_times s
  refine ⟨h.run, ?_, ?_, ?_, ?_⟩
  · rw [List.count_cons_of_ne (by decide), h.steps, hstep]
  · rw [List.count_cons_self, h.ticks, htick, ← eventsDue_of_le timerHz_pos hdue]
  · rw [List.count_cons_of_ne (by decide), h.tStep, hstep]
  · rw [List.count_cons_self, h.tTick, htick]
    push_cast
    ring

theorem advanceRun_ran {p : Params} {target : Rat} {s t : State} (h : advanceRun p target s = .next t)
    (hend : t.idle = false) : ∃ es, Ran p target es s t := by
  induction s using advanceRun_induction p target with
  | idle s hi =>
    cases (advanceRun_idle p target hi).symm.trans h
    exact absurd hend (by simp [hi])
  | nothingDue s hi hstep htick =>
    cases (advanceRun_nothingDue p hstep htick).symm.trans h
    exact ⟨[], ran_nothing p hstep htick⟩
  | step s hi hdue hfirst ih =>
    rw [advanceRun_step p hi hdue hfirst] at h
    obtain ⟨a, ha, hrest⟩ := bindNext_next h
    obtain ⟨es, hran⟩ := ih a ha hrest
    exact ⟨.step :: es, hran.step ha hdue⟩
  | tick s hi hdue hfirst ih =>
    rw [advanceRun_tick p hi hdue hfirst] at h
    obtain ⟨es, hran⟩ := ih h
    exact ⟨.tick :: es, hran.tick hdue⟩

/-- The next event after `n` of them, the first of which is due one period after the start. -/
theorem nextDue_eq {rate : Rat} {n : Nat} {k : Int} (h : (n : Int) = k) :
    1 / rate + n / rate = ((k + 1 : Int) : Rat) / rate := by
  subst h
  push_cast
  ring

end Sys2Proof.Machine

namespace Sys2Proof.Proofs

open Machine

/-- Settles O53: the loop from a fresh session, whose first step and tick are due one period after the start. -/
theorem advanceCountsStepsAndTicks : Obligations.AdvanceCountsStepsAndTicks := by
  intro p program seed dt t ht hend
  have htarget : (freshSession p program seed).tNow + dt.seconds = dt.seconds := zero_add _
  rw [advance_eq, htarget] at ht
  obtain ⟨u, hu, rfl⟩ := mapNext_next ht
  have hi : u.idle = false := by
    by_contra hidle
    rw [Bool.not_eq_false] at hidle
    rw [endAdvance_idle _ hidle] at hend
    exact absurd (hend.symm.trans hidle) Bool.false_ne_true
  obtain ⟨es, hran⟩ := advanceRun_ran hu hi
  have hsteps := (congrArg Int.ofNat hran.steps).trans (eventsDue_first p.cpuHz_pos dt.nonneg)
  have hticks := (congrArg Int.ofNat hran.ticks).trans (eventsDue_first timerHz_pos dt.nonneg)
  rw [endAdvance_not_idle _ hi]
  exact ⟨⟨es, hsteps, hticks, u, hran.run, rfl⟩, rfl, hran.tStep.trans (nextDue_eq hsteps),
    hran.tTick.trans (nextDue_eq hticks)⟩

end Sys2Proof.Proofs
end
